-- ==== Sys2Proof/Word.lean ====
section
/-! DEFINITION. The value types of the block (00_scope R6, R7): 32-bit registers, bytes, 7-bit literals. -/

namespace Sys2Proof

/-- A 32-bit host register, address or length (R6: REG_W, ADDR_W, LEN_W). -/
abbrev Word := BitVec 32

/-- A byte (R6: BYTE_BITS). -/
abbrev Byte := BitVec 8

/-- A literal value, 0 to 127 (R6: LIT_BITS). -/
abbrev Literal := BitVec 7

end Sys2Proof
end

