-- ==== Sys2Proof/Syntax.lean ====
section
/-! DEFINITION. The instructions: one constructor per row of spec/opcode_table.json. -/

namespace Sys2Proof

/-- The three command words the host writes to CTRL (R91) and the two tokens of a compressed stream
(R81, R82). The operands are the fields of the encodings; the reserved bits d[31:4] of a command word
carry none (R90). -/
inductive Instr where
  /-- `ENCODE`: CTRL word with d[1:0] = 01; `srcValid` = d[2], `dstValid` = d[3] (R91, R113). -/
  | encode (srcValid dstValid : Bool)
  /-- `DECODE`: CTRL word with d[1:0] = 11; `srcValid` = d[2], `dstValid` = d[3] (R91, R113). -/
  | decode (srcValid dstValid : Bool)
  /-- `CTRL_SET`: CTRL word with d[0] = 0; `op` = d[1], `srcValid` = d[2], `dstValid` = d[3] (R91, R114). -/
  | ctrlSet (op srcValid dstValid : Bool)
  /-- `LIT v`: the token byte 0vvvvvvv (R81, R152). -/
  | lit (v : Literal)
  /-- `RUN v, n`: the token bytes 1vvvvvvv nnnnnnnn (R82, R153). -/
  | run (v : Literal) (n : Byte)
  deriving DecidableEq, Repr

end Sys2Proof
end

