-- ==== Sys2Proof/Config.lean ====
section
/-! DEFINITION. The parameters that have a value (00_scope R6) and the free values: constants without a
body, so that nothing can be proved about which value they give. The OPEN parameters REG_BASE and
PLATFORM_BUS are fields of the state (Machine/State.lean), as R6 asks. -/

namespace Sys2Proof.Config

/-- Size of the engine memory space in bytes (R51). -/
def memBytes : Nat := 4294967296

/-- MAX_RUN, the largest run length in one token (R6, 90_conflicts C1). -/
def maxRun : Nat := 255

/-- MIN_RUN_TOKEN, the smallest run length a run token carries; RUN_LEN_POLICY is STRICT (R6, D11). -/
def minRunToken : Nat := 2

/-- Size of the host register window in bytes (R22). -/
def windowBytes : Nat := 32

/-- The one admitted width of a host register access, in bits (R110). -/
def hostWidth : Nat := 32

/-- A free bit: the internal one-bit engine registers between commands (93 U11; log 8). -/
opaque freeBit : Nat → Bool

/-- A free byte (93 U8, U10, U11; log 8). -/
opaque freeByte : Nat → Byte

/-- A free 32-bit value (93 U11; log 8). -/
opaque freeWord : Nat → Word

end Sys2Proof.Config
end

