-- ==== Sys2Proof/WellFormed.lean ====
section
/-! DEFINITION. Which instructions are well formed: a RUN carries a length of at least 2 (R82, R86 b).
Every other operand is legal at every value (R87, R91). -/

namespace Sys2Proof

/-- R86 and R87: the one operand check of the two encodings. -/
def Instr.wf : Instr → Bool
  | .encode _ _ => true
  | .decode _ _ => true
  | .ctrlSet _ _ _ => true
  | .lit _ => true
  | .run _ n => decide (Config.minRunToken ≤ n.toNat)

end Sys2Proof
end

