-- ==== Sys2Proof/Decode.lean ====
section
/-! DEFINITION. Decoding of the two encodings, total on any bits (30_encoding), and the encoder after it. -/

namespace Sys2Proof

/-- The bits of an instruction where the block takes them from: a 32-bit word written to CTRL (R90), or
the bytes of a compressed stream from the read cursor to its end, in address order (R83). -/
inductive Code where
  | command (d : Word)
  | token (bytes : List Byte)
  deriving DecidableEq, Repr

/-- Why no instruction can be read. -/
inductive DecodeError where
  /-- The stream has no byte left: there is no token (R83: a stream ends where its length says). -/
  | emptyStream
  /-- A run header is the last byte of the stream (R86 a). -/
  | truncatedRun
  deriving DecidableEq, Repr

/-- An instruction and the bytes after it, or an error. -/
inductive Decoded where
  | ok (i : Instr) (rest : List Byte)
  | error (e : DecodeError)
  deriving DecidableEq, Repr

/-- The tag of a token's first byte: bit 7 (R80). -/
def tagOf (b : Byte) : Bool := b.getLsbD 7

/-- The literal value of a token's first byte: `b[6:0]` (R84). -/
def literalOf (b : Byte) : Literal := b.extractLsb' 0 7

/-- A token's length in bytes, told from bit 7 of its first byte alone (R83). -/
def tokenLength (b : Byte) : Nat := if tagOf b then 2 else 1

/-- The command table: bits 1:0 choose the row, bits 3:2 are operands, bits 31:4 are ignored (R91). -/
def decodeCommand (d : Word) : Instr :=
  if d.getLsbD 0 then
    if d.getLsbD 1 then .decode (d.getLsbD 2) (d.getLsbD 3)
    else .encode (d.getLsbD 2) (d.getLsbD 3)
  else .ctrlSet (d.getLsbD 1) (d.getLsbD 2) (d.getLsbD 3)

/-- The token at the front of a stream (R81, R82, R83). A RUN with a length byte below 2 decodes: it is
an instruction, whose effect is to raise MalformedStream (R153, R156; log 18). -/
def decodeToken : List Byte → Decoded
  | [] => .error .emptyStream
  | b :: rest =>
    if tagOf b then
      match rest with
      | [] => .error .truncatedRun
      | n :: rest' => .ok (.run (literalOf b) n) rest'
    else .ok (.lit (literalOf b)) rest

/-- The decoder. -/
def decode : Code → Decoded
  | .command d => .ok (decodeCommand d) []
  | .token bytes => decodeToken bytes

/-- The byte of a literal token: `0vvvvvvv` (R81, R85). -/
def literalByte (v : Literal) : Byte := v.zeroExtend 8

/-- The run header of value v: `v | 0x80` (R82, R85). -/
def headerByte (v : Literal) : Byte := v.zeroExtend 8 ||| 0x80#8

/-- A command word with the reserved bits 0 (R90). -/
def commandWord (start op srcValid dstValid : Bool) : Word :=
  (0#28 ++ BitVec.ofBool dstValid ++ BitVec.ofBool srcValid ++ BitVec.ofBool op ++ BitVec.ofBool start :
    BitVec (28 + 1 + 1 + 1 + 1))

/-- The bits of an instruction (R81, R82, R85, R90, R91). -/
def encode : Instr → Code
  | .encode sv dv => .command (commandWord true false sv dv)
  | .decode sv dv => .command (commandWord true true sv dv)
  | .ctrlSet op sv dv => .command (commandWord false op sv dv)
  | .lit v => .token [literalByte v]
  | .run v n => .token [headerByte v, n]

/-- The bits a row of spec/opcode_table.json stands for. The table reads a token as one number whose first
byte is the high one (RUN: the tag is bit 15), and gives the ENCODE and DECODE rows only bits 1:0, so that
one byte stands for a whole word. A table word of 16 bits is a token's two bytes. A table word of 8 bits is
a command word only where it is exactly the fixed bits of the ENCODE or the DECODE row; else it is a token,
whose missing length byte is 0. Any other width is a command word (log 15). -/
def tableCode (nbits w : Nat) : Code :=
  if nbits = 16 then .token [BitVec.ofNat 8 (w / 256), BitVec.ofNat 8 w]
  else if nbits = 8 then
    if w = 1 ∨ w = 3 then .command (BitVec.ofNat 32 w)
    else if tagOf (BitVec.ofNat 8 w) then .token [BitVec.ofNat 8 w, 0#8]
    else .token [BitVec.ofNat 8 w]
  else .command (BitVec.ofNat 32 w)

/-- What the decoder reads from a table word (log 15). -/
def decodeTableWord (nbits w : Nat) : Option Instr :=
  match decode (tableCode nbits w) with
  | .ok i _ => some i
  | .error _ => none

end Sys2Proof
end

