-- ==== Sys2Proof/Machine/State.lean ====
section
/-! DEFINITION. The state of the block and its platform as plain data (10_state), the reasons a step can
stop, and the state after reset (R200). -/

namespace Sys2Proof.Machine

/-- The four error kinds (R180). Code 0 of STATUS.ERR is the absence of one. -/
inductive ErrorKind where
  | invalidHandle
  | outOfRangeLiteral
  | malformedStream
  | destinationOverflow
  deriving DecidableEq, Repr

/-- The stored fields of CTRL (R23). START and the reserved bits read 0 and hold nothing (log 23). -/
structure Ctrl where
  op : Bool
  srcValid : Bool
  dstValid : Bool
  deriving DecidableEq, Repr

/-- The fields of STATUS (R24). The reserved bits read 0 and hold nothing; ERR holds one of the codes 0 to 4
(R180, log 23). -/
structure Status where
  busy : Bool
  done : Bool
  err : Option ErrorKind
  deriving DecidableEq, Repr

/-- `eng.phase` (R31, R32). -/
inductive Phase where
  | idle
  | running
  deriving DecidableEq, Repr

/-- The engine's next step inside the pseudocode: the handle check or one memory access (R117, R118, R130,
R150, R152, R153; log 2). -/
inductive Point where
  /-- The handle check (R117, R118). -/
  | handleCheck
  /-- ENCODE: the read that loads `eng.lit` (R130). -/
  | encLoad
  /-- ENCODE: the read in the inner loop's condition (R130, R131). -/
  | encPeek
  /-- ENCODE: the write of a literal token (R132). -/
  | encLit
  /-- ENCODE: the write of a run header (R132). -/
  | encHeader
  /-- ENCODE: the write of a length byte (R132). -/
  | encLength
  /-- DECODE: the read of a token's first byte (R150). -/
  | decFetch
  /-- DECODE: the write of a LIT (R152). -/
  | decLit
  /-- DECODE: the read of a RUN's length byte (R153). -/
  | decLength
  /-- DECODE: one write of a RUN (R153). -/
  | decRun
  deriving DecidableEq, Repr

/-- The internal engine registers (R31) and the engine's place in the pseudocode (log 2). -/
structure Eng where
  phase : Phase
  pt : Point
  op : Bool
  sv : Bool
  dv : Bool
  sb : Word
  sl : Word
  db : Word
  dc : Word
  r : Word
  w : Word
  lit : Byte
  len : Byte
  k : Byte
  deriving DecidableEq, Repr

/-- A region: the bytes [base, base + len) (R12). -/
structure Region where
  base : Nat
  len : Nat
  deriving DecidableEq, Repr

/-- The OPEN parameters of the platform (R6, R35). No step changes them (log 5, log 6, log 7). -/
structure Platform where
  /-- REG_BASE, the address of the register window on the host bus (R22). -/
  regBase : Nat
  /-- PLATFORM_BUS: the addresses the platform does not back (R69). -/
  unbacked : List Region
  /-- Addresses mapped to a device with read side effects (R58, 93 U15). -/
  devices : List Region
  deriving DecidableEq, Repr

/-- The eight host-visible registers (R22). -/
inductive Reg where
  | ctrl
  | status
  | srcBase
  | srcLen
  | dstBase
  | dstCap
  | resultLen
  | errPos
  deriving DecidableEq, Repr

/-- What the outside world does to the block: the host's accesses to the register window and to the engine
memory space, POLL (R94), and the reset input (R200). A register access carries its bus address and its
width in bits, so that R110 can be checked (log 21). Other bus masters and other instances of the block move as the
host does (R11, R195; log 22). One access to the engine memory space moves one byte: the spec gives no width for it
(log 24). -/
inductive HostOp where
  | read (addr width : Nat)
  | write (addr width : Nat) (data : Word)
  | poll
  | memRead (addr : Word)
  | memWrite (addr : Word) (v : Byte)
  | reset
  deriving DecidableEq, Repr

/-- One turn of the schedule: which agent of R11 moves next (log 1). -/
inductive Turn where
  | host (op : HostOp)
  | engine
  deriving DecidableEq, Repr

/-- The engine memory space as a list of address and byte pairs in one canonical form: addresses strictly
rising and below 2^32, and no byte equal to what an unlisted address reads as (R51, log 3). -/
abbrev Memory := List Host.Cell

/-- The whole state. -/
structure State where
  /-- CTRL, offset 0x00 (R23). -/
  ctrl : Ctrl
  /-- STATUS, offset 0x04 (R24). -/
  status : Status
  /-- SRC_BASE, offset 0x08 (R25). -/
  srcBase : Word
  /-- SRC_LEN, offset 0x0C (R26). -/
  srcLen : Word
  /-- DST_BASE, offset 0x10 (R27). -/
  dstBase : Word
  /-- DST_CAP, offset 0x14 (R28). -/
  dstCap : Word
  /-- RESULT_LEN, offset 0x18 (R29). -/
  resultLen : Word
  /-- ERR_POS, offset 0x1C (R30). -/
  errPos : Word
  /-- The internal engine registers (R31). -/
  eng : Eng
  /-- The engine memory space (R51). -/
  mem : Memory
  /-- The OPEN parameters (R6). -/
  platform : Platform
  /-- The turns still to come, oldest first (log 1). -/
  inputs : List Turn
  /-- The data the last host read returned (R111, log 13). -/
  bus : Word
  /-- The index of the next free value (log 8). -/
  fresh : Nat
  /-- The addresses in the running command's regions that another agent has written since its START (R205, log 9). -/
  racedBytes : List Nat
  deriving DecidableEq, Repr

/-- Why the machine stops. -/
inductive Fault where
  /-- Raised by an engine access to an address the platform does not back, when no other agent has a turn
  left: the engine has no step and the command never completes (R69). Safe. -/
  | stuckUnbacked
  /-- Raised by an engine access to an address of 2^32 or more, which does not exist (R51). No run reaches it,
  because the handle check passed (R116). Safe. -/
  | addressOutOfSpace
  deriving DecidableEq, Repr

/-- Why a step has no meaning. -/
inductive Refusal where
  /-- Raised by an arm of exec whose instruction has no meaning yet; there is none left. Safe. -/
  | notModelled (mnemonic : String)
  /-- Raised by a host access inside the register window that is misaligned or not 32 bits wide (R110). Safe. -/
  | accessNotAdmitted
  /-- Raised by a host access outside the register window: it is not an access to this block (R110). Safe. -/
  | outsideWindow
  /-- Raised by an access to an address mapped to a device: outside the contract (R58, 93 U15). Safe. -/
  | deviceRegion
  /-- Raised by a host access to an engine memory address the platform does not back (R69, log 12). Safe. -/
  | hostUnbacked
  /-- Raised by a token outside its place: the engine is not running a DECODE that stands at this token
  (R150, log 19). No run reaches it. Safe. -/
  | notAtToken
  deriving DecidableEq, Repr

/-- The engine after reset: idle, every other register at a value the model names (R200, log 4). -/
def Eng.reset : Eng :=
  { phase := .idle, pt := .handleCheck, op := false, sv := false, dv := false, sb := 0, sl := 0, db := 0, dc := 0,
    r := 0, w := 0, lit := 0, len := 0, k := 0 }

/-- The machine right after reset: all eight registers 0 and the engine idle (R200). Memory lists nothing
(log 3), the platform's parameters are named by log 5, log 6 and log 7, and no input waits. -/
def State.reset : State :=
  { ctrl := { op := false, srcValid := false, dstValid := false },
    status := { busy := false, done := false, err := none },
    srcBase := 0, srcLen := 0, dstBase := 0, dstCap := 0, resultLen := 0, errPos := 0,
    eng := Eng.reset, mem := [],
    platform := { regBase := 0, unbacked := [], devices := [] },
    inputs := [], bus := 0, fresh := 0, racedBytes := [] }

end Sys2Proof.Machine
end

