-- ==== Sys2Proof/Machine/Flags.lean ====
section
/-! DEFINITION. The flags of STATUS: their word (R24, R93), the error codes (R180), and the values each of
the four writers of R33 leaves. -/

namespace Sys2Proof.Machine

/-- The code of an error kind in STATUS.ERR (R180). -/
def ErrorKind.code : ErrorKind → BitVec 4
  | .invalidHandle => 1
  | .outOfRangeLiteral => 2
  | .malformedStream => 3
  | .destinationOverflow => 4

/-- STATUS.ERR: 0 when there is no error (R180). -/
def errField : Option ErrorKind → BitVec 4
  | none => 0
  | some e => e.code

/-- The word a read of STATUS returns: bits 31:8 zero, ERR, bits 3:2 zero, DONE, BUSY (R24, R93). -/
def Status.toWord (st : Status) : Word :=
  (0#24 ++ errField st.err ++ 0#2 ++ BitVec.ofBool st.done ++ BitVec.ofBool st.busy : BitVec (24 + 4 + 2 + 1 + 1))

/-- The word a read of CTRL returns: bits 31:4 zero, DST_VALID, SRC_VALID, OP, START as 0 (R23). -/
def Ctrl.toWord (c : Ctrl) : Word :=
  (0#28 ++ BitVec.ofBool c.dstValid ++ BitVec.ofBool c.srcValid ++ BitVec.ofBool c.op ++ 0#1 : BitVec (28 + 1 + 1 + 1 + 1))

/-- The flags a START that takes effect leaves (R33, R113). -/
def flagsStarted : Status := { busy := true, done := false, err := none }

/-- The flags a success completion leaves (R33, R185). -/
def flagsComplete : Status := { busy := false, done := true, err := none }

/-- The flags an error completion leaves (R33, R186). -/
def flagsError (e : ErrorKind) : Status := { busy := false, done := true, err := some e }

/-- The flags reset leaves (R33, R200). -/
def flagsReset : Status := { busy := false, done := false, err := none }

end Sys2Proof.Machine
end

