-- ==== Sys2Proof/Machine/Operands.lean ====
section
/-! DEFINITION. Operand forms: cursor arithmetic and addresses (R8), regions (R12, R116), the operands of the
two commands (R117, R118), and the register a bus address names (R22, R110). -/

namespace Sys2Proof.Machine

/-- A cursor moved on by n. R8 computes on naturals: no command wraps a cursor (log 17). -/
def advance (c : Word) (n : Nat) : Word := BitVec.ofNat 32 (c.toNat + n)

/-- The address of offset `off` in the region at `base`, a natural number that never wraps (R8). -/
def addressOf (base : Word) (off : Nat) : Nat := base.toNat + off

/-- Region validity: base + len is at most 2^32, computed without wrap (R116). -/
def inRange (base len : Word) : Bool := decide (base.toNat + len.toNat ≤ Config.memBytes)

/-- The overlap test of R118: both regions non-empty and each base below the other's end. -/
def overlap (sb sl db dc : Word) : Bool :=
  decide (0 < sl.toNat ∧ 0 < dc.toNat ∧ sb.toNat < db.toNat + dc.toNat ∧ db.toNat < sb.toNat + sl.toNat)

/-- The address lies in the region (R12). -/
def inRegion (base len : Word) (a : Nat) : Bool := decide (base.toNat ≤ a ∧ a < base.toNat + len.toNat)

/-- The handle check of ENCODE passes (R117). -/
def encodeHandlesOk (e : Eng) : Bool := e.sv && inRange e.sb e.sl

/-- The handle check of DECODE passes (R118). -/
def decodeHandlesOk (e : Eng) : Bool :=
  e.sv && e.dv && inRange e.sb e.sl && inRange e.db e.dc && !overlap e.sb e.sl e.db e.dc

/-- The handle check of the latched command passes (R117, R118). -/
def handlesOk (e : Eng) : Bool := if e.op then decodeHandlesOk e else encodeHandlesOk e

/-- The address belongs to a region of the running command: the source region of ENCODE, both regions of
DECODE (R68, R205). -/
def commandRegion (e : Eng) (a : Nat) : Bool := inRegion e.sb e.sl a || (e.op && inRegion e.db e.dc a)

/-- The base of the region the latched command writes: the source region of ENCODE, the destination region of DECODE
(R68). -/
def Eng.outputBase (e : Eng) : Word := if e.op then e.db else e.sb

/-- The length of the region the latched command writes (R68). -/
def Eng.outputLen (e : Eng) : Word := if e.op then e.dc else e.sl

/-- Offset of a register in the window (R22). -/
def Reg.offset : Reg → Nat
  | .ctrl => 0x00
  | .status => 0x04
  | .srcBase => 0x08
  | .srcLen => 0x0C
  | .dstBase => 0x10
  | .dstCap => 0x14
  | .resultLen => 0x18
  | .errPos => 0x1C

/-- The register at an offset of the window (R22); a misaligned offset names none. -/
def regAt : Nat → Option Reg
  | 0x00 => some .ctrl
  | 0x04 => some .status
  | 0x08 => some .srcBase
  | 0x0C => some .srcLen
  | 0x10 => some .dstBase
  | 0x14 => some .dstCap
  | 0x18 => some .resultLen
  | 0x1C => some .errPos
  | _ => none

/-- The bus address lies in the register window (R22, R110). -/
def inWindow (p : Platform) (addr : Nat) : Bool :=
  decide (p.regBase ≤ addr ∧ addr < p.regBase + Config.windowBytes)

/-- Admission of a host access: in the window, aligned, 32 bits wide (R110). The result is the register
accessed. -/
def admission (p : Platform) (addr width : Nat) : Option Reg :=
  if inWindow p addr && decide (width = Config.hostWidth) then regAt (addr - p.regBase) else none

/-- Why an access that is not admitted is refused (R110, log 12). -/
def refusalOf (p : Platform) (addr : Nat) : Refusal :=
  if inWindow p addr then .accessNotAdmitted else .outsideWindow

end Sys2Proof.Machine
end

