-- ==== Sys2Proof/Machine/Ops.lean ====
section
/-! DEFINITION. The shared operations: memory (R51 to R53), which addresses an access reaches (R69), success
and error completion (R185, R186: the block's exception entry), START (R113), the handle check (R117, R118),
and reset (R200 to R202). The block has no return from an error: the next START clears it (R189). -/

namespace Sys2Proof.Machine

/-- The outcome of a step of this machine. -/
abbrev Result := Host.Outcome State Fault Refusal

/-! ### Memory -/

/-- What an address that memory does not list reads as (log 3). -/
def memDefault : Byte := 0

/-- The byte at an address (R52). -/
def Memory.read : Memory → Nat → Byte
  | [], _ => memDefault
  | (b, u) :: m, a => if a = b then u else Memory.read m a

/-- Memory with the byte v at address a, in canonical form (R53: the write changes that byte only). -/
def Memory.write : Memory → Nat → Byte → Memory
  | [], a, v => if v = memDefault then [] else [(a, v)]
  | (b, u) :: m, a, v =>
    if a < b then (if v = memDefault then (b, u) :: m else (a, v) :: (b, u) :: m)
    else if a = b then (if v = memDefault then m else (b, v) :: m)
    else (b, u) :: Memory.write m a v

/-- The canonical form from address `lo` on: addresses rising and below 2^32, no byte at its default. -/
def Memory.wfFrom : Nat → Memory → Bool
  | _, [] => true
  | lo, (a, v) :: m => decide (lo ≤ a) && decide (a < Config.memBytes) && decide (v ≠ memDefault) && Memory.wfFrom (a + 1) m

/-- The canonical form (log 3). -/
def Memory.wf (m : Memory) : Bool := Memory.wfFrom 0 m

/-- Memory with the bytes written at rising addresses from `a` on. -/
def Memory.writeAll : Memory → Nat → List Byte → Memory
  | m, _, [] => m
  | m, a, v :: vs => Memory.writeAll (Memory.write m a v) (a + 1) vs

/-- The n bytes from address `a` on. -/
def Memory.slice (m : Memory) (a : Nat) : Nat → List Byte
  | 0 => []
  | n + 1 => Memory.read m a :: Memory.slice m (a + 1) n

/-- Memory with n free bytes from `base` on, taken from the free values from index `t` on (R201, R205). -/
def Memory.scramble (m : Memory) (base t : Nat) : Nat → Memory
  | 0 => m
  | n + 1 => Memory.write (Memory.scramble m base t n) (base + n) (Config.freeByte (t + n))

/-- Memory with a free byte at each of the addresses, taken from the free values from index `t` on (R205, log 9). -/
def Memory.scatter (m : Memory) (t : Nat) : List Nat → Memory
  | [] => m
  | a :: as => Memory.write (Memory.scatter m (t + 1) as) a (Config.freeByte t)

/-! ### Which addresses an access reaches -/

/-- What stands at an engine memory address. -/
inductive AddressKind where
  /-- Ordinary memory (R58). -/
  | ordinary
  /-- Not backed by the platform (R69). -/
  | unbacked
  /-- A device (R58, 93 U15). -/
  | device
  /-- Past the end of the space (R51). -/
  | absent
  deriving DecidableEq, Repr

/-- The address lies in one of the regions. -/
def inSome (rs : List Region) (a : Nat) : Bool := rs.any fun g => decide (g.base ≤ a ∧ a < g.base + g.len)

/-- What stands at an address on this platform (R51, R58, R69). -/
def addressKind (p : Platform) (a : Nat) : AddressKind :=
  if Config.memBytes ≤ a then .absent
  else if inSome p.unbacked a then .unbacked
  else if inSome p.devices a then .device
  else .ordinary

/-- One engine access to address a, whose effect on ordinary memory is `t` (R52, R53). At an unbacked address
the engine is stuck (R69); a device is outside the contract (R58). -/
def engineAccess (a : Nat) (s t : State) : Result :=
  match addressKind s.platform a with
  | .ordinary => .next t
  | .unbacked => .fault .stuckUnbacked
  | .device => .refused .deviceRegion
  | .absent => .fault .addressOutOfSpace

/-! ### Engine registers -/

/-- The engine goes on at a point of the pseudocode. -/
def State.goto (p : Point) (s : State) : State := { s with eng := { s.eng with pt := p } }

/-- The engine between commands: idle, and every other register of R31 at a free value taken from index t on
(R31, R200, 93 U11; log 8). -/
def Eng.unspecified (t : Nat) : Eng :=
  { phase := .idle, pt := .handleCheck,
    op := Config.freeBit t, sv := Config.freeBit (t + 1), dv := Config.freeBit (t + 2),
    sb := Config.freeWord t, sl := Config.freeWord (t + 1), db := Config.freeWord (t + 2),
    dc := Config.freeWord (t + 3), r := Config.freeWord (t + 4), w := Config.freeWord (t + 5),
    lit := Config.freeByte t, len := Config.freeByte (t + 1), k := Config.freeByte (t + 2) }

/-- How far `Eng.unspecified` moves the index of the next free value. -/
def engFreeValues : Nat := 6

/-! ### Completion -/

/-- Success completion `complete(len)`, one atomic update (R185). -/
def State.complete (len : Word) (s : State) : State :=
  { s with
    resultLen := len, errPos := 0, status := flagsComplete,
    eng := Eng.unspecified s.fresh, fresh := s.fresh + engFreeValues }

/-- Error completion `raise E(pos)`, one atomic update: the block's exception entry (R186). -/
def State.raise (e : ErrorKind) (pos : Word) (s : State) : State :=
  { s with
    resultLen := 0, errPos := pos, status := flagsError e,
    eng := Eng.unspecified s.fresh, fresh := s.fresh + engFreeValues }

/-! ### START and the handle check -/

/-- START of a command with OP, SRC_VALID and DST_VALID from the written word: latches the parameters, sets
BUSY, clears the last results, and leaves the engine at the handle check (R113). No byte is raced yet (R205). -/
def State.start (op sv dv : Bool) (s : State) : State :=
  { s with
    ctrl := { op := op, srcValid := sv, dstValid := dv },
    status := flagsStarted, resultLen := 0, errPos := 0, racedBytes := [],
    eng := { s.eng with
      phase := .running, pt := .handleCheck, op := op, sv := sv, dv := dv,
      sb := s.srcBase, sl := s.srcLen, db := s.dstBase, dc := s.dstCap } }

/-- The test at the head of a command's loop, made at the end of the step before it (R130, R150, R151): the
loop goes on at `head` while `eng.r < eng.sl`, else `complete(eng.w)`. -/
def State.loopTest (head : Point) (s : State) : State :=
  if s.eng.r.toNat < s.eng.sl.toNat then s.goto head else s.complete s.eng.w

/-- The loop a command runs (R120). -/
def loopHead (op : Bool) : Point := if op then .decFetch else .encLoad

/-- Entry to the loop: both cursors 0, then the loop test, so that an empty source completes with length 0 in
the handle-check step (R120, R130, R150). -/
def State.enterLoop (s : State) : State :=
  State.loopTest (loopHead s.eng.op) { s with eng := { s.eng with r := 0, w := 0 } }

/-- The first engine step of every command; it makes no memory access (R117, R118, R120). -/
def stepHandleCheck (s : State) : Result :=
  .next (if handlesOk s.eng then s.enterLoop else s.raise .invalidHandle 0)

/-! ### Reset -/

/-- The region an abandoned command could write, as base and length: nothing unless a command runs whose
handles are valid (R201, log 10). -/
def State.abandoned (s : State) : Nat × Nat :=
  if s.eng.phase = .running ∧ handlesOk s.eng then
    (s.eng.outputBase.toNat, s.eng.outputLen.toNat)
  else (0, 0)

/-- Reset as an event: the eight registers 0, the engine idle, its other registers free (R200). A running
command is abandoned and the bytes it could write become free; memory is otherwise unchanged (R201, R202). -/
def State.resetEvent (s : State) : State :=
  { s with
    ctrl := { op := false, srcValid := false, dstValid := false }, status := flagsReset,
    srcBase := 0, srcLen := 0, dstBase := 0, dstCap := 0, resultLen := 0, errPos := 0,
    mem := Memory.scramble s.mem s.abandoned.1 s.fresh s.abandoned.2,
    eng := Eng.unspecified (s.fresh + s.abandoned.2),
    fresh := s.fresh + s.abandoned.2 + engFreeValues, racedBytes := [] }

end Sys2Proof.Machine
end

