-- ==== Sys2Proof/Machine/Commands.lean ====
section
/-! DEFINITION. The meanings of the three command words: each is one atomic host step, the CTRL write (R113,
R114), and each is ignored while BUSY = 1 (R115). The steps of the command that a START begins are the
engine's (Machine/Engine.lean; log 14). -/

namespace Sys2Proof.Machine

/-- A CTRL write takes effect only while STATUS.BUSY = 0 (R115). -/
def whenIdle (s t : State) : Result := if s.status.busy then .next s else .next t

/-- ENCODE: START with OP = 0 (R91, R113). -/
def execEncode (srcValid dstValid : Bool) (s : State) : Result :=
  whenIdle s (s.start false srcValid dstValid)

/-- DECODE: START with OP = 1 (R91, R113). -/
def execDecode (srcValid dstValid : Bool) (s : State) : Result :=
  whenIdle s (s.start true srcValid dstValid)

/-- CTRL_SET: stores OP, SRC_VALID and DST_VALID and starts nothing (R114). -/
def execCtrlSet (op srcValid dstValid : Bool) (s : State) : Result :=
  whenIdle s { s with ctrl := { op := op, srcValid := srcValid, dstValid := dstValid } }

end Sys2Proof.Machine
end

