-- ==== Sys2Proof/Machine/Tokens.lean ====
section
/-! DEFINITION. The meanings of the two tokens. A token runs over several engine steps, one memory access
each (R52, R53, R150): its meaning is its next step, told by the engine's point, from the read of its first
byte to its last write. The checks after an access are made at the end of that access's step (R151, R184;
log 14). -/

namespace Sys2Proof.Machine

/-- The address of the token's byte at offset i (R150, R153). -/
def tokenAddress (s : State) (i : Nat) : Nat := addressOf s.eng.sb (s.eng.r.toNat + i)

/-- The address of the next destination write (R152, R153). -/
def writeAddress (s : State) : Nat := addressOf s.eng.db s.eng.w.toNat

/-- The capacity check before a destination write, made at the end of the step before it: a full destination
raises DestinationOverflow at the token's offset, else the write is the next step (R154, R184). -/
def State.checkCapacity (p : Point) (s : State) : State :=
  if s.eng.w.toNat < s.eng.dc.toNat then s.goto p else s.raise .destinationOverflow s.eng.r

/-- A destination write of v at the write cursor, which moves on by 1 (R152, R153). -/
def State.emit (v : Byte) (s : State) : State :=
  { s with mem := Memory.write s.mem (writeAddress s) v, eng := { s.eng with w := advance s.eng.w 1 } }

/-- The end of a token of n bytes: the read cursor moves on and the loop is tested (R150, R151, R157). -/
def State.endToken (n : Nat) (s : State) : State :=
  State.loopTest .decFetch { s with eng := { s.eng with r := advance s.eng.r n } }

/-- The read of a LIT's byte, then the capacity check (R150, R152). -/
def fetchLit (b : Byte) (s : State) : Result :=
  engineAccess (tokenAddress s 0) s (State.checkCapacity .decLit { s with eng := { s.eng with lit := b } })

/-- The write of a LIT, which ends the token (R152). -/
def writeLit (b : Byte) (s : State) : Result :=
  engineAccess (writeAddress s) s ((s.emit b).endToken 1)

/-- The read of a run header: with no length byte after it the stream is malformed (R153, R155). -/
def fetchHeader (b : Byte) (s : State) : Result :=
  engineAccess (tokenAddress s 0) s <|
    if s.eng.r.toNat + 1 < s.eng.sl.toNat then State.goto .decLength { s with eng := { s.eng with lit := b } }
    else State.raise .malformedStream s.eng.r { s with eng := { s.eng with lit := b } }

/-- The read of a length byte: below 2 the stream is malformed; else the first write is checked (R153, R156). -/
def fetchLength (n : Byte) (s : State) : Result :=
  engineAccess (tokenAddress s 1) s <|
    if n.toNat < Config.minRunToken then State.raise .malformedStream s.eng.r { s with eng := { s.eng with len := n } }
    else State.checkCapacity .decRun { s with eng := { s.eng with len := n, k := 0 } }

/-- After one write of a RUN: the repeat counter moves on; more writes are checked for capacity, the last one
ends the token (R153, R154). The last write moves the counter on too, to n: R153 states no value of eng.k after its
loop, and no rule reads it (log 26). -/
def State.nextCopy (n : Byte) (s : State) : State :=
  if s.eng.k.toNat + 1 < n.toNat then State.checkCapacity .decRun { s with eng := { s.eng with k := s.eng.k + 1 } }
  else State.endToken 2 { s with eng := { s.eng with k := s.eng.k + 1 } }

/-- One write of a RUN (R153). -/
def writeCopy (v : Byte) (n : Byte) (s : State) : Result :=
  engineAccess (writeAddress s) s ((s.emit v).nextCopy n)

/-- LIT v (R152): the read of its byte, then its write. Elsewhere the token has no meaning (log 19). -/
def execLit (v : Literal) (s : State) : Result :=
  match s.eng.phase, s.eng.pt with
  | .running, .decFetch => fetchLit (literalByte v) s
  | .running, .decLit => writeLit (literalByte v) s
  | _, _ => .refused .notAtToken

/-- RUN v, n (R153): the read of its header, the read of its length byte, then n writes of v. Elsewhere the
token has no meaning (log 19). -/
def execRun (v : Literal) (n : Byte) (s : State) : Result :=
  match s.eng.phase, s.eng.pt with
  | .running, .decFetch => fetchHeader (headerByte v) s
  | .running, .decLength => fetchLength n s
  | .running, .decRun => writeCopy (literalByte v) n s
  | _, _ => .refused .notAtToken

end Sys2Proof.Machine
end

