-- ==== Sys2Proof/Machine/Dispatch.lean ====
section
/-! DEFINITION. One arm per instruction, each one call of its meaning. -/

namespace Sys2Proof.Machine

def exec (i : Instr) (s : State) : Host.Outcome State Fault Refusal :=
  match i with
  | .encode srcValid dstValid => Sys2Proof.Machine.execEncode srcValid dstValid s
  | .decode srcValid dstValid => Sys2Proof.Machine.execDecode srcValid dstValid s
  | .ctrlSet op srcValid dstValid => Sys2Proof.Machine.execCtrlSet op srcValid dstValid s
  | .lit v => Sys2Proof.Machine.execLit v s
  | .run v n => Sys2Proof.Machine.execRun v n s

end Sys2Proof.Machine
end

