-- ==== Sys2Proof/Machine/Codec.lean ====
section
/-! DEFINITION. The functional forms of the two commands: `Enc` (R133), `Dec` (R159), and what a DECODE with a
bounded destination gives by the three cases of R159. No step uses them; statements compare the machine with
them. -/

namespace Sys2Proof.Machine

/-- Every byte is a literal: a valid input of ENCODE (R88, 43_codec_properties). -/
def validInput (xs : List Byte) : Bool := xs.all fun c => !tagOf c

/-- How many bytes at the front of the list equal v. -/
def leading (v : Byte) : List Byte → Nat
  | [] => 0
  | x :: xs => if x = v then leading v xs + 1 else 0

/-- The first chunk's length: the largest l up to 255 for which the first l bytes are equal (R131, R133). -/
def chunkLength : List Byte → Nat
  | [] => 0
  | v :: xs => min Config.maxRun (leading v xs + 1)

/-- The token of a run of L bytes of value v (R132, R133). -/
def chunkToken (v : Byte) (L : Nat) : List Byte :=
  if L = 1 then [v] else [v ||| 0x80#8, BitVec.ofNat 8 L]

/-- `Enc` with fuel: one chunk for each unit. -/
def encFuel : Nat → List Byte → List Byte
  | 0, _ => []
  | _ + 1, [] => []
  | f + 1, v :: xs => chunkToken v (chunkLength (v :: xs)) ++ encFuel f ((v :: xs).drop (chunkLength (v :: xs)))

/-- `Enc` of R133; a list of N bytes has at most N chunks. -/
def Enc (xs : List Byte) : List Byte := encFuel xs.length xs

/-- The lengths of the chunks of an input, with fuel as `encFuel` (R131). -/
def chunkLengthsFuel : Nat → List Byte → List Nat
  | 0, _ => []
  | _ + 1, [] => []
  | f + 1, v :: xs => chunkLength (v :: xs) :: chunkLengthsFuel f ((v :: xs).drop (chunkLength (v :: xs)))

/-- The lengths of the chunks of an input (R170, R175). -/
def chunkLengths (xs : List Byte) : List Nat := chunkLengthsFuel xs.length xs

/-- The tokens of a stream, with fuel for one token each; none where a byte sequence is no token (R83). -/
def tokensOf : Nat → List Byte → Option (List Instr)
  | _, [] => some []
  | 0, _ :: _ => none
  | f + 1, b :: bs =>
    match decodeToken (b :: bs) with
    | .ok i rest => (tokensOf f rest).map (i :: ·)
    | .error _ => none

/-- The bytes of a list of tokens laid end to end (R83). -/
def tokenBytesOf (is : List Instr) : List Byte :=
  is.flatMap fun i =>
    match encode i with
    | .token bytes => bytes
    | .command _ => []

/-- The literal value of a token (R84). -/
def tokenValue : Instr → Option Literal
  | .lit v => some v
  | .run v _ => some v
  | .encode _ _ => none
  | .decode _ _ => none
  | .ctrlSet _ _ _ => none

/-- The result of `Dec`: the bytes, or an error kind and the offset of its token (R159). -/
inductive DecResult where
  | ok (ys : List Byte)
  | err (e : ErrorKind) (p : Nat)
  deriving DecidableEq, Repr

/-- The result of a stream whose first token takes l bytes and gives `out` (R159). -/
def DecResult.after (out : List Byte) (l : Nat) : DecResult → DecResult
  | .ok ys => .ok (out ++ ys)
  | .err e p => .err e (p + l)

/-- `Dec` of R159. -/
def Dec : List Byte → DecResult
  | [] => .ok []
  | [b] => if tagOf b then .err .malformedStream 0 else .ok [b]
  | b :: n :: T =>
    if tagOf b then
      if n.toNat < Config.minRunToken then .err .malformedStream 0
      else (Dec T).after (List.replicate n.toNat (b &&& 0x7F#8)) 2
    else (Dec (n :: T)).after [b] 1

/-- The offset of the token that holds output byte number c, counting from 0 (R159). -/
def tokenHolding : Nat → List Byte → Nat
  | _, [] => 0
  | _, [_] => 0
  | c, b :: n :: T =>
    if tagOf b then
      if c < n.toNat then 0 else tokenHolding (c - n.toNat) T + 2
    else if c = 0 then 0 else tokenHolding (c - 1) (n :: T) + 1

/-- How a command ended: the error kind if any, RESULT_LEN, ERR_POS, and the bytes written at the start of the
output region. -/
structure Ending where
  err : Option ErrorKind
  resultLen : Nat
  errPos : Nat
  written : List Byte
  deriving DecidableEq, Repr

/-- Output ys into a capacity of cap bytes when the stream goes on to end with `fits` if they fit (R159). -/
def boundedEnding (T : List Byte) (cap : Nat) (ys : List Byte) (fits : Ending) : Ending :=
  if ys.length ≤ cap then fits
  else { err := some .destinationOverflow, resultLen := 0, errPos := tokenHolding cap T, written := ys.take cap }

/-- What DECODE of the stream T with capacity cap gives: the three cases of R159. -/
def decodeEnding (T : List Byte) (cap : Nat) : Ending :=
  match Dec T with
  | .ok ys => boundedEnding T cap ys { err := none, resultLen := ys.length, errPos := 0, written := ys }
  | .err e t =>
    match Dec (T.take t) with
    | .ok ys => boundedEnding T cap ys { err := some e, resultLen := 0, errPos := t, written := ys }
    | .err _ _ => { err := some e, resultLen := 0, errPos := t, written := [] }

/-- The offset of the first byte of xs that is out of range, or the length if there is none (R135). -/
def firstOutOfRange : List Byte → Nat
  | [] => 0
  | c :: xs => if tagOf c then 0 else firstOutOfRange xs + 1

/-- What ENCODE of the source bytes xs gives: success with `Enc`, or OutOfRangeLiteral at the first byte out of
range with the valid prefix's tokens written (R133, R135). -/
def encodeEnding (xs : List Byte) : Ending :=
  if validInput xs then { err := none, resultLen := (Enc xs).length, errPos := 0, written := Enc xs }
  else
    { err := some .outOfRangeLiteral, resultLen := 0, errPos := firstOutOfRange xs,
      written := Enc (xs.take (firstOutOfRange xs)) }

end Sys2Proof.Machine
end

