-- ==== Sys2Proof/Machine/Encoder.lean ====
section
/-! DEFINITION. The engine steps of ENCODE, one memory access each (R130 to R132). The tests after an access
are made at the end of that access's step. -/

namespace Sys2Proof.Machine

/-- The address of the source byte at offset i (R130). -/
def sourceAddress (s : State) (i : Nat) : Nat := addressOf s.eng.sb i

/-- The scan's end: the read cursor moves past the run, and the token of the run's length is written next
(R131, R132). -/
def State.endScan (s : State) : State :=
  { s with eng := { s.eng with
      r := advance s.eng.r s.eng.len.toNat,
      pt := if s.eng.len = 1 then .encLit else .encHeader } }

/-- The tests of the inner loop's condition that come before its read: the end of the source and the cap of
255, so that nothing past a full run is read (R130, R131). -/
def State.scanTest (s : State) : State :=
  if s.eng.r.toNat + s.eng.len.toNat < s.eng.sl.toNat ∧ s.eng.len.toNat < Config.maxRun then s.goto .encPeek
  else s.endScan

/-- The read of a run's first byte: out of range it raises OutOfRangeLiteral at its offset (R130, R182); else
it is a run of length 1, and the scan goes on. -/
def stepEncLoad (s : State) : Result :=
  engineAccess (sourceAddress s s.eng.r.toNat) s <|
    let c := s.mem.read (sourceAddress s s.eng.r.toNat)
    if c.getLsbD 7 then State.raise .outOfRangeLiteral s.eng.r { s with eng := { s.eng with lit := c } }
    else State.scanTest { s with eng := { s.eng with lit := c, len := 1 } }

/-- The read of the byte after the run so far: an equal byte extends the run, any other ends it (R130, R131). -/
def stepEncPeek (s : State) : Result :=
  engineAccess (sourceAddress s (s.eng.r.toNat + s.eng.len.toNat)) s <|
    if s.mem.read (sourceAddress s (s.eng.r.toNat + s.eng.len.toNat)) = s.eng.lit then
      State.scanTest { s with eng := { s.eng with len := s.eng.len + 1 } }
    else s.endScan

/-- The write of a literal token, which ends the iteration (R132). -/
def stepEncLit (s : State) : Result :=
  engineAccess (sourceAddress s s.eng.w.toNat) s <|
    State.loopTest .encLoad { s with
      mem := s.mem.write (sourceAddress s s.eng.w.toNat) s.eng.lit, eng := { s.eng with w := advance s.eng.w 1 } }

/-- The write of a run header (R132). -/
def stepEncHeader (s : State) : Result :=
  engineAccess (sourceAddress s s.eng.w.toNat) s <|
    State.goto .encLength { s with mem := s.mem.write (sourceAddress s s.eng.w.toNat) (s.eng.lit ||| 0x80#8) }

/-- The write of a length byte, which ends the iteration (R132). -/
def stepEncLength (s : State) : Result :=
  engineAccess (sourceAddress s (s.eng.w.toNat + 1)) s <|
    State.loopTest .encLoad { s with
      mem := s.mem.write (sourceAddress s (s.eng.w.toNat + 1)) s.eng.len, eng := { s.eng with w := advance s.eng.w 2 } }

end Sys2Proof.Machine
end

