-- ==== Sys2Proof/Machine/Race.lean ====
section
/-! DEFINITION. The memory access of the engine's next step (R52, R53, R136, R161), and the race rule of R205: what
another agent's write to a region of the running command does to the byte, to the engine's reads of it, and to the
command's end (log 9). Without such a write nothing here changes a step. -/

namespace Sys2Proof.Machine

/-- A memory access: a read or a write of one byte (R57). -/
inductive Access where
  | read (a : Nat)
  | write (a : Nat)
  deriving DecidableEq, Repr

/-- The access the engine's next step makes; the handle check makes none, and an idle engine none (R117, R118,
R130, R152, R153, R197). -/
def nextAccess (s : State) : Option Access :=
  match s.eng.phase with
  | .idle => none
  | .running =>
    match s.eng.pt with
    | .handleCheck => none
    | .encLoad => some (.read (sourceAddress s s.eng.r.toNat))
    | .encPeek => some (.read (sourceAddress s (s.eng.r.toNat + s.eng.len.toNat)))
    | .encLit => some (.write (sourceAddress s s.eng.w.toNat))
    | .encHeader => some (.write (sourceAddress s s.eng.w.toNat))
    | .encLength => some (.write (sourceAddress s (s.eng.w.toNat + 1)))
    | .decFetch => some (.read (tokenAddress s 0))
    | .decLit => some (.write (writeAddress s))
    | .decLength => some (.read (tokenAddress s 1))
    | .decRun => some (.write (writeAddress s))

/-- The byte at an address takes a free value (R205). -/
def State.freeAt (a : Nat) (s : State) : State :=
  { s with mem := Memory.write s.mem a (Config.freeByte s.fresh), fresh := s.fresh + 1 }

/-- Another agent's write to a byte of the running command's regions: the byte holds any value, and the race is
noted (R205). -/
def State.noteRace (a : Nat) (s : State) : State :=
  { s.freeAt a with racedBytes := s.racedBytes.insert a }

/-- Before the engine's step: a raced byte that the step reads takes a free value anew, so that every read of it gives
any value (R52, R205). -/
def State.redraw (s : State) : State :=
  match nextAccess s with
  | some (.read a) => if a ∈ s.racedBytes then s.freeAt a else s
  | _ => s

/-- n free bytes, taken from the free values from index t on. -/
def freeBytes (t : Nat) : Nat → List Byte
  | 0 => []
  | n + 1 => Config.freeByte t :: freeBytes (t + 1) n

/-- How the latched command ends on the source bytes xs, by the rules of 41_encoder and 42_decoder (R133, R135, R159). -/
def Eng.endingOn (e : Eng) (xs : List Byte) : Ending := if e.op then decodeEnding xs e.dc.toNat else encodeEnding xs

/-- The registers and memory after a raced command e whose last step left t (R205, log 9): the flags, RESULT_LEN and
ERR_POS are those the rules give for a source of free bytes, and every byte of the region e could write, and every raced
byte, holds any value (93 U8). A command that fails its handle check reads no input and writes nothing, and ends as it
does without a race (R68). -/
def State.raceEnd (e : Eng) (t : State) : State :=
  if handlesOk e then
    let n := e.endingOn (freeBytes t.fresh e.sl.toNat)
    let output := t.fresh + e.sl.toNat
    let rest := output + e.outputLen.toNat
    { t with
      status := { busy := false, done := true, err := n.err },
      resultLen := BitVec.ofNat 32 n.resultLen, errPos := BitVec.ofNat 32 n.errPos,
      mem := Memory.scatter (Memory.scramble t.mem e.outputBase.toNat output e.outputLen.toNat) rest t.racedBytes,
      fresh := rest + t.racedBytes.length, racedBytes := [] }
  else { t with racedBytes := [] }

/-- After the engine's step from s: a raced command that has ended takes its end anew (R205). -/
def settleRace (s : State) (o : Result) : Result :=
  match s.racedBytes, o with
  | _ :: _, .next t =>
    match t.eng.phase with
    | .running => .next t
    | .idle => .next (t.raceEnd s.eng)
  | _, o => o

end Sys2Proof.Machine
end

