-- ==== Sys2Proof/Machine/Engine.lean ====
section
/-! DEFINITION. One step of the engine (R11, R61): the handle check, a step of ENCODE, or a step of the token
the DECODE stands at, which is decoded from its bytes and run by `exec` (R150). -/

namespace Sys2Proof.Machine

/-- The bytes of the current token as the engine has them: at its start, the stream at the read cursor; later,
the latched first byte, with the length byte from the stream until it too is latched (R150, R153; log 18). -/
def tokenBytes (s : State) : List Byte :=
  match s.eng.pt with
  | .decFetch =>
    s.mem.read (tokenAddress s 0) ::
      (if s.eng.r.toNat + 1 < s.eng.sl.toNat then [s.mem.read (tokenAddress s 1)] else [])
  | .decLength => [s.eng.lit, s.mem.read (tokenAddress s 1)]
  | .decRun => [s.eng.lit, s.eng.len]
  | _ => [s.eng.lit]

/-- The next step of the current token. A header with no length byte after it has no RUN to run: its read
raises MalformedStream (R155). -/
def stepToken (s : State) : Result :=
  match decode (.token (tokenBytes s)) with
  | .ok i _ => exec i s
  | .error .truncatedRun => fetchHeader (s.mem.read (tokenAddress s 0)) s
  | .error .emptyStream => .refused .notAtToken

/-- One step of the running command (R117, R118, R130, R150). -/
def engineStep (s : State) : Result :=
  match s.eng.pt with
  | .handleCheck => stepHandleCheck s
  | .encLoad => stepEncLoad s
  | .encPeek => stepEncPeek s
  | .encLit => stepEncLit s
  | .encHeader => stepEncHeader s
  | .encLength => stepEncLength s
  | .decFetch => stepToken s
  | .decLit => stepToken s
  | .decLength => stepToken s
  | .decRun => stepToken s

/-- The engine's turn: it takes steps only while eng.phase = RUNNING (R32); idle, it does nothing (R197). A byte it
reads that another agent has written takes a free value first, and the end of a raced command is redrawn (R205). -/
def engineTurn (s : State) : Result :=
  match s.eng.phase with
  | .running => settleRace s (engineStep s.redraw)
  | .idle => .next s

/-- A turn given to the engine while other turns wait. A stuck engine has no step (R69): its turn passes, and
the host may still move (log 6). -/
def scheduledEngineTurn (s : State) : Result :=
  match engineTurn s with
  | .fault .stuckUnbacked => .next s
  | o => o

end Sys2Proof.Machine
end

