-- ==== Sys2Proof/Machine/HostPort.lean ====
section
/-! DEFINITION. The host's side: register reads and writes (R110 to R115), accesses to the engine memory space
(R51, R205), POLL (R94) and the reset input (R200), each one atomic step (R57). -/

namespace Sys2Proof.Machine

/-- The value a read of a register returns (R23 to R30, R111). -/
def readReg (g : Reg) (s : State) : Word :=
  match g with
  | .ctrl => s.ctrl.toWord
  | .status => s.status.toWord
  | .srcBase => s.srcBase
  | .srcLen => s.srcLen
  | .dstBase => s.dstBase
  | .dstCap => s.dstCap
  | .resultLen => s.resultLen
  | .errPos => s.errPos

/-- A write to a register other than CTRL while idle: the parameters take all 32 bits, the read-only registers
ignore it (R112). -/
def setReg (g : Reg) (d : Word) (s : State) : State :=
  match g with
  | .srcBase => { s with srcBase := d }
  | .srcLen => { s with srcLen := d }
  | .dstBase => { s with dstBase := d }
  | .dstCap => { s with dstCap := d }
  | .ctrl => s
  | .status => s
  | .resultLen => s
  | .errPos => s

/-- A write of d to a register: a CTRL write runs the command word (R91), any other takes effect only while
idle (R112, R115). -/
def writeReg (g : Reg) (d : Word) (s : State) : Result :=
  if g = .ctrl then exec (decodeCommand d) s
  else if s.status.busy then .next s
  else .next (setReg g d s)

/-- A host register read: the value goes to the host's bus, nothing else changes (R58, R111). -/
def hostRead (addr width : Nat) (s : State) : Result :=
  match admission s.platform addr width with
  | some g => .next { s with bus := readReg g s }
  | none => .refused (refusalOf s.platform addr)

/-- A host register write (R110, R112 to R115). -/
def hostWrite (addr width : Nat) (d : Word) (s : State) : Result :=
  match admission s.platform addr width with
  | some g => writeReg g d s
  | none => .refused (refusalOf s.platform addr)

/-- POLL: reads STATUS, and again, with an engine turn between, until BUSY = 0 (R94; log 1). -/
def hostPoll (s : State) : Result :=
  .next { s with
    bus := s.status.toWord,
    inputs := if s.status.busy then .engine :: .host .poll :: s.inputs else s.inputs }

/-- An access of another agent to the engine memory space (R51); the platform's own answer at an unbacked
address or a device is not the block's (log 12). -/
def foreignAccess (a : Word) (s : State) (o : Result) : Result :=
  match addressKind s.platform a.toNat with
  | .ordinary => o
  | .unbacked => .refused .hostUnbacked
  | .device => .refused .deviceRegion
  | .absent => .fault .addressOutOfSpace

/-- The address belongs to a region of the command that runs now (R205). -/
def raced (a : Word) (s : State) : Bool := s.status.busy && commandRegion s.eng a.toNat

/-- A read by the host or another bus master: in a running command's region any value (R205, R206), else the
byte in memory (R63). -/
def hostMemRead (a : Word) (s : State) : Result :=
  foreignAccess a s <|
    if raced a s then .next { s with bus := (Config.freeByte s.fresh).zeroExtend 32, fresh := s.fresh + 1 }
    else .next { s with bus := (s.mem.read a.toNat).zeroExtend 32 }

/-- A write by the host or another bus master: in a running command's region a race, after which the byte holds any
value (R205, log 9), else the byte in memory (R62). -/
def hostMemWrite (a : Word) (v : Byte) (s : State) : Result :=
  foreignAccess a s <|
    if raced a s then .next (s.noteRace a.toNat) else .next { s with mem := s.mem.write a.toNat v }

/-- One host operation. -/
def hostStep (op : HostOp) (s : State) : Result :=
  match op with
  | .read addr width => hostRead addr width s
  | .write addr width d => hostWrite addr width d s
  | .poll => hostPoll s
  | .memRead a => hostMemRead a s
  | .memWrite a v => hostMemWrite a v s
  | .reset => .next s.resetEvent

/-! ### Programs of host operations (R94, R95) -/

/-- `WR reg, value` (R94). -/
def wr (p : Platform) (g : Reg) (d : Word) : Turn := .host (.write (p.regBase + g.offset) Config.hostWidth d)

/-- `RD reg` (R94). -/
def rd (p : Platform) (g : Reg) : Turn := .host (.read (p.regBase + g.offset) Config.hostWidth)

/-- `MEM addr: bytes` as host writes (R94, R204). Past the last address, 0xFFFF_FFFF, the bytes go on at address 0:
the spec gives such a line no meaning, and this is the model's choice (log 25). -/
def memBytesAt : Word → List Byte → List Turn
  | _, [] => []
  | a, v :: vs => .host (.memWrite a v) :: memBytesAt (a + 1) vs

/-- The pseudo-instruction `ENCODE sb, sl` (R95). -/
def encodeProgram (p : Platform) (sb sl : Word) : List Turn :=
  [wr p .srcBase sb, wr p .srcLen sl, wr p .ctrl 0x5, .host .poll]

/-- The pseudo-instruction `DECODE sb, sl, db, dc` (R95). -/
def decodeProgram (p : Platform) (sb sl db dc : Word) : List Turn :=
  [wr p .srcBase sb, wr p .srcLen sl, wr p .dstBase db, wr p .dstCap dc, wr p .ctrl 0xF, .host .poll]

end Sys2Proof.Machine
end

