-- ==== Sys2Proof/Machine/Schedule.lean ====
section
/-! DEFINITION. One step of the machine from its state alone: whose turn it is, and placing an instruction where
the machine takes its next one from (log 1, log 16). -/

namespace Sys2Proof.Machine

/-- The oldest waiting turn moves; with none waiting, the engine does (R11, log 1). -/
def turnStep (s : State) : Result :=
  match s.inputs with
  | [] => engineTurn s
  | .engine :: rest => scheduledEngineTurn { s with inputs := rest }
  | .host op :: rest => hostStep op { s with inputs := rest }

/-- Where a token is placed for its first step. -/
def placeSource : Word := 0x1000

/-- Where a placed token expands to. -/
def placeDest : Word := 0x2000

/-- The capacity a placed token expands into: enough for any token. -/
def placeCap : Word := 255

/-- A token's stream as the source of a DECODE that has passed its handle check, on a platform that backs
every address. -/
def placeToken (bytes : List Byte) (s : State) : State :=
  let s := { s with
    srcBase := placeSource, srcLen := BitVec.ofNat 32 bytes.length, dstBase := placeDest, dstCap := placeCap,
    mem := Memory.writeAll s.mem placeSource.toNat bytes,
    platform := { s.platform with unbacked := [], devices := [] },
    inputs := .engine :: s.inputs }
  (s.start true true true).enterLoop

/-- The state whose next step runs the instruction: a command word is the host's next write to CTRL, a token
stands at the read cursor of a running DECODE (log 16). -/
def placeCode (c : Code) (s : State) : State :=
  match c with
  | .command d => { s with inputs := wr s.platform .ctrl d :: s.inputs }
  | .token bytes => placeToken bytes s

end Sys2Proof.Machine
end

