-- ==== Sys2Proof/Machine/Step.lean ====
section
/-! DEFINITION. The step of the machine, and placing an instruction for the next step. -/

namespace Sys2Proof.Machine

/-- One step: one host operation or one engine step (R11, D15). -/
def step (s : State) : Host.Outcome State Fault Refusal := turnStep s

/-- s with the instruction of an opcode-table word placed where the next step takes it from (log 15, log 16). -/
def State.withFetchWord (s : State) (nbits w : Nat) : State := placeCode (tableCode nbits w) s

end Sys2Proof.Machine
end

