-- ==== Sys2Proof/Safety.lean ====
section
/-! DEFINITION. The terms claims use: the invariant of the machine, when the engine moves, how a command ended, and
runs of several steps with their accesses (R136, R161). -/

namespace Sys2Proof.Machine

/-- The flags and the results agree (R24, R29, R30, R32): BUSY exactly while the engine runs, never with DONE;
no error and no result unless DONE; RESULT_LEN 0 with an error, ERR_POS 0 without one. -/
structure State.FlagsAgree (s : State) : Prop where
  busy_iff : s.status.busy = true ↔ s.eng.phase = .running
  not_busy_done : ¬ (s.status.busy = true ∧ s.status.done = true)
  err_done : s.status.err ≠ none → s.status.done = true
  err_len : s.status.err ≠ none → s.resultLen = 0
  noErr_pos : s.status.err = none → s.errPos = 0
  notDone_len : s.status.done = false → s.resultLen = 0

/-- While a command runs, the registers hold the parameters it latched (R111, R113, R115). -/
structure State.ParametersLatched (s : State) : Prop where
  ctrl : s.ctrl = { op := s.eng.op, srcValid := s.eng.sv, dstValid := s.eng.dv }
  srcBase : s.srcBase = s.eng.sb
  srcLen : s.srcLen = s.eng.sl
  dstBase : s.dstBase = s.eng.db
  dstCap : s.dstCap = s.eng.dc

/-- Where the cursors stand at each point of a command (R31, R131, R151, R154, R171). Past the handle check the
handles are valid (R116 to R118). -/
def Eng.CursorsAt (e : Eng) : Point → Prop
  | .handleCheck => True
  | .encLoad => e.op = false ∧ encodeHandlesOk e = true ∧ e.w.toNat ≤ e.r.toNat ∧ e.r.toNat < e.sl.toNat
  | .encPeek =>
    e.op = false ∧ encodeHandlesOk e = true ∧ e.w.toNat ≤ e.r.toNat ∧ e.r.toNat + e.len.toNat < e.sl.toNat ∧
      1 ≤ e.len.toNat ∧ e.len.toNat < Config.maxRun ∧ tagOf e.lit = false
  | .encLit =>
    e.op = false ∧ encodeHandlesOk e = true ∧ e.w.toNat < e.r.toNat ∧ e.r.toNat ≤ e.sl.toNat ∧ e.len = 1 ∧
      tagOf e.lit = false
  | .encHeader =>
    e.op = false ∧ encodeHandlesOk e = true ∧ e.w.toNat + 1 < e.r.toNat ∧ e.r.toNat ≤ e.sl.toNat ∧
      Config.minRunToken ≤ e.len.toNat ∧ tagOf e.lit = false
  | .encLength =>
    e.op = false ∧ encodeHandlesOk e = true ∧ e.w.toNat + 1 < e.r.toNat ∧ e.r.toNat ≤ e.sl.toNat ∧
      Config.minRunToken ≤ e.len.toNat ∧ tagOf e.lit = false
  | .decFetch => e.op = true ∧ decodeHandlesOk e = true ∧ e.r.toNat < e.sl.toNat ∧ e.w.toNat ≤ e.dc.toNat
  | .decLit =>
    e.op = true ∧ decodeHandlesOk e = true ∧ e.r.toNat < e.sl.toNat ∧ e.w.toNat < e.dc.toNat ∧ tagOf e.lit = false
  | .decLength =>
    e.op = true ∧ decodeHandlesOk e = true ∧ e.r.toNat + 1 < e.sl.toNat ∧ e.w.toNat ≤ e.dc.toNat ∧
      tagOf e.lit = true
  | .decRun =>
    e.op = true ∧ decodeHandlesOk e = true ∧ e.r.toNat + 1 < e.sl.toNat ∧ e.w.toNat < e.dc.toNat ∧
      tagOf e.lit = true ∧ Config.minRunToken ≤ e.len.toNat ∧ e.k.toNat < e.len.toNat

/-- The invariant of the machine: memory canonical, flags and results in agreement, and, while a command runs,
its parameters latched and its cursors in bounds; only bytes of a running command's regions are raced (R205). -/
structure State.Inv (s : State) : Prop where
  mem : s.mem.wf = true
  flags : s.FlagsAgree
  latched : s.eng.phase = .running → s.ParametersLatched
  cursors : s.eng.phase = .running → s.eng.CursorsAt s.eng.pt
  races : ∀ a ∈ s.racedBytes,
    s.eng.phase = .running ∧ a < Config.memBytes ∧ commandRegion s.eng a = true

/-- t differs from s in nothing an engine step leaves alone: the parameters' registers, the platform, the
waiting turns, the host's bus and the raced bytes (R115, R119). -/
structure SameOutside (s t : State) : Prop where
  ctrl : t.ctrl = s.ctrl
  srcBase : t.srcBase = s.srcBase
  srcLen : t.srcLen = s.srcLen
  dstBase : t.dstBase = s.dstBase
  dstCap : t.dstCap = s.dstCap
  platform : t.platform = s.platform
  inputs : t.inputs = s.inputs
  bus : t.bus = s.bus
  racedBytes : t.racedBytes = s.racedBytes

/-- From s the command ended in t with success and length len (R185). -/
structure Completed (s : State) (len : Word) (t : State) : Prop where
  status : t.status = { busy := false, done := true, err := none }
  resultLen : t.resultLen = len
  errPos : t.errPos = 0
  phase : t.eng.phase = .idle
  outside : SameOutside s t

/-- From s the command ended in t with the error e recorded at pos (R186). -/
structure Raised (s : State) (e : ErrorKind) (pos : Word) (t : State) : Prop where
  status : t.status = { busy := false, done := true, err := some e }
  resultLen : t.resultLen = 0
  errPos : t.errPos = pos
  phase : t.eng.phase = .idle
  outside : SameOutside s t

/-- Memory t is memory s with the byte v at address a and every other byte as before (R53). -/
def storedByte (s : Memory) (a : Nat) (v : Byte) (t : Memory) : Prop :=
  ∀ x, t.read x = if x = a then v else s.read x

/-- It is the engine's turn and a command runs: no turn of another agent waits (R11, R32), and none has written a
byte of the command's regions since its START, the premise that R205 asks of a claim. -/
structure EngineMoves (s : State) : Prop where
  inputs : s.inputs = []
  phase : s.eng.phase = .running
  unraced : s.racedBytes = []

/-- The machine answers next k times from s, and is then in t. -/
def Runs (k : Nat) (s t : State) : Prop := Host.Core.run Sys2Proof.core k s = .next t

/-- 1 for a read, as the counts of R136 and R161 take it. -/
def readCount : Option Access → Nat
  | some (.read _) => 1
  | _ => 0

/-- 1 for a write (R136, R161). -/
def writeCount : Option Access → Nat
  | some (.write _) => 1
  | _ => 0

/-- The sum of f over the engine's accesses in the first k steps from s, with no turn waiting. -/
def accessTotal (f : Option Access → Nat) : Nat → State → Nat
  | 0, _ => 0
  | k + 1, s =>
    f (nextAccess s) +
      match step s with
      | .next t => accessTotal f k t
      | _ => 0

/-- Every address of the space in the region is ordinary memory on this platform (the assumption of R58 and
R69). -/
def ordinaryRegion (p : Platform) (base len : Word) : Prop :=
  ∀ a, a < Config.memBytes → inRegion base len a = true → addressKind p a = .ordinary

/-- The bytes of a region (R12). -/
def regionBytes (m : Memory) (base len : Word) : List Byte := m.slice base.toNat len.toNat

/-- Memory t is memory s with the bytes ys at the start of the region at base, and every other byte as before. -/
def wroteOnly (s t : Memory) (base : Word) (ys : List Byte) : Prop :=
  (∀ i, i < ys.length → t.read (base.toNat + i) = ys.getD i 0) ∧
  ∀ a, ¬ (base.toNat ≤ a ∧ a < base.toNat + ys.length) → t.read a = s.read a

/-- The registers and the memory after a command that began with memory m and ended as e says, its output in
the region at base (R185, R186). -/
def endedAs (e : Ending) (m : Memory) (base : Word) (t : State) : Prop :=
  t.status = { busy := false, done := true, err := e.err } ∧ t.eng.phase = .idle ∧
    t.resultLen = BitVec.ofNat 32 e.resultLen ∧ t.errPos = BitVec.ofNat 32 e.errPos ∧
    wroteOnly m t.mem base e.written

end Sys2Proof.Machine
end

