-- ==== Sys2Proof/Certificates/Slice0/Obligations.lean ====
section
/-! DEFINITION. The statements for the provers, each with the rule of spec/ it formalises. A statement about a
step of the engine takes `EngineMoves s`: no other turn waits, a command runs, and no other agent has written its
regions (the premise that R205 asks of a claim; ForeignAccessToBusyRegion says what happens without it). Where a statement speaks of
memory after a write it takes the canonical form of memory before it, which every step keeps
(InvariantKeptByEveryStep). -/

open Sys2Proof Sys2Proof.Machine

/-! ### Reset -/

/-- R200, R22: in the state after reset the eight registers read 0 and the engine is idle. -/
def Obligations.ResetRegistersReadZero : Prop :=
  (∀ g, readReg g State.reset = 0) ∧ State.reset.eng.phase = .idle ∧ nextAccess State.reset = none

/-- R200, R202: whatever the state, the reset input leaves the eight registers reading 0 and the engine idle;
from an idle engine it leaves memory as it was. -/
def Obligations.ResetInputClearsRegisters : Prop :=
  ∀ (s : State) (rest : List Turn), s.inputs = .host .reset :: rest →
    ∃ t, step s = .next t ∧ (∀ g, readReg g t = 0) ∧ t.eng.phase = .idle ∧ t.inputs = rest ∧
      t.platform = s.platform ∧ t.bus = s.bus ∧ (s.eng.phase = .idle → t.mem = s.mem)

/-- R201: a reset while a command runs abandons it: no completion, no further access, the bytes of the region the
command could write take free values, and every other byte stays, the source of a DECODE among them. The bytes of a
command whose handle check would fail are the model's choice (log 10), and the statement leaves them open. -/
def Obligations.ResetAbandonsRunningCommand : Prop :=
  ∀ (s : State) (rest : List Turn), s.Inv → s.eng.phase = .running → s.inputs = .host .reset :: rest →
    ∃ t, step s = .next t ∧
      t.status.done = false ∧ t.status.busy = false ∧ t.resultLen = 0 ∧ t.errPos = 0 ∧ nextAccess t = none ∧
      (handlesOk s.eng = true →
        ∀ a, inRegion (if s.eng.op then s.eng.db else s.eng.sb) (if s.eng.op then s.eng.dc else s.eng.sl) a = true →
          ∃ i, t.mem.read a = Config.freeByte i ∧ s.fresh ≤ i ∧ i < t.fresh) ∧
      (∀ a, inRegion (if s.eng.op then s.eng.db else s.eng.sb) (if s.eng.op then s.eng.dc else s.eng.sl) a = false →
        t.mem.read a = s.mem.read a) ∧
      (s.eng.op = true → ∀ a, inRegion s.eng.sb s.eng.sl a = true → t.mem.read a = s.mem.read a)

/-! ### The register window -/

/-- R111: an admitted read returns the register and changes nothing else, at any time; START and the reserved bits
read 0; while BUSY, STATUS reads 1, RESULT_LEN and ERR_POS read 0, and the parameter registers read the values
latched at START. -/
def Obligations.RegisterReadReturnsValue : Prop :=
  ∀ (s : State) (g : Reg) (rest : List Turn), s.inputs = rd s.platform g :: rest →
    step s = .next { s with inputs := rest, bus := readReg g s } ∧
    (∀ i, (readReg .ctrl s).getLsbD i =
      (decide (i = 1) && s.ctrl.op || decide (i = 2) && s.ctrl.srcValid || decide (i = 3) && s.ctrl.dstValid)) ∧
    (readReg .status s).getLsbD 0 = s.status.busy ∧ (readReg .status s).getLsbD 1 = s.status.done ∧
    (readReg .status s).extractLsb' 4 4 = errField s.status.err ∧
    (∀ i, i = 2 ∨ i = 3 ∨ 8 ≤ i → (readReg .status s).getLsbD i = false) ∧
    readReg .srcBase s = s.srcBase ∧ readReg .srcLen s = s.srcLen ∧ readReg .dstBase s = s.dstBase ∧
    readReg .dstCap s = s.dstCap ∧ readReg .resultLen s = s.resultLen ∧ readReg .errPos s = s.errPos ∧
    (s.Inv → s.status.busy = true →
      readReg .status s = 1 ∧ readReg .resultLen s = 0 ∧ readReg .errPos s = 0 ∧
      readReg .srcBase s = s.eng.sb ∧ readReg .srcLen s = s.eng.sl ∧
      readReg .dstBase s = s.eng.db ∧ readReg .dstCap s = s.eng.dc)

/-- R110: a host access is admitted exactly when it is in the window, aligned and 32 bits wide; the register
accessed is the one at its offset; any other access is refused. The refusal outside the window is the model's choice
(log 12). -/
def Obligations.OnlyAlignedWordAccessesAdmitted : Prop :=
  ∀ (s : State) (addr width : Nat) (d : Word) (rest : List Turn),
    ((s.platform.regBase ≤ addr ∧ addr < s.platform.regBase + 0x20 ∧ (addr - s.platform.regBase) % 4 = 0 ∧
        width = 32) →
      ∃ g : Reg, g.offset = addr - s.platform.regBase ∧
        (s.inputs = .host (.read addr width) :: rest →
          step s = .next { s with inputs := rest, bus := readReg g s }) ∧
        (s.inputs = .host (.write addr width d) :: rest → step s = writeReg g d { s with inputs := rest })) ∧
    (¬ (s.platform.regBase ≤ addr ∧ addr < s.platform.regBase + 0x20 ∧ (addr - s.platform.regBase) % 4 = 0 ∧
        width = 32) →
      (s.inputs = .host (.read addr width) :: rest → ∃ e, step s = .refused e) ∧
      (s.inputs = .host (.write addr width d) :: rest → ∃ e, step s = .refused e))

/-- R112: while idle, a write of d sets SRC_BASE, SRC_LEN, DST_BASE or DST_CAP to all 32 bits of d and changes
nothing else; a write to STATUS, RESULT_LEN or ERR_POS changes nothing; no write starts a command but a CTRL
write with START = 1. -/
def Obligations.IdleRegisterWrites : Prop :=
  ∀ (s : State) (g : Reg) (d : Word) (rest : List Turn), s.inputs = wr s.platform g d :: rest →
    s.status.busy = false →
    (g ≠ .ctrl → step s = .next { s with
      inputs := rest,
      srcBase := if g = .srcBase then d else s.srcBase, srcLen := if g = .srcLen then d else s.srcLen,
      dstBase := if g = .dstBase then d else s.dstBase, dstCap := if g = .dstCap then d else s.dstCap }) ∧
    (¬ (g = .ctrl ∧ d.getLsbD 0 = true) → ∃ t, step s = .next t ∧ t.eng = s.eng ∧ t.status = s.status)

/-- R113: the CTRL write with START = 1 while idle, its whole effect on the state: OP and the valid bits from the
written word, the parameters from the registers, BUSY set, DONE, ERR, RESULT_LEN and ERR_POS cleared, the engine
at its handle check. The engine's point (log 2) and the record of raced bytes, which starts empty (log 9), are the
model's own fields. -/
def Obligations.StartLatchesTheParameters : Prop :=
  ∀ (s : State) (d : Word) (rest : List Turn), s.inputs = wr s.platform .ctrl d :: rest →
    s.status.busy = false → d.getLsbD 0 = true →
    step s = .next { s with
      inputs := rest,
      ctrl := { op := d.getLsbD 1, srcValid := d.getLsbD 2, dstValid := d.getLsbD 3 },
      status := { busy := true, done := false, err := none }, resultLen := 0, errPos := 0, racedBytes := [],
      eng := { s.eng with
        phase := .running, pt := .handleCheck, op := d.getLsbD 1, sv := d.getLsbD 2, dv := d.getLsbD 3,
        sb := s.srcBase, sl := s.srcLen, db := s.dstBase, dc := s.dstCap } }

/-- R113 for the two instructions: ENCODE and DECODE complete while idle, with the state START leaves. That START is
the whole of each instruction's own step is the model's reading (log 14); the engine's point (log 2) and the record of
raced bytes (log 9) are its own fields. -/
def Obligations.EncodeAndDecodeStart : Prop :=
  ∀ (s : State) (sv dv : Bool), s.status.busy = false →
    exec (.encode sv dv) s = .next { s with
      ctrl := { op := false, srcValid := sv, dstValid := dv },
      status := { busy := true, done := false, err := none }, resultLen := 0, errPos := 0, racedBytes := [],
      eng := { s.eng with
        phase := .running, pt := .handleCheck, op := false, sv := sv, dv := dv,
        sb := s.srcBase, sl := s.srcLen, db := s.dstBase, dc := s.dstCap } } ∧
    exec (.decode sv dv) s = .next { s with
      ctrl := { op := true, srcValid := sv, dstValid := dv },
      status := { busy := true, done := false, err := none }, resultLen := 0, errPos := 0, racedBytes := [],
      eng := { s.eng with
        phase := .running, pt := .handleCheck, op := true, sv := sv, dv := dv,
        sb := s.srcBase, sl := s.srcLen, db := s.dstBase, dc := s.dstCap } }

/-- R114: CTRL_SET stores the three fields and changes nothing else; CTRL then reads them back; a later START does
not depend on them. -/
def Obligations.CtrlSetStoresItsFields : Prop :=
  ∀ (s : State) (op sv dv : Bool), s.status.busy = false →
    ∃ t, exec (.ctrlSet op sv dv) s = .next t ∧
      t = { s with ctrl := { op := op, srcValid := sv, dstValid := dv } } ∧
      readReg .ctrl t = commandWord false op sv dv ∧
      ∀ sv' dv', exec (.encode sv' dv') t = exec (.encode sv' dv') s ∧
        exec (.decode sv' dv') t = exec (.decode sv' dv') s

/-- R115: every host write while BUSY changes no state, whatever the register and the data; so does each command
instruction. -/
def Obligations.WritesWhileBusyIgnored : Prop :=
  ∀ (s : State) (g : Reg) (d : Word) (rest : List Turn), s.status.busy = true →
    (s.inputs = wr s.platform g d :: rest → step s = .next { s with inputs := rest }) ∧
    exec (decodeCommand d) s = .next s

/-- R93: a read of STATUS gives one of seven values, each for its own case: idle since reset, busy, success, and one for
each error kind. -/
def Obligations.StatusReadsOneOfSevenValues : Prop :=
  ∀ s : State, s.Inv →
    readReg .status s = 0x00 ∧ s.status = { busy := false, done := false, err := none } ∨
      readReg .status s = 0x01 ∧ s.status = { busy := true, done := false, err := none } ∨
      readReg .status s = 0x02 ∧ s.status = { busy := false, done := true, err := none } ∨
      readReg .status s = 0x12 ∧ s.status = { busy := false, done := true, err := some .invalidHandle } ∨
      readReg .status s = 0x22 ∧ s.status = { busy := false, done := true, err := some .outOfRangeLiteral } ∨
      readReg .status s = 0x32 ∧ s.status = { busy := false, done := true, err := some .malformedStream } ∨
      readReg .status s = 0x42 ∧ s.status = { busy := false, done := true, err := some .destinationOverflow }

/-- R33: only a START that takes effect, a success completion, an error completion and reset write the flags, each
with its own values; and an engine step does the same whatever the flags hold. -/
def Obligations.OnlyFourWritersOfTheFlags : Prop :=
  (∀ s t : State, step s = .next t → t.status ≠ s.status →
    (s.status.busy = false ∧ (∃ d rest, s.inputs = wr s.platform .ctrl d :: rest ∧ d.getLsbD 0 = true) ∧
        t.status = { busy := true, done := false, err := none }) ∨
      (s.eng.phase = .running ∧ (s.inputs = [] ∨ ∃ rest, s.inputs = .engine :: rest) ∧
        (t.status = { busy := false, done := true, err := none } ∨
          ∃ e, t.status = { busy := false, done := true, err := some e })) ∨
      ((∃ rest, s.inputs = .host .reset :: rest) ∧ t.status = { busy := false, done := false, err := none })) ∧
  ∀ (s t : State) (st : Status), EngineMoves s → step s = .next t →
    ∃ t', step { s with status := st } = .next t' ∧ t'.eng = t.eng ∧ t'.mem = t.mem ∧ t'.errPos = t.errPos ∧
      t'.resultLen = t.resultLen

/-- R189: reading does not clear a result; until the next START or reset STATUS, RESULT_LEN and ERR_POS stay; that
START clears them. -/
def Obligations.ResultsStayUntilNextStart : Prop :=
  ∀ (s t : State), s.FlagsAgree → s.status.busy = false → step s = .next t →
    ((¬ ∃ d rest, s.inputs = wr s.platform .ctrl d :: rest ∧ d.getLsbD 0 = true) →
      (¬ ∃ rest, s.inputs = .host .reset :: rest) →
      t.status = s.status ∧ t.resultLen = s.resultLen ∧ t.errPos = s.errPos) ∧
    ((∃ d rest, s.inputs = wr s.platform .ctrl d :: rest ∧ d.getLsbD 0 = true) →
      t.status.done = false ∧ t.status.err = none ∧ t.resultLen = 0 ∧ t.errPos = 0)

/-! ### Memory and the other agents -/

/-- R51, R58: outside a running command's regions memory is ordinary: what the host writes to a byte it reads back,
the last value written, and no other byte changes. That the host reads back its own write rests on the model's host
turns (log 22) and on its field `bus` (log 13). -/
def Obligations.HostMemoryWriteIsReadBack : Prop :=
  ∀ (s : State) (a : Word) (v : Byte) (rest : List Turn), s.mem.wf = true →
    addressKind s.platform a.toNat = .ordinary → raced a s = false →
    s.inputs = .host (.memWrite a v) :: .host (.memRead a) :: rest →
    ∃ t, Runs 2 s t ∧ t.bus = v.zeroExtend 32 ∧ storedByte s.mem a.toNat v t.mem ∧
      t = { s with mem := t.mem, bus := t.bus, inputs := rest }

/-- R205, R52: a race, by its four effects (how the model gives them is log 9). While BUSY another agent's write to a
region of the running command leaves any value in the byte, and its read gives any value and changes nothing else. The
engine's read of a byte so raced gives any value; its step is otherwise the one it takes without a race. When a raced
command ends, its flags, RESULT_LEN and ERR_POS are those that the rules give for some input of free bytes, every byte
of the region it could write and every raced byte holds any value, and every other byte is as before. A raced command
whose handle check fails ends as it does without a race: InvalidHandle at 0, memory as before. Where the platform backs
nothing, or has a device, another agent's access is refused by name, busy or not (log 12). -/
def Obligations.ForeignAccessToBusyRegion : Prop :=
  (∀ (s : State) (a : Word) (v : Byte) (rest : List Turn),
    (addressKind s.platform a.toNat = .ordinary → s.status.busy = true →
      (inRegion s.eng.sb s.eng.sl a.toNat = true ∨
        s.eng.op = true ∧ inRegion s.eng.db s.eng.dc a.toNat = true) →
      (s.inputs = .host (.memWrite a v) :: rest →
        step s = .next { s with
          inputs := rest, mem := s.mem.write a.toNat (Config.freeByte s.fresh), fresh := s.fresh + 1,
          racedBytes := s.racedBytes.insert a.toNat }) ∧
      (s.inputs = .host (.memRead a) :: rest →
        step s = .next { s with
          inputs := rest, bus := (Config.freeByte s.fresh).zeroExtend 32, fresh := s.fresh + 1 })) ∧
    ((s.inputs = .host (.memWrite a v) :: rest ∨ s.inputs = .host (.memRead a) :: rest) →
      (addressKind s.platform a.toNat = .unbacked → step s = .refused .hostUnbacked) ∧
      (addressKind s.platform a.toNat = .device → step s = .refused .deviceRegion))) ∧
  (∀ s t : State, s.Inv → s.inputs = [] → s.eng.phase = .running → t.eng.phase = .running →
    (∀ a ∈ s.racedBytes, nextAccess s = some (.read a) →
      step { s with
        mem := s.mem.write a (Config.freeByte s.fresh), fresh := s.fresh + 1, racedBytes := [] } = .next t →
      step s = .next { t with racedBytes := s.racedBytes }) ∧
    ((∀ a ∈ s.racedBytes, nextAccess s ≠ some (.read a)) → step { s with racedBytes := [] } = .next t →
      step s = .next { t with racedBytes := s.racedBytes })) ∧
  (∀ s t : State, s.Inv → s.inputs = [] → s.racedBytes ≠ [] → handlesOk s.eng = true → step s = .next t →
    t.eng.phase = .idle →
    t.racedBytes = [] ∧
    (∀ a, (if a ∈ s.racedBytes ∨
          inRegion (if s.eng.op then s.eng.db else s.eng.sb) (if s.eng.op then s.eng.dc else s.eng.sl) a = true then
        ∃ i, t.mem.read a = Config.freeByte i ∧ s.fresh ≤ i ∧ i < t.fresh
      else t.mem.read a = s.mem.read a)) ∧
    ∃ (X : List Byte) (e : Ending), X.length = s.eng.sl.toNat ∧
      (∀ i, i < X.length → ∃ j, X.getD i 0 = Config.freeByte j ∧ s.fresh ≤ j ∧ j < t.fresh) ∧
      e = (if s.eng.op then decodeEnding X s.eng.dc.toNat else encodeEnding X) ∧
      t.status = { busy := false, done := true, err := e.err } ∧
      t.resultLen = BitVec.ofNat 32 e.resultLen ∧ t.errPos = BitVec.ofNat 32 e.errPos) ∧
  ∀ s : State, s.inputs = [] → s.eng.phase = .running → s.eng.pt = .handleCheck → handlesOk s.eng = false →
    ∃ t, step s = .next t ∧ t.status = { busy := false, done := true, err := some .invalidHandle } ∧
      t.resultLen = 0 ∧ t.errPos = 0 ∧ t.eng.phase = .idle ∧ t.racedBytes = [] ∧ t.mem = s.mem

/-- R69: at an access to an address the platform does not back the engine has no step: with no other turn waiting
the machine is stuck; given any number of turns the engine makes no progress, and BUSY stays (log 6). At an address mapped
to a device the model refuses the access by name (R58 leaves it outside the contract, 93 U15; log 7). -/
def Obligations.UnbackedAccessIsStuck : Prop :=
  ∀ (s : State) (a : Nat), s.Inv → s.eng.phase = .running →
    (nextAccess s = some (.read a) ∨ nextAccess s = some (.write a)) →
    (addressKind s.platform a = .unbacked →
      (s.inputs = [] → step s = .fault .stuckUnbacked) ∧
      ∀ n rest, s.inputs = List.replicate n .engine ++ rest →
        Runs n s { s with inputs := rest } ∧ s.status.busy = true) ∧
    (addressKind s.platform a = .device → (s.inputs = [] ∨ ∃ rest, s.inputs = .engine :: rest) →
      step s = .refused .deviceRegion)

/-- R52, R53, R61: an engine step makes the one access its point names, at ordinary memory, and changes no byte but
the one it writes. -/
def Obligations.EngineStepMakesItsOneAccess : Prop :=
  ∀ s t : State, s.Inv → EngineMoves s → step s = .next t →
    (∀ a, nextAccess s = some (.read a) ∨ nextAccess s = some (.write a) → addressKind s.platform a = .ordinary) ∧
    ∀ a, nextAccess s ≠ some (.write a) → t.mem.read a = s.mem.read a

/-- R52, R136: an engine step depends on memory only through the byte it reads: on a memory that agrees there it
takes the same step, but for memory. -/
def Obligations.EngineStepReadsOnlyItsByte : Prop :=
  ∀ (s t : State) (m : Memory), s.Inv → EngineMoves s → step s = .next t →
    (∀ a, nextAccess s = some (.read a) → m.read a = s.mem.read a) →
    ∃ t', step { s with mem := m } = .next t' ∧ { t' with mem := t.mem } = t

/-- R68: every access of a running command lies in its regions: ENCODE's in the source region, DECODE's reads in the
source region and its writes in the destination region; a command at its handle check accesses no address. -/
def Obligations.AccessesStayInTheRegions : Prop :=
  ∀ s : State, s.Inv → s.eng.phase = .running →
    (∀ a, nextAccess s = some (.read a) → inRegion s.eng.sb s.eng.sl a = true) ∧
    (∀ a, nextAccess s = some (.write a) →
      if s.eng.op then inRegion s.eng.db s.eng.dc a = true else inRegion s.eng.sb s.eng.sl a = true) ∧
    (s.eng.pt = .handleCheck → nextAccess s = none)

/-- R197, R32: an idle engine makes no memory access, and with no turn waiting nothing changes (log 20). No token is current
then, and a LIT or a RUN has no meaning there: the model refuses it by name (log 19). -/
def Obligations.IdleEngineDoesNothing : Prop :=
  ∀ s : State, s.eng.phase = .idle →
    nextAccess s = none ∧ (s.inputs = [] → step s = .next s) ∧
      (∀ rest, s.inputs = .engine :: rest → step s = .next { s with inputs := rest }) ∧
      ∀ v n, exec (.lit v) s = .refused .notAtToken ∧ exec (.run v n) s = .refused .notAtToken

/-- R35, R6: no step changes the OPEN parameters of the platform. -/
def Obligations.PlatformNeverChanges : Prop :=
  ∀ s t : State, step s = .next t → t.platform = s.platform

/-! ### The handle check and completion -/

/-- R116: a region is in range exactly when base + len is at most 2^32; an empty one always is; every offset of one
in range has an address below 2^32; a command whose region is not in range fails its handle check. -/
def Obligations.RegionValidity : Prop :=
  (∀ base len : Word,
    (inRange base len = true ↔ base.toNat + len.toNat ≤ 2 ^ 32) ∧
    (len = 0 → inRange base len = true ∧ ∀ a, inRegion base len a = false) ∧
    (inRange base len = true → ∀ i, i < len.toNat → addressOf base i < 2 ^ 32)) ∧
  ∀ s : State, EngineMoves s → s.eng.pt = .handleCheck →
    (2 ^ 32 < s.eng.sb.toNat + s.eng.sl.toNat ∨ s.eng.op = true ∧ 2 ^ 32 < s.eng.db.toNat + s.eng.dc.toNat) →
    ∃ t, step s = .next t ∧ Raised s .invalidHandle 0 t ∧ t.mem = s.mem

/-- R117: the handle check of ENCODE, which reads neither eng.dv nor the destination. -/
def Obligations.EncodeHandleCheck : Prop :=
  ∀ s : State, EngineMoves s → s.eng.pt = .handleCheck → s.eng.op = false →
    ((s.eng.sv = false ∨ 2 ^ 32 < s.eng.sb.toNat + s.eng.sl.toNat) →
      ∃ t, step s = .next t ∧ Raised s .invalidHandle 0 t ∧ t.mem = s.mem) ∧
    (s.eng.sv = true → s.eng.sb.toNat + s.eng.sl.toNat ≤ 2 ^ 32 → 0 < s.eng.sl.toNat →
      step s = .next { s with eng := { s.eng with r := 0, w := 0, pt := .encLoad } }) ∧
    (s.eng.sv = true → s.eng.sl = 0 → ∃ t, step s = .next t ∧ Completed s 0 t ∧ t.mem = s.mem)

/-- R118: the handle check of DECODE. -/
def Obligations.DecodeHandleCheck : Prop :=
  ∀ s : State, EngineMoves s → s.eng.pt = .handleCheck → s.eng.op = true →
    ((s.eng.sv = false ∨ s.eng.dv = false ∨ 2 ^ 32 < s.eng.sb.toNat + s.eng.sl.toNat ∨
        2 ^ 32 < s.eng.db.toNat + s.eng.dc.toNat ∨
        (0 < s.eng.sl.toNat ∧ 0 < s.eng.dc.toNat ∧ s.eng.sb.toNat < s.eng.db.toNat + s.eng.dc.toNat ∧
          s.eng.db.toNat < s.eng.sb.toNat + s.eng.sl.toNat)) →
      ∃ t, step s = .next t ∧ Raised s .invalidHandle 0 t ∧ t.mem = s.mem) ∧
    (s.eng.sv = true → s.eng.dv = true → s.eng.sb.toNat + s.eng.sl.toNat ≤ 2 ^ 32 →
      s.eng.db.toNat + s.eng.dc.toNat ≤ 2 ^ 32 →
      ¬ (0 < s.eng.sl.toNat ∧ 0 < s.eng.dc.toNat ∧ s.eng.sb.toNat < s.eng.db.toNat + s.eng.dc.toNat ∧
          s.eng.db.toNat < s.eng.sb.toNat + s.eng.sl.toNat) →
      (0 < s.eng.sl.toNat → step s = .next { s with eng := { s.eng with r := 0, w := 0, pt := .decFetch } }) ∧
      (s.eng.sl = 0 → ∃ t, step s = .next t ∧ Completed s 0 t ∧ t.mem = s.mem))

/-- R120: a command that passes its handle check runs the encoder loop when eng.op = 0 and the decoder loop when
eng.op = 1; with an empty source it completes with length 0 in the handle-check step. -/
def Obligations.DispatchAfterHandleCheck : Prop :=
  ∀ s : State, EngineMoves s → s.eng.pt = .handleCheck → handlesOk s.eng = true →
    (0 < s.eng.sl.toNat → step s = .next { s with
      eng := { s.eng with r := 0, w := 0, pt := if s.eng.op then .decFetch else .encLoad } }) ∧
    (s.eng.sl = 0 → ∃ t, step s = .next t ∧ Completed s 0 t ∧ t.mem = s.mem)

/-- R185, R186: a step that ends a command is one of two atomic updates: success with ERR_POS = 0, or one of the four
errors with RESULT_LEN = 0, STATUS.ERR holding its kind's own code (R180, R93: InvalidHandle 1, OutOfRangeLiteral 2,
MalformedStream 3, DestinationOverflow 4); the engine is then idle and makes no access, and the parameters' registers,
the waiting turns and the platform are as before. -/
def Obligations.CompletionIsSuccessOrError : Prop :=
  ∀ s t : State, s.Inv → EngineMoves s → step s = .next t → t.status.busy = false →
    ((∃ len, Completed s len t ∧ readReg .status t = 0x2) ∨
      ∃ e pos, Raised s e pos t ∧
        (e = .invalidHandle ∧ e.code = 1 ∧ readReg .status t = 0x12 ∨
          e = .outOfRangeLiteral ∧ e.code = 2 ∧ readReg .status t = 0x22 ∨
          e = .malformedStream ∧ e.code = 3 ∧ readReg .status t = 0x32 ∨
          e = .destinationOverflow ∧ e.code = 4 ∧ readReg .status t = 0x42)) ∧
    nextAccess t = none

/-! ### The encoder -/

/-- R130, R131: the two reads of the scan. A first byte out of range raises OutOfRangeLiteral at its offset; any
other starts a run of length 1; an equal byte extends the run; at another byte, at the end of the source, or at
length 255 the scan ends with the read cursor past the run, and the cap is tested before any further read. -/
def Obligations.EncoderScanStep : Prop :=
  ∀ s : State, s.Inv → EngineMoves s →
    (s.eng.pt = .encLoad → addressKind s.platform (s.eng.sb.toNat + s.eng.r.toNat) = .ordinary →
      ∀ c, c = s.mem.read (s.eng.sb.toNat + s.eng.r.toNat) →
      (tagOf c = true → ∃ t, step s = .next t ∧ Raised s .outOfRangeLiteral s.eng.r t ∧ t.mem = s.mem) ∧
      (tagOf c = false → s.eng.r.toNat + 1 < s.eng.sl.toNat →
        step s = .next { s with eng := { s.eng with lit := c, len := 1, pt := .encPeek } }) ∧
      (tagOf c = false → s.eng.r.toNat + 1 = s.eng.sl.toNat →
        step s = .next { s with eng := { s.eng with
          lit := c, len := 1, r := BitVec.ofNat 32 (s.eng.r.toNat + 1), pt := .encLit } })) ∧
    (s.eng.pt = .encPeek →
      addressKind s.platform (s.eng.sb.toNat + (s.eng.r.toNat + s.eng.len.toNat)) = .ordinary →
      ∀ c, c = s.mem.read (s.eng.sb.toNat + (s.eng.r.toNat + s.eng.len.toNat)) →
      (c = s.eng.lit → s.eng.r.toNat + s.eng.len.toNat + 1 < s.eng.sl.toNat → s.eng.len.toNat + 1 < 255 →
        step s = .next { s with eng := { s.eng with len := s.eng.len + 1 } }) ∧
      (c = s.eng.lit → (s.eng.r.toNat + s.eng.len.toNat + 1 = s.eng.sl.toNat ∨ s.eng.len.toNat + 1 = 255) →
        step s = .next { s with eng := { s.eng with
          len := s.eng.len + 1, r := BitVec.ofNat 32 (s.eng.r.toNat + s.eng.len.toNat + 1), pt := .encHeader } }) ∧
      (c ≠ s.eng.lit → step s = .next { s with eng := { s.eng with
        r := BitVec.ofNat 32 (s.eng.r.toNat + s.eng.len.toNat),
        pt := if s.eng.len = 1 then .encLit else .encHeader } }))

/-- R132: a run of length 1 emits its literal byte; a longer one emits its header and then its length byte; the write
cursor moves on by 1 or by 2; the length byte is never 0 or 1 and the header's value bits are the run's literal.
Then the loop goes on at the next run or the command completes with the length written. -/
def Obligations.EncoderEmitsTokens : Prop :=
  ∀ s : State, s.Inv → EngineMoves s →
    (s.eng.pt = .encLit → addressKind s.platform (s.eng.sb.toNat + s.eng.w.toNat) = .ordinary →
      ∃ t, step s = .next t ∧ storedByte s.mem (s.eng.sb.toNat + s.eng.w.toNat) s.eng.lit t.mem ∧
        (s.eng.r.toNat < s.eng.sl.toNat → t = { s with
          mem := t.mem, eng := { s.eng with w := BitVec.ofNat 32 (s.eng.w.toNat + 1), pt := .encLoad } }) ∧
        (s.eng.r = s.eng.sl → Completed s (BitVec.ofNat 32 (s.eng.w.toNat + 1)) t)) ∧
    (s.eng.pt = .encHeader → addressKind s.platform (s.eng.sb.toNat + s.eng.w.toNat) = .ordinary →
      ∃ t, step s = .next t ∧
        storedByte s.mem (s.eng.sb.toNat + s.eng.w.toNat) (headerByte (literalOf s.eng.lit)) t.mem ∧
        t = { s with mem := t.mem, eng := { s.eng with pt := .encLength } }) ∧
    (s.eng.pt = .encLength → addressKind s.platform (s.eng.sb.toNat + (s.eng.w.toNat + 1)) = .ordinary →
      2 ≤ s.eng.len.toNat ∧
      ∃ t, step s = .next t ∧ storedByte s.mem (s.eng.sb.toNat + (s.eng.w.toNat + 1)) s.eng.len t.mem ∧
        (s.eng.r.toNat < s.eng.sl.toNat → t = { s with
          mem := t.mem, eng := { s.eng with w := BitVec.ofNat 32 (s.eng.w.toNat + 2), pt := .encLoad } }) ∧
        (s.eng.r = s.eng.sl → Completed s (BitVec.ofNat 32 (s.eng.w.toNat + 2)) t))

/-- R131: from the load of a run's first byte, a literal, the scan reads on until the read cursor stands past the
longest run of equal bytes of at most 255, with memory unchanged and the run's length in eng.len. It reads each byte of
the run once, and one byte more only where a byte after the run ends it: at the cap none is read past the run. -/
def Obligations.ScanTakesTheLongestRun : Prop :=
  ∀ (s : State) (X : List Byte), s.Inv → EngineMoves s → s.eng.pt = .encLoad →
    ordinaryRegion s.platform s.eng.sb s.eng.sl →
    X = s.mem.slice (s.eng.sb.toNat + s.eng.r.toNat) (s.eng.sl.toNat - s.eng.r.toNat) →
    tagOf (X.headD 0) = false →
    ∃ k t, Runs k s t ∧
      k = (if chunkLength X < 255 ∧ chunkLength X < X.length then chunkLength X + 1 else chunkLength X) ∧
      t = { s with eng := { s.eng with
        lit := X.headD 0, len := BitVec.ofNat 8 (chunkLength X),
        r := BitVec.ofNat 32 (s.eng.r.toNat + chunkLength X),
        pt := if chunkLength X = 1 then .encLit else .encHeader } } ∧
      1 ≤ chunkLength X ∧ chunkLength X ≤ 255 ∧ chunkLength X ≤ X.length ∧
      (∀ i, i < chunkLength X → X.getD i 0 = X.headD 0) ∧
      (chunkLength X < 255 → chunkLength X < X.length → X.getD (chunkLength X) 0 ≠ X.headD 0)

/-- R171: while an ENCODE runs, what it writes lies below its read cursor and what it reads lies at or above it, and
the read cursor never moves back: no source byte is read after it has been overwritten. -/
def Obligations.InPlaceSafety : Prop :=
  ∀ s t : State, s.Inv → EngineMoves s → s.eng.op = false → step s = .next t →
    (∀ a, nextAccess s = some (.write a) → a < s.eng.sb.toNat + s.eng.r.toNat) ∧
    (∀ a, nextAccess s = some (.read a) → s.eng.sb.toNat + s.eng.r.toNat ≤ a) ∧
    (s.eng.pt ≠ .handleCheck → s.eng.w.toNat ≤ s.eng.r.toNat) ∧
    (s.eng.pt ≠ .handleCheck → t.eng.phase = .running → s.eng.r.toNat ≤ t.eng.r.toNat)

/-- R133, R134: an ENCODE of literals, started by its instruction and given only the engine's own steps, completes;
the source region then starts with Enc of the source bytes, RESULT_LEN is its length, and every other byte of memory,
the rest of the region among them, is as at START. -/
def Obligations.EncodeCompressesInPlace : Prop :=
  ∀ (s : State) (dv : Bool), s.Inv → s.status.busy = false → s.inputs = [] →
    s.srcBase.toNat + s.srcLen.toNat ≤ 2 ^ 32 → ordinaryRegion s.platform s.srcBase s.srcLen →
    validInput (regionBytes s.mem s.srcBase s.srcLen) = true →
    ∃ s₁ k t, exec (.encode true dv) s = .next s₁ ∧ Runs k s₁ t ∧
      t.status = { busy := false, done := true, err := none } ∧ t.eng.phase = .idle ∧
      t.resultLen.toNat = (Enc (regionBytes s.mem s.srcBase s.srcLen)).length ∧ t.errPos = 0 ∧
      wroteOnly s.mem t.mem s.srcBase (Enc (regionBytes s.mem s.srcBase s.srcLen))

/-- R174, R135: an ENCODE of a source with a byte out of range fails with OutOfRangeLiteral, STATUS.ERR = 2, at the first
such byte, RESULT_LEN 0; the region starts with Enc of the bytes before it, and every other byte is as at START. -/
def Obligations.EncodeRejectsOutOfRange : Prop :=
  ∀ (s : State) (dv : Bool) (X : List Byte), s.Inv → s.status.busy = false → s.inputs = [] →
    s.srcBase.toNat + s.srcLen.toNat ≤ 2 ^ 32 → ordinaryRegion s.platform s.srcBase s.srcLen →
    X = regionBytes s.mem s.srcBase s.srcLen → validInput X = false →
    ∃ s₁ k t, exec (.encode true dv) s = .next s₁ ∧ Runs k s₁ t ∧
      t.status = { busy := false, done := true, err := some .outOfRangeLiteral } ∧
      (readReg .status t).extractLsb' 4 4 = 2 ∧ t.resultLen = 0 ∧
      t.errPos.toNat < X.length ∧ tagOf (X.getD t.errPos.toNat 0) = true ∧
      validInput (X.take t.errPos.toNat) = true ∧
      wroteOnly s.mem t.mem s.srcBase (Enc (X.take t.errPos.toNat))

/-! ### The decoder -/

/-- R152, R150, R184: LIT at its two steps. That the read of its byte, which R150 makes, is a step of LIT is the
model's choice (log 14). The step that reads its byte raises DestinationOverflow at its offset if the
destination is full, and else goes on to the write; the write stores the value at the write cursor, moves both cursors
on by 1, and the loop goes on or the command completes. -/
def Obligations.LitWritesItsValue : Prop :=
  ∀ (s : State) (v : Literal), s.Inv → s.eng.phase = .running →
    (s.eng.pt = .decFetch → addressKind s.platform (s.eng.sb.toNat + s.eng.r.toNat) = .ordinary →
      (s.eng.w.toNat < s.eng.dc.toNat →
        exec (.lit v) s = .next { s with eng := { s.eng with lit := v.zeroExtend 8, pt := .decLit } }) ∧
      (s.eng.dc.toNat ≤ s.eng.w.toNat →
        ∃ t, exec (.lit v) s = .next t ∧ Raised s .destinationOverflow s.eng.r t ∧ t.mem = s.mem)) ∧
    (s.eng.pt = .decLit → addressKind s.platform (s.eng.db.toNat + s.eng.w.toNat) = .ordinary →
      ∃ t, exec (.lit v) s = .next t ∧ storedByte s.mem (s.eng.db.toNat + s.eng.w.toNat) (v.zeroExtend 8) t.mem ∧
        (s.eng.r.toNat + 1 < s.eng.sl.toNat → t = { s with
          mem := t.mem,
          eng := { s.eng with
            w := BitVec.ofNat 32 (s.eng.w.toNat + 1), r := BitVec.ofNat 32 (s.eng.r.toNat + 1), pt := .decFetch } }) ∧
        (s.eng.r.toNat + 1 = s.eng.sl.toNat → Completed s (BitVec.ofNat 32 (s.eng.w.toNat + 1)) t))

/-- R153, R150, R183, R184: RUN at its three kinds of step: the read of its header, of its length byte, and each of
its writes. That the read of its header, which R150 makes, is a step of RUN is the model's choice (log 14); so is the
value n of eng.k after the last write (log 26). -/
def Obligations.RunWritesItsCopies : Prop :=
  ∀ (s : State) (v : Literal) (n : Byte), s.Inv → s.eng.phase = .running →
    (s.eng.pt = .decFetch → addressKind s.platform (s.eng.sb.toNat + s.eng.r.toNat) = .ordinary →
      (s.eng.r.toNat + 1 < s.eng.sl.toNat →
        exec (.run v n) s = .next { s with eng := { s.eng with lit := v.zeroExtend 8 ||| 0x80#8, pt := .decLength } }) ∧
      (s.eng.sl.toNat ≤ s.eng.r.toNat + 1 →
        ∃ t, exec (.run v n) s = .next t ∧ Raised s .malformedStream s.eng.r t ∧ t.mem = s.mem)) ∧
    (s.eng.pt = .decLength → addressKind s.platform (s.eng.sb.toNat + (s.eng.r.toNat + 1)) = .ordinary →
      (n.toNat < 2 → ∃ t, exec (.run v n) s = .next t ∧ Raised s .malformedStream s.eng.r t ∧ t.mem = s.mem) ∧
      (2 ≤ n.toNat → s.eng.w.toNat < s.eng.dc.toNat →
        exec (.run v n) s = .next { s with eng := { s.eng with len := n, k := 0, pt := .decRun } }) ∧
      (2 ≤ n.toNat → s.eng.dc.toNat ≤ s.eng.w.toNat →
        ∃ t, exec (.run v n) s = .next t ∧ Raised s .destinationOverflow s.eng.r t ∧ t.mem = s.mem)) ∧
    (s.eng.pt = .decRun → s.eng.len = n → addressKind s.platform (s.eng.db.toNat + s.eng.w.toNat) = .ordinary →
      ∃ t, exec (.run v n) s = .next t ∧ storedByte s.mem (s.eng.db.toNat + s.eng.w.toNat) (v.zeroExtend 8) t.mem ∧
        (s.eng.k.toNat + 1 < n.toNat → s.eng.w.toNat + 1 < s.eng.dc.toNat → t = { s with
          mem := t.mem,
          eng := { s.eng with w := BitVec.ofNat 32 (s.eng.w.toNat + 1), k := s.eng.k + 1 } }) ∧
        (s.eng.k.toNat + 1 < n.toNat → s.eng.w.toNat + 1 = s.eng.dc.toNat →
          Raised s .destinationOverflow s.eng.r t) ∧
        (s.eng.k.toNat + 1 = n.toNat → s.eng.r.toNat + 2 < s.eng.sl.toNat → t = { s with
          mem := t.mem,
          eng := { s.eng with
            w := BitVec.ofNat 32 (s.eng.w.toNat + 1), k := s.eng.k + 1, r := BitVec.ofNat 32 (s.eng.r.toNat + 2),
            pt := .decFetch } }) ∧
        (s.eng.k.toNat + 1 = n.toNat → s.eng.r.toNat + 2 = s.eng.sl.toNat →
          Completed s (BitVec.ofNat 32 (s.eng.w.toNat + 1)) t))

/-- R152, R153: a whole token. From its first byte, with room for its output, a LIT takes 2 steps and a RUN of length n
takes n + 2; its value then stands in its n bytes of the destination, no other byte has changed, and the cursors have
moved past the token, or the command has completed with the length written. -/
def Obligations.WholeTokenExpands : Prop :=
  ∀ (s : State) (i : Instr) (rest : List Byte), s.Inv → EngineMoves s → s.eng.pt = .decFetch →
    ordinaryRegion s.platform s.eng.sb s.eng.sl → ordinaryRegion s.platform s.eng.db s.eng.dc →
    decode (.token (s.mem.slice (s.eng.sb.toNat + s.eng.r.toNat) (s.eng.sl.toNat - s.eng.r.toNat))) = .ok i rest →
    ∀ (v : Literal) (bytes copies : Nat),
      (i = .lit v ∧ bytes = 1 ∧ copies = 1 ∨ ∃ n, i = .run v n ∧ bytes = 2 ∧ copies = n.toNat ∧ 2 ≤ n.toNat) →
      s.eng.w.toNat + copies ≤ s.eng.dc.toNat →
      ∃ t, Runs (bytes + copies) s t ∧
        (∀ a, t.mem.read a =
          if s.eng.db.toNat + s.eng.w.toNat ≤ a ∧ a < s.eng.db.toNat + s.eng.w.toNat + copies then v.zeroExtend 8
          else s.mem.read a) ∧
        (s.eng.r.toNat + bytes < s.eng.sl.toNat →
          t.status = s.status ∧ t.eng.pt = .decFetch ∧ t.eng.phase = .running ∧
          t.eng.r.toNat = s.eng.r.toNat + bytes ∧ t.eng.w.toNat = s.eng.w.toNat + copies ∧ SameOutside s t) ∧
        (s.eng.r.toNat + bytes = s.eng.sl.toNat → Completed s (BitVec.ofNat 32 (s.eng.w.toNat + copies)) t)

/-- R155: a run header that is the last byte of the stream raises MalformedStream at its offset in the step that reads
it, the only byte read, and nothing more is written. -/
def Obligations.TruncatedRunIsMalformed : Prop :=
  ∀ s : State, s.Inv → EngineMoves s → s.eng.pt = .decFetch →
    addressKind s.platform (s.eng.sb.toNat + s.eng.r.toNat) = .ordinary →
    tagOf (s.mem.read (s.eng.sb.toNat + s.eng.r.toNat)) = true → s.eng.r.toNat + 1 = s.eng.sl.toNat →
    nextAccess s = some (.read (s.eng.sb.toNat + s.eng.r.toNat)) ∧
    ∃ t, step s = .next t ∧ Raised s .malformedStream s.eng.r t ∧ t.mem = s.mem ∧ nextAccess t = none

/-- R156: a length byte of 0 or 1 raises MalformedStream at the token's offset, after it is read and before any byte of
the run is written. -/
def Obligations.RunLengthBelowTwoIsMalformed : Prop :=
  ∀ s : State, s.Inv → EngineMoves s → s.eng.pt = .decLength →
    addressKind s.platform (s.eng.sb.toNat + s.eng.r.toNat + 1) = .ordinary →
    (s.mem.read (s.eng.sb.toNat + s.eng.r.toNat + 1) = 0 ∨ s.mem.read (s.eng.sb.toNat + s.eng.r.toNat + 1) = 1) →
    ∃ t, step s = .next t ∧ Raised s .malformedStream s.eng.r t ∧ t.mem = s.mem ∧ nextAccess t = none

/-- R154: no write of a DECODE lands at or past the capacity, or outside the destination region; a write that would is
not made: the step before it raises DestinationOverflow at the token's offset. -/
def Obligations.CapacityCheckedBeforeEveryWrite : Prop :=
  ∀ s t : State, s.Inv → EngineMoves s → s.eng.op = true → step s = .next t →
    (∀ a, nextAccess s = some (.write a) →
      a = s.eng.db.toNat + s.eng.w.toNat ∧ s.eng.w.toNat < s.eng.dc.toNat ∧ inRegion s.eng.db s.eng.dc a = true) ∧
    (∀ a, inRegion s.eng.db s.eng.dc a = false → t.mem.read a = s.mem.read a) ∧
    (s.eng.pt = .decFetch → tagOf (s.mem.read (s.eng.sb.toNat + s.eng.r.toNat)) = false → s.eng.w = s.eng.dc →
      Raised s .destinationOverflow s.eng.r t) ∧
    (s.eng.pt = .decLength → 2 ≤ (s.mem.read (s.eng.sb.toNat + s.eng.r.toNat + 1)).toNat → s.eng.w = s.eng.dc →
      Raised s .destinationOverflow s.eng.r t) ∧
    (s.eng.pt = .decRun → s.eng.k.toNat + 1 < s.eng.len.toNat → s.eng.w.toNat + 1 = s.eng.dc.toNat →
      Raised s .destinationOverflow s.eng.r t)

/-- R188: within a RUN, truncation and a length below 2 are reported even where the destination is full. -/
def Obligations.MalformedBeatsOverflow : Prop :=
  ∀ s : State, s.Inv → EngineMoves s → s.eng.w = s.eng.dc →
    (s.eng.pt = .decFetch → addressKind s.platform (tokenAddress s 0) = .ordinary →
      tagOf (s.mem.read (tokenAddress s 0)) = true → s.eng.r.toNat + 1 = s.eng.sl.toNat →
      ∃ t, step s = .next t ∧ Raised s .malformedStream s.eng.r t) ∧
    (s.eng.pt = .decLength → addressKind s.platform (tokenAddress s 1) = .ordinary →
      ((s.mem.read (tokenAddress s 1)).toNat < 2 →
        ∃ t, step s = .next t ∧ Raised s .malformedStream s.eng.r t) ∧
      (2 ≤ (s.mem.read (tokenAddress s 1)).toNat →
        ∃ t, step s = .next t ∧ Raised s .destinationOverflow s.eng.r t))

/-- R160: DECODE never writes the source region: through any number of engine steps, to its end and past it, the
compressed stream reads the same, and so does every byte outside the destination region. -/
def Obligations.DecodeKeepsItsSource : Prop :=
  ∀ (s t : State) (k : Nat), s.Inv → EngineMoves s → s.eng.op = true → Runs k s t →
    ∀ a, inRegion s.eng.sb s.eng.sl a = true ∨ inRegion s.eng.db s.eng.dc a = false → t.mem.read a = s.mem.read a

/-- R159, R157, R158: a DECODE started by its instruction and given only the engine's own steps ends as the three cases
of R159 say: the error kind if any, RESULT_LEN, ERR_POS, the written prefix of the destination, and every other byte of
memory as at START. -/
def Obligations.DecodeEndsAsDec : Prop :=
  ∀ s : State, s.Inv → s.status.busy = false → s.inputs = [] →
    s.srcBase.toNat + s.srcLen.toNat ≤ 2 ^ 32 → s.dstBase.toNat + s.dstCap.toNat ≤ 2 ^ 32 →
    overlap s.srcBase s.srcLen s.dstBase s.dstCap = false →
    ordinaryRegion s.platform s.srcBase s.srcLen → ordinaryRegion s.platform s.dstBase s.dstCap →
    ∃ s₁ k t, exec (.decode true true) s = .next s₁ ∧ Runs k s₁ t ∧
      endedAs (decodeEnding (regionBytes s.mem s.srcBase s.srcLen) s.dstCap.toNat) s.mem s.dstBase t

/-! ### Both commands: steps, counts, determinism -/

/-- R211: with every address of its regions ordinary memory, an ENCODE of N bytes ends within 3N steps of its START (1
step for N = 0), and a DECODE within 1 + SRC_LEN + DST_CAP, whatever the handles and the bytes. -/
def Obligations.CommandsEndWithinTheStepBound : Prop :=
  ∀ (s : State) (sv dv : Bool), s.Inv → s.status.busy = false → s.inputs = [] →
    ordinaryRegion s.platform s.srcBase s.srcLen →
    (∃ s₁ k t, exec (.encode sv dv) s = .next s₁ ∧ Runs k s₁ t ∧ k ≤ max 1 (3 * s.srcLen.toNat) ∧
      t.status.busy = false ∧ t.status.done = true) ∧
    (ordinaryRegion s.platform s.dstBase s.dstCap →
    ∃ s₁ k t, exec (.decode sv dv) s = .next s₁ ∧ Runs k s₁ t ∧ k ≤ 1 + s.srcLen.toNat + s.dstCap.toNat ∧
      t.status.busy = false ∧ t.status.done = true)

/-- R136, R161 in their counts: a successful ENCODE of N bytes, N at least 1, makes R reads and W writes with
N ≤ R ≤ 2N - 1 and W = E ≤ N; a successful DECODE makes one read for each stream byte and one write for each output
byte. -/
def Obligations.CommandAccessCounts : Prop :=
  ∀ s : State, s.Inv → s.status.busy = false → s.inputs = [] →
    s.srcBase.toNat + s.srcLen.toNat ≤ 2 ^ 32 → ordinaryRegion s.platform s.srcBase s.srcLen →
    (∀ dv, validInput (regionBytes s.mem s.srcBase s.srcLen) = true → 1 ≤ s.srcLen.toNat →
      ∃ s₁ k t, exec (.encode true dv) s = .next s₁ ∧ Runs k s₁ t ∧ t.status.done = true ∧
        s.srcLen.toNat ≤ accessTotal readCount k s₁ ∧ accessTotal readCount k s₁ ≤ 2 * s.srcLen.toNat - 1 ∧
        accessTotal writeCount k s₁ = t.resultLen.toNat ∧ t.resultLen.toNat ≤ s.srcLen.toNat) ∧
    (∀ Y : List Byte, s.dstBase.toNat + s.dstCap.toNat ≤ 2 ^ 32 →
      overlap s.srcBase s.srcLen s.dstBase s.dstCap = false → ordinaryRegion s.platform s.dstBase s.dstCap →
      Dec (regionBytes s.mem s.srcBase s.srcLen) = .ok Y → Y.length ≤ s.dstCap.toNat →
      ∃ s₁ k t, exec (.decode true true) s = .next s₁ ∧ Runs k s₁ t ∧ t.status.done = true ∧
        accessTotal readCount k s₁ = s.srcLen.toNat ∧ accessTotal writeCount k s₁ = Y.length)

/-- R95: the pseudo-instructions `ENCODE sb, sl` and `DECODE sb, sl, db, dc`, given to an idle block as its waiting
turns, run to an end at which no turn waits, the last read of POLL shows STATUS with BUSY = 0, and the command has ended
as R133, R135 and R159 say (POLL and the engine take turns: log 1). -/
def Obligations.PseudoInstructionsRunTheirCommands : Prop :=
  ∀ (s : State) (sb sl : Word), s.Inv → s.status.busy = false → sb.toNat + sl.toNat ≤ 2 ^ 32 →
    ordinaryRegion s.platform sb sl →
    (s.inputs = encodeProgram s.platform sb sl →
      ∃ k t, Runs k s t ∧ t.inputs = [] ∧ t.bus = readReg .status t ∧ readReg .ctrl t = 0x4 ∧
        endedAs (encodeEnding (regionBytes s.mem sb sl)) s.mem sb t) ∧
    (∀ db dc : Word, db.toNat + dc.toNat ≤ 2 ^ 32 → ordinaryRegion s.platform db dc → overlap sb sl db dc = false →
      s.inputs = decodeProgram s.platform sb sl db dc →
      ∃ k t, Runs k s t ∧ t.inputs = [] ∧ t.bus = readReg .status t ∧ readReg .ctrl t = 0xE ∧
        endedAs (decodeEnding (regionBytes s.mem sb sl) dc.toNat) s.mem db t)

/-- R173: two ENCODEs of the same source bytes end with the same STATUS, RESULT_LEN, ERR_POS and region bytes, wherever
their buffers lie and whatever else the two states hold. Two DECODEs of the same stream with the same capacity end
with the same STATUS, RESULT_LEN and ERR_POS, the same number n of output bytes written, at least RESULT_LEN, and the
same n bytes; the rest of each destination is as at its START, so that equal destinations stay equal. -/
def Obligations.CommandsAreDeterministic : Prop :=
  ∀ s s' : State, s.Inv → s'.Inv → s.status.busy = false → s'.status.busy = false → s.inputs = [] → s'.inputs = [] →
    ordinaryRegion s.platform s.srcBase s.srcLen → ordinaryRegion s'.platform s'.srcBase s'.srcLen →
    s.srcBase.toNat + s.srcLen.toNat ≤ 2 ^ 32 → s'.srcBase.toNat + s'.srcLen.toNat ≤ 2 ^ 32 →
    s.srcLen = s'.srcLen → regionBytes s.mem s.srcBase s.srcLen = regionBytes s'.mem s'.srcBase s'.srcLen →
    (∀ dv dv', ∃ s₁ s₁' k k' t t', exec (.encode true dv) s = .next s₁ ∧ exec (.encode true dv') s' = .next s₁' ∧
      Runs k s₁ t ∧ Runs k' s₁' t' ∧ t.status.done = true ∧ t'.status = t.status ∧ t'.resultLen = t.resultLen ∧
      t'.errPos = t.errPos ∧
      regionBytes t'.mem s'.srcBase s'.srcLen = regionBytes t.mem s.srcBase s.srcLen) ∧
    (ordinaryRegion s.platform s.dstBase s.dstCap → ordinaryRegion s'.platform s'.dstBase s'.dstCap →
      s.dstBase.toNat + s.dstCap.toNat ≤ 2 ^ 32 → s'.dstBase.toNat + s'.dstCap.toNat ≤ 2 ^ 32 →
      overlap s.srcBase s.srcLen s.dstBase s.dstCap = false →
      overlap s'.srcBase s'.srcLen s'.dstBase s'.dstCap = false →
      s.dstCap = s'.dstCap →
      ∃ s₁ s₁' k k' t t' n, exec (.decode true true) s = .next s₁ ∧ exec (.decode true true) s' = .next s₁' ∧
        Runs k s₁ t ∧ Runs k' s₁' t' ∧ t.status.done = true ∧ t'.status = t.status ∧ t'.resultLen = t.resultLen ∧
        t'.errPos = t.errPos ∧ t.resultLen.toNat ≤ n ∧ n ≤ s.dstCap.toNat ∧
        t'.mem.slice s'.dstBase.toNat n = t.mem.slice s.dstBase.toNat n ∧
        (∀ i, n ≤ i → i < s.dstCap.toNat →
          t.mem.read (s.dstBase.toNat + i) = s.mem.read (s.dstBase.toNat + i) ∧
            t'.mem.read (s'.dstBase.toNat + i) = s'.mem.read (s'.dstBase.toNat + i)) ∧
        (regionBytes s.mem s.dstBase s.dstCap = regionBytes s'.mem s'.dstBase s'.dstCap →
          regionBytes t'.mem s'.dstBase s'.dstCap = regionBytes t.mem s.dstBase s.dstCap))

/-- R31, R119, 93 U11: the engine registers that a command finds hold any value and no rule reads them: a command
started over other leftover values makes the same steps, as far as anyone can see. -/
def Obligations.LeftoverEngineRegistersAreNotRead : Prop :=
  ∀ (s : State) (e : Eng) (op sv dv : Bool) (k : Nat) (t : State), s.inputs = [] →
    Runs k (s.start op sv dv) t →
    ∃ t', Runs k (({ s with eng := e } : State).start op sv dv) t' ∧ t'.status = t.status ∧
      t'.resultLen = t.resultLen ∧ t'.errPos = t.errPos ∧ t'.mem = t.mem ∧ t'.eng.phase = t.eng.phase ∧
      nextAccess t' = nextAccess t

/-! ### The codec -/

/-- R172: decoding the encoding of a valid input gives it back. On the machine, a DECODE of a stream Enc X into a
disjoint destination completes with X if the capacity is at least its length, and fails with DestinationOverflow if it
is less; and so does an ENCODE of X followed by a DECODE of the first E bytes, E the length the ENCODE left. -/
def Obligations.RoundTrip : Prop :=
  (∀ X : List Byte, validInput X = true → Dec (Enc X) = .ok X) ∧
  (∀ (s : State) (X : List Byte), validInput X = true → s.Inv → s.status.busy = false → s.inputs = [] →
    s.srcBase.toNat + s.srcLen.toNat ≤ 2 ^ 32 → s.dstBase.toNat + s.dstCap.toNat ≤ 2 ^ 32 →
    overlap s.srcBase s.srcLen s.dstBase s.dstCap = false →
    ordinaryRegion s.platform s.srcBase s.srcLen → ordinaryRegion s.platform s.dstBase s.dstCap →
    regionBytes s.mem s.srcBase s.srcLen = Enc X →
    ∃ s₁ k t, exec (.decode true true) s = .next s₁ ∧ Runs k s₁ t ∧ t.status.done = true ∧
      (X.length ≤ s.dstCap.toNat →
        t.status.err = none ∧ t.resultLen.toNat = X.length ∧ t.mem.slice s.dstBase.toNat X.length = X) ∧
      (s.dstCap.toNat < X.length → t.status.err = some .destinationOverflow ∧ t.resultLen = 0)) ∧
  ∀ (s : State) (X : List Byte) (db dc : Word), s.Inv → s.status.busy = false → s.inputs = [] →
    s.srcBase.toNat + s.srcLen.toNat ≤ 2 ^ 32 → db.toNat + dc.toNat ≤ 2 ^ 32 →
    X = regionBytes s.mem s.srcBase s.srcLen → validInput X = true →
    overlap s.srcBase (BitVec.ofNat 32 (Enc X).length) db dc = false →
    ordinaryRegion s.platform s.srcBase s.srcLen → ordinaryRegion s.platform db dc →
    ∃ s₁ k t, exec (.encode true false) s = .next s₁ ∧ Runs k s₁ t ∧ t.status.done = true ∧ t.status.err = none ∧
      t.resultLen = BitVec.ofNat 32 (Enc X).length ∧
      ∃ s₂ k₂ u,
        exec (.decode true true) { t with srcLen := t.resultLen, dstBase := db, dstCap := dc } = .next s₂ ∧
        Runs k₂ s₂ u ∧ u.status.done = true ∧
        (X.length ≤ dc.toNat →
          u.status.err = none ∧ u.resultLen.toNat = X.length ∧ u.mem.slice db.toNat X.length = X) ∧
        (dc.toNat < X.length → u.status.err = some .destinationOverflow ∧ u.resultLen = 0)

/-- R170: the encoding of a valid input is never longer than it, and is as long exactly when no chunk has length 3 or
more; a successful ENCODE leaves RESULT_LEN at most SRC_LEN. -/
def Obligations.EncodingNeverExpands : Prop :=
  (∀ X : List Byte, validInput X = true →
    (Enc X).length ≤ X.length ∧ ((Enc X).length = X.length ↔ ∀ L ∈ chunkLengths X, L < 3)) ∧
  ∀ (s : State) (dv : Bool), s.Inv → s.status.busy = false → s.inputs = [] →
    s.srcBase.toNat + s.srcLen.toNat ≤ 2 ^ 32 → ordinaryRegion s.platform s.srcBase s.srcLen →
    ∃ s₁ k t, exec (.encode true dv) s = .next s₁ ∧ Runs k s₁ t ∧ t.status.done = true ∧
      t.resultLen.toNat ≤ s.srcLen.toNat

/-- R175: a physical run of P equal literals v, wherever it stands in the input (after bytes X that do not end in v,
before bytes Y that do not start with v), splits into P / 255 full RUNs and the rest: nothing, a LIT, or a RUN; what
stands before and after it is encoded as if alone. -/
def Obligations.LongRunsSplitAtTheCap : Prop :=
  ∀ (X Y : List Byte) (v : Byte) (P : Nat), tagOf v = false → 1 ≤ P ∨ Y = [] →
    X.getLast? ≠ some v → Y.head? ≠ some v →
    Enc (X ++ List.replicate P v ++ Y) =
      Enc X ++
        ((List.replicate (P / 255) [v ||| 0x80#8, 0xFF#8]).flatten ++
          (if P % 255 = 0 then [] else if P % 255 = 1 then [v] else [v ||| 0x80#8, BitVec.ofNat 8 (P % 255)])) ++
        Enc Y

/-- R176, R132: the encoding of a valid input is a sequence of well-formed tokens, in which a token is followed by one
of the same value only if it is a RUN of length 255. -/
def Obligations.EncodingIsCanonical : Prop :=
  ∀ X : List Byte, validInput X = true →
    ∃ is, tokensOf (Enc X).length (Enc X) = some is ∧ (∀ i ∈ is, i.wf = true) ∧
      ∀ k i j, is[k]? = some i → is[k + 1]? = some j → tokenValue i = tokenValue j →
        ∃ v, i = .run v 255#8

/-- R177: the encoding of a valid input is never an error, and a DECODE of it with capacity for the input raises
neither MalformedStream nor DestinationOverflow: it succeeds. -/
def Obligations.EncodingIsWellFormed : Prop :=
  (∀ X : List Byte, validInput X = true → ∀ e p, Dec (Enc X) ≠ .err e p) ∧
  ∀ (s : State) (X : List Byte), validInput X = true → X.length ≤ s.dstCap.toNat → s.Inv → s.status.busy = false →
    s.inputs = [] → s.srcBase.toNat + s.srcLen.toNat ≤ 2 ^ 32 → s.dstBase.toNat + s.dstCap.toNat ≤ 2 ^ 32 →
    overlap s.srcBase s.srcLen s.dstBase s.dstCap = false →
    ordinaryRegion s.platform s.srcBase s.srcLen → ordinaryRegion s.platform s.dstBase s.dstCap →
    regionBytes s.mem s.srcBase s.srcLen = Enc X →
    ∃ s₁ k t, exec (.decode true true) s = .next s₁ ∧ Runs k s₁ t ∧
      t.status = { busy := false, done := true, err := none }

/-- R178: a stream that decodes gives at least its own length in bytes and at most 255 for every two bytes and 1 for a
last odd one; a DECODE that succeeds wrote as many, and with a destination of that size no DECODE ends in
DestinationOverflow. -/
def Obligations.DecoderExpansionBound : Prop :=
  (∀ T Y : List Byte, Dec T = .ok Y → T.length ≤ Y.length ∧ Y.length ≤ 255 * (T.length / 2) + T.length % 2) ∧
  ∀ s : State, s.Inv → s.status.busy = false → s.inputs = [] →
    s.srcBase.toNat + s.srcLen.toNat ≤ 2 ^ 32 → s.dstBase.toNat + s.dstCap.toNat ≤ 2 ^ 32 →
    overlap s.srcBase s.srcLen s.dstBase s.dstCap = false →
    ordinaryRegion s.platform s.srcBase s.srcLen → ordinaryRegion s.platform s.dstBase s.dstCap →
    ∃ s₁ k t, exec (.decode true true) s = .next s₁ ∧ Runs k s₁ t ∧ t.status.done = true ∧
      (t.status.err = none → s.srcLen.toNat ≤ t.resultLen.toNat ∧
        t.resultLen.toNat ≤ 255 * (s.srcLen.toNat / 2) + s.srcLen.toNat % 2) ∧
      (255 * (s.srcLen.toNat / 2) + s.srcLen.toNat % 2 ≤ s.dstCap.toNat →
        t.status.err ≠ some .destinationOverflow)

/-! ### Encodings -/

/-- R91: a command word decodes by its bits 1:0, with bits 3:2 its operands and bits 31:4 ignored; every word is one
command. -/
def Obligations.CommandWordDecodesByLowBits : Prop :=
  ∀ d : Word,
    (d.getLsbD 0 = true → d.getLsbD 1 = false →
      decode (.command d) = .ok (.encode (d.getLsbD 2) (d.getLsbD 3)) []) ∧
    (d.getLsbD 0 = true → d.getLsbD 1 = true →
      decode (.command d) = .ok (.decode (d.getLsbD 2) (d.getLsbD 3)) []) ∧
    (d.getLsbD 0 = false →
      decode (.command d) = .ok (.ctrlSet (d.getLsbD 1) (d.getLsbD 2) (d.getLsbD 3)) []) ∧
    decode (.command (d &&& 0xF#32)) = decode (.command d)

/-- R83: bit 7 of a token's first byte alone tells its length; the length byte of a RUN is consumed with its header,
whatever its own bit 7. That a length byte of 0 or 1, an illegal form by R86 b, decodes as a RUN all the same is the
model's choice (log 18), and so is the name of the error at a header with no byte after it, R86 a's illegal form. -/
def Obligations.TokenLengthFromTheTag : Prop :=
  ∀ (b n : Byte) (rest : List Byte),
    decode (.token (b :: n :: rest)) =
      (if tagOf b then .ok (.run (literalOf b) n) rest else .ok (.lit (literalOf b)) (n :: rest)) ∧
    tokenLength b = (if b.getLsbD 7 then 2 else 1) ∧
    (decode (.token [b]) = if tagOf b then .error .truncatedRun else .ok (.lit (literalOf b)) [])

/-- Every well-formed instruction is read back from its encoding, whatever follows it in the stream, and from no
other token bytes: the two encodings lose no operand bit (R81, R82, R90, R91). -/
def Obligations.DecodeOfEncodeIsTheInstruction : Prop :=
  (∀ i : Instr, i.wf = true → decode (encode i) = .ok i []) ∧
  (∀ (i : Instr) (bytes rest : List Byte), i.wf = true → encode i = .token bytes →
    decode (.token (bytes ++ rest)) = .ok i rest) ∧
  (∀ (i : Instr) (bytes rest : List Byte), decode (.token bytes) = .ok i rest →
    ∃ front, encode i = .token front ∧ bytes = front ++ rest) ∧
  ∀ d : Word, encode (decodeCommand d) = .command (d &&& 0xF#32)

/-- A whole stream: the tokens of well-formed LITs and RUNs, laid end to end with no framing, are read back in order
(R83). -/
def Obligations.TokenStreamIsReadBack : Prop :=
  ∀ is : List Instr, (∀ i ∈ is, i.wf = true ∧ ((∃ v, i = .lit v) ∨ ∃ v n, i = .run v n)) →
    tokensOf (tokenBytesOf is).length (tokenBytesOf is) = some is

/-- Some words written out from the encodings of R81, R82 and R91 decode to the instructions they stand for. The last is
no instruction: the byte 0x85 alone is R86 a's illegal form, and its error's name is the model's choice (log 18). -/
def Obligations.SampleWordsDecode : Prop :=
  decode (.command 0x00000005#32) = .ok (.encode true false) [] ∧
  decode (.command 0x0000000F#32) = .ok (.decode true true) [] ∧
  decode (.command 0xFFFFFFFE#32) = .ok (.ctrlSet true true true) [] ∧
  decode (.token [0x7F#8]) = .ok (.lit 0x7F#7) [] ∧
  decode (.token [0x82#8, 0x03#8, 0x03#8]) = .ok (.run 0x02#7 0x03#8) [0x03#8] ∧
  decode (.token [0x85#8]) = .error .truncatedRun

/-! ### The step, and the invariant -/

/-- A step runs the decoded instruction: the word the host writes to CTRL (R91), and, on the engine's turn in a DECODE,
the token at the read cursor (R150), whose bytes are those of the source from the cursor on, and later in that token
the one of its latched bytes (log 14). A turn given to the engine while others wait is the same step (log 1). -/
def Obligations.StepRunsTheDecodedInstruction : Prop :=
  (∀ (s : State) (d : Word) (i : Instr) (rest : List Turn), s.inputs = wr s.platform .ctrl d :: rest →
    decode (.command d) = .ok i [] → step s = exec i { s with inputs := rest }) ∧
  (∀ (s : State) (i : Instr) (after : List Byte), EngineMoves s → s.eng.pt = .decFetch →
    s.eng.r.toNat < s.eng.sl.toNat →
    decode (.token (s.mem.slice (s.eng.sb.toNat + s.eng.r.toNat) (s.eng.sl.toNat - s.eng.r.toNat))) = .ok i after →
    step s = exec i s) ∧
  (∀ (s : State) (i : Instr) (after : List Byte), EngineMoves s →
    (s.eng.pt = .decLit ∨ s.eng.pt = .decLength ∨ s.eng.pt = .decRun) →
    decode (.token (tokenBytes s)) = .ok i after → step s = exec i s) ∧
  ∀ (s t : State) (rest : List Turn), s.inputs = .engine :: rest → s.eng.phase = .running →
    step { s with inputs := [] } = .next t → step s = .next { t with inputs := rest }

/-- The invariant holds after reset. -/
def Obligations.InvariantAfterReset : Prop := State.reset.Inv

/-- Every step keeps the invariant: memory canonical, flags and results in agreement (R24, R32), the parameters latched
while BUSY (R111), and the cursors in bounds at every point of a command (R31, R131, R151, R154, R171). -/
def Obligations.InvariantKeptByEveryStep : Prop :=
  ∀ s t : State, s.Inv → step s = .next t → t.Inv
end

