-- ==== Sys2Proof/Laws/Decode.lean ====
section
/-! SUPPORT. Laws of the two encodings: the fields of the bytes and words the encoder makes, and the bytes a
token is made of. -/

namespace Sys2Proof

@[simp] theorem tagOf_literalByte (v : Literal) : tagOf (literalByte v) = false := by
  simp [tagOf, literalByte]

@[simp] theorem tagOf_headerByte (v : Literal) : tagOf (headerByte v) = true := by
  simp [tagOf, headerByte]

@[simp] theorem literalOf_literalByte (v : Literal) : literalOf (literalByte v) = v := by
  apply BitVec.eq_of_getLsbD_eq
  intro i hi
  simp [literalOf, literalByte, hi]
  omega

@[simp] theorem literalOf_headerByte (v : Literal) : literalOf (headerByte v) = v := by
  apply BitVec.eq_of_getLsbD_eq
  intro i hi
  have : i = 0 ∨ i = 1 ∨ i = 2 ∨ i = 3 ∨ i = 4 ∨ i = 5 ∨ i = 6 := by omega
  rcases this with h | h | h | h | h | h | h <;> subst h <;> simp [literalOf, headerByte]

/-- A byte with tag 0 is the literal token of its value (R81, R84). -/
theorem literalByte_literalOf {b : Byte} (h : tagOf b = false) : literalByte (literalOf b) = b := by
  revert h
  exact (by decide : ∀ b : Byte, tagOf b = false → literalByte (literalOf b) = b) b

/-- A byte with tag 1 is the run header of its value (R82, R84). -/
theorem headerByte_literalOf {b : Byte} (h : tagOf b = true) : headerByte (literalOf b) = b := by
  revert h
  exact (by decide : ∀ b : Byte, tagOf b = true → headerByte (literalOf b) = b) b

/-- The byte a RUN writes is its header without the tag (R84, R153). -/
theorem literalByte_eq_and (b : Byte) : literalByte (literalOf b) = b &&& 0x7F#8 := by
  exact (by decide : ∀ b : Byte, literalByte (literalOf b) = b &&& 0x7F#8) b

/-- The header of a literal byte: its tag set (R85). -/
theorem headerByte_eq_or {b : Byte} (h : tagOf b = false) : headerByte (literalOf b) = b ||| 0x80#8 := by
  revert h
  exact (by decide : ∀ b : Byte, tagOf b = false → headerByte (literalOf b) = b ||| 0x80#8) b

@[simp] theorem tagOf_or (b : Byte) : tagOf (b ||| 0x80#8) = true := by
  simp [tagOf]

/-- Setting and clearing the tag gives the literal back (R85). -/
theorem or_and_literal {b : Byte} (h : tagOf b = false) : (b ||| 0x80#8) &&& 0x7F#8 = b := by
  revert h
  exact (by decide : ∀ b : Byte, tagOf b = false → (b ||| 0x80#8) &&& 0x7F#8 = b) b

@[simp] theorem decodeToken_lit (v : Literal) (rest : List Byte) :
    decodeToken (literalByte v :: rest) = .ok (.lit v) rest := by
  simp [decodeToken]

@[simp] theorem decodeToken_run (v : Literal) (n : Byte) (rest : List Byte) :
    decodeToken (headerByte v :: n :: rest) = .ok (.run v n) rest := by
  simp [decodeToken]

@[simp] theorem decodeToken_truncated (v : Literal) : decodeToken [headerByte v] = .error .truncatedRun := by
  simp [decodeToken]

/-- What the token decoder reads is a LIT or a RUN, from the bytes of that token (R81 to R83). -/
theorem decodeToken_eq_ok {bytes rest : List Byte} {i : Instr} (h : decodeToken bytes = .ok i rest) :
    (∃ v, i = .lit v ∧ bytes = literalByte v :: rest) ∨
      ∃ v n, i = .run v n ∧ bytes = headerByte v :: n :: rest := by
  match bytes with
  | [] => cases h
  | b :: bs =>
    cases hb : tagOf b with
    | false =>
      simp only [decodeToken, hb, Bool.false_eq_true, if_false, Decoded.ok.injEq] at h
      obtain ⟨rfl, rfl⟩ := h
      exact .inl ⟨_, rfl, by rw [literalByte_literalOf hb]⟩
    | true =>
      match bs with
      | [] => simp [decodeToken, hb] at h
      | n :: bs =>
        simp only [decodeToken, hb, if_true, Decoded.ok.injEq] at h
        obtain ⟨rfl, rfl⟩ := h
        exact .inr ⟨_, n, rfl, by rw [headerByte_literalOf hb]⟩

/-- The bits of a command word (R90). -/
theorem commandWord_bits (start op sv dv : Bool) :
    (commandWord start op sv dv).getLsbD 0 = start ∧ (commandWord start op sv dv).getLsbD 1 = op ∧
      (commandWord start op sv dv).getLsbD 2 = sv ∧ (commandWord start op sv dv).getLsbD 3 = dv := by
  revert start op sv dv
  decide

/-- The command word of each command decodes to it (R91). -/
@[simp] theorem decodeCommand_commandWord (start op sv dv : Bool) :
    decodeCommand (commandWord start op sv dv) =
      if start then (if op then .decode sv dv else .encode sv dv) else .ctrlSet op sv dv := by
  revert start op sv dv
  decide

end Sys2Proof
end

