-- ==== Sys2Proof/Laws/Codec.lean ====
section
/-! SUPPORT. Laws of the functional forms of the codec: the recursion of `Enc`, the chunk at the front of an input,
and what `Dec` gives for the token of a chunk. -/

namespace Sys2Proof.Machine

/-! ### Chunks -/

theorem leading_le_length (v : Byte) (xs : List Byte) : leading v xs ≤ xs.length := by
  induction xs with
  | nil => exact Nat.le_refl _
  | cons x xs ih =>
    unfold leading
    split <;> simp only [List.length_cons] <;> omega

/-- The bytes counted by `leading` equal v. -/
theorem leading_getElem? {v : Byte} {xs : List Byte} {i : Nat} (h : i < leading v xs) : xs[i]? = some v := by
  induction xs generalizing i with
  | nil => simp [leading] at h
  | cons x xs ih =>
    unfold leading at h
    split at h
    · rename_i hx
      cases i with
      | zero => simp [hx]
      | succ i => simpa using ih (by omega)
    · omega

/-- The byte after those counted by `leading` differs from v. -/
theorem leading_stop {v : Byte} {xs : List Byte} {c : Byte} (h : xs[leading v xs]? = some c) : c ≠ v := by
  induction xs with
  | nil => simp at h
  | cons x xs ih =>
    unfold leading at h
    split at h
    · exact ih (by simpa using h)
    · rename_i hx
      obtain rfl : x = c := by simpa using h
      exact hx

theorem chunkLength_pos (v : Byte) (xs : List Byte) : 1 ≤ chunkLength (v :: xs) := by
  simp only [chunkLength, Config.maxRun]
  omega

theorem chunkLength_le_cap (xs : List Byte) : chunkLength xs ≤ 255 := by
  cases xs with
  | nil => simp [chunkLength]
  | cons v xs => simp only [chunkLength, Config.maxRun]; omega

theorem chunkLength_le_length (xs : List Byte) : chunkLength xs ≤ xs.length := by
  cases xs with
  | nil => simp [chunkLength]
  | cons v xs =>
    have := leading_le_length v xs
    simp only [chunkLength, Config.maxRun, List.length_cons]
    omega

/-- The bytes of the first chunk are equal (R131). -/
theorem chunkLength_getElem? {v : Byte} {xs : List Byte} {i : Nat} (h : i < chunkLength (v :: xs)) :
    (v :: xs)[i]? = some v := by
  cases i with
  | zero => rfl
  | succ i =>
    simp only [chunkLength] at h
    simpa using leading_getElem? (v := v) (xs := xs) (i := i) (by omega)

/-- A chunk shorter than the cap ends at another byte or at the end (R131). -/
theorem chunkLength_stop {v : Byte} {xs : List Byte} {c : Byte} (h : chunkLength (v :: xs) < 255)
    (hc : (v :: xs)[chunkLength (v :: xs)]? = some c) : c ≠ v := by
  have he : chunkLength (v :: xs) = leading v xs + 1 := by
    simp only [chunkLength, Config.maxRun] at h ⊢
    omega
  rw [he, List.getElem?_cons_succ] at hc
  exact leading_stop hc

/-- The first chunk, as a list. -/
theorem take_chunkLength (v : Byte) (xs : List Byte) :
    (v :: xs).take (chunkLength (v :: xs)) = List.replicate (chunkLength (v :: xs)) v := by
  apply List.ext_getElem?
  intro i
  by_cases hi : i < chunkLength (v :: xs)
  · rw [List.getElem?_take_of_lt hi, chunkLength_getElem? hi, List.getElem?_replicate_of_lt hi]
  · rw [List.getElem?_eq_none (by simp; omega), List.getElem?_eq_none (by simp; omega)]

/-- An input is its first chunk and the rest. -/
theorem chunk_append (v : Byte) (xs : List Byte) :
    v :: xs = List.replicate (chunkLength (v :: xs)) v ++ (v :: xs).drop (chunkLength (v :: xs)) := by
  rw [← take_chunkLength, List.take_append_drop]

/-- How many of P copies of v lead a list that starts with them. -/
theorem leading_replicate (v : Byte) (P : Nat) (xs : List Byte) :
    leading v (List.replicate P v ++ xs) = P + leading v xs := by
  induction P with
  | zero => simp
  | succ P ih => simp only [List.replicate_succ, List.cons_append, leading, if_true, ih]; omega

/-! ### The recursion of `Enc` -/

/-- More fuel than bytes gives nothing more. -/
theorem encFuel_eq {f : Nat} {xs : List Byte} (h : xs.length ≤ f) : encFuel f xs = encFuel xs.length xs := by
  induction f using Nat.strongRecOn generalizing xs with
  | _ f ih =>
    match xs, f with
    | [], 0 => rfl
    | [], _ + 1 => rfl
    | v :: xs, f + 1 =>
      have hp := chunkLength_pos v xs
      simp only [List.length_cons] at h ⊢
      simp only [encFuel]
      congr 1
      have hd : ((v :: xs).drop (chunkLength (v :: xs))).length ≤ xs.length := by simp; omega
      rw [ih f (by omega) (by omega), ih xs.length (by omega) hd]

@[simp] theorem Enc_nil : Enc [] = [] := rfl

/-- `Enc` is the token of the first chunk and `Enc` of the rest (R133). -/
theorem Enc_cons (v : Byte) (xs : List Byte) :
    Enc (v :: xs) = chunkToken v (chunkLength (v :: xs)) ++ Enc ((v :: xs).drop (chunkLength (v :: xs))) := by
  have hp := chunkLength_pos v xs
  unfold Enc
  simp only [List.length_cons, encFuel]
  rw [encFuel_eq]
  simp
  omega

theorem chunkLengthsFuel_eq {f : Nat} {xs : List Byte} (h : xs.length ≤ f) :
    chunkLengthsFuel f xs = chunkLengthsFuel xs.length xs := by
  induction f using Nat.strongRecOn generalizing xs with
  | _ f ih =>
    match xs, f with
    | [], 0 => rfl
    | [], _ + 1 => rfl
    | v :: xs, f + 1 =>
      have hp := chunkLength_pos v xs
      simp only [List.length_cons] at h ⊢
      simp only [chunkLengthsFuel]
      congr 1
      have hd : ((v :: xs).drop (chunkLength (v :: xs))).length ≤ xs.length := by simp; omega
      rw [ih f (by omega) (by omega), ih xs.length (by omega) hd]

@[simp] theorem chunkLengths_nil : chunkLengths [] = [] := rfl

theorem chunkLengths_cons (v : Byte) (xs : List Byte) :
    chunkLengths (v :: xs) =
      chunkLength (v :: xs) :: chunkLengths ((v :: xs).drop (chunkLength (v :: xs))) := by
  have hp := chunkLength_pos v xs
  unfold chunkLengths
  simp only [List.length_cons, chunkLengthsFuel]
  rw [chunkLengthsFuel_eq]
  simp
  omega

/-- A rest of a valid input is one. -/
theorem validInput_drop {xs : List Byte} (n : Nat) (h : validInput xs = true) : validInput (xs.drop n) = true := by
  simp only [validInput, List.all_eq_true] at h ⊢
  exact fun c hc => h c (List.mem_of_mem_drop hc)

theorem validInput_cons {v : Byte} {xs : List Byte} :
    validInput (v :: xs) = true ↔ tagOf v = false ∧ validInput xs = true := by
  simp [validInput]

/-! ### `Dec` -/

@[simp] theorem Dec_nil : Dec [] = .ok [] := by simp [Dec]

@[simp] theorem DecResult.after_zero (R : DecResult) : R.after [] 0 = R := by cases R <;> simp [DecResult.after]

/-- A literal byte decodes to itself (R159). -/
theorem Dec_lit {b : Byte} (h : tagOf b = false) (T : List Byte) : Dec (b :: T) = (Dec T).after [b] 1 := by
  cases T with
  | nil => simp [Dec, h, DecResult.after]
  | cons n T => rw [Dec]; simp [h]

/-- A run decodes to its copies (R159). -/
theorem Dec_run {b n : Byte} (h : tagOf b = true) (hn : 2 ≤ n.toNat) (T : List Byte) :
    Dec (b :: n :: T) = (Dec T).after (List.replicate n.toNat (b &&& 0x7F#8)) 2 := by
  rw [Dec]
  simp [h, Config.minRunToken, Nat.not_lt.2 hn]

/-- A run of length below 2 is malformed (R156, R159). -/
theorem Dec_short {b n : Byte} (h : tagOf b = true) (hn : n.toNat < 2) (T : List Byte) :
    Dec (b :: n :: T) = .err .malformedStream 0 := by
  rw [Dec]
  simp [h, Config.minRunToken, hn]

/-- A run header at the end is malformed (R155, R159). -/
theorem Dec_truncated {b : Byte} (h : tagOf b = true) : Dec [b] = .err .malformedStream 0 := by
  simp [Dec, h]

/-- The token of a chunk decodes to the chunk. -/
theorem Dec_chunkToken {v : Byte} {L : Nat} (h : tagOf v = false) (h1 : 1 ≤ L) (h2 : L ≤ 255) (T : List Byte) :
    Dec (chunkToken v L ++ T) = (Dec T).after (List.replicate L v) (chunkToken v L).length := by
  unfold chunkToken
  split
  · rename_i hL
    subst hL
    simpa using Dec_lit h T
  · have hn : (BitVec.ofNat 8 L).toNat = L := by simp; omega
    simp only [List.cons_append, List.nil_append]
    rw [Dec_run (tagOf_or v) (by omega), hn, or_and_literal h]
    rfl

/-! ### How a command ends -/

/-- The encoding is never longer than its input (R170). -/
theorem Enc_length_le (xs : List Byte) : (Enc xs).length ≤ xs.length := by
  suffices h : ∀ n (xs : List Byte), xs.length ≤ n → (Enc xs).length ≤ xs.length from h _ xs (Nat.le_refl _)
  intro n
  induction n with
  | zero =>
    intro xs h
    obtain rfl := List.length_eq_zero_iff.1 (Nat.le_zero.1 h)
    simp
  | succ n ih =>
    intro xs h
    cases xs with
    | nil => simp
    | cons v xs =>
      have hp := chunkLength_pos v xs
      have hl := chunkLength_le_length (v :: xs)
      have hd := ih ((v :: xs).drop (chunkLength (v :: xs))) (by simp only [List.length_drop]; omega)
      rw [Enc_cons, List.length_append]
      simp only [List.length_drop] at hd
      unfold chunkToken
      split <;> simp only [List.length_cons, List.length_nil] at * <;> omega

theorem encodeEnding_written_le (xs : List Byte) : (encodeEnding xs).written.length ≤ xs.length := by
  unfold encodeEnding
  split
  · exact Enc_length_le xs
  · exact Nat.le_trans (Enc_length_le _) (by simp [List.length_take])

theorem boundedEnding_written_le {T ys : List Byte} {cap : Nat} {fits : Ending} (h : fits.written = ys) :
    (boundedEnding T cap ys fits).written.length ≤ cap := by
  unfold boundedEnding
  split
  · rw [h]; assumption
  · simp [List.length_take]

theorem decodeEnding_written_le (T : List Byte) (cap : Nat) : (decodeEnding T cap).written.length ≤ cap := by
  unfold decodeEnding
  split
  · exact boundedEnding_written_le rfl
  · split
    · exact boundedEnding_written_le rfl
    · exact Nat.zero_le cap

/-- An ending agrees with itself: no length with an error, no error position without one (R185, R186). -/
structure Ending.Agrees (e : Ending) : Prop where
  err_len : e.err ≠ none → e.resultLen = 0
  noErr_pos : e.err = none → e.errPos = 0

theorem encodeEnding_agrees (xs : List Byte) : (encodeEnding xs).Agrees := by
  unfold encodeEnding
  split <;> constructor <;> simp

theorem boundedEnding_agrees (T : List Byte) (cap : Nat) (ys : List Byte) {fits : Ending} (h : fits.Agrees) :
    (boundedEnding T cap ys fits).Agrees := by
  unfold boundedEnding
  split
  · exact h
  · constructor <;> simp

theorem decodeEnding_agrees (T : List Byte) (cap : Nat) : (decodeEnding T cap).Agrees := by
  unfold decodeEnding
  split
  · exact boundedEnding_agrees _ _ _ (by constructor <;> simp)
  · split
    · exact boundedEnding_agrees _ _ _ (by constructor <;> simp)
    · constructor <;> simp

end Sys2Proof.Machine
end

