-- ==== Sys2Proof/Laws/Memory.lean ====
section
/-! SUPPORT. Laws of the engine memory space: a read after a write, the canonical form, and equal reads. -/

namespace Sys2Proof.Machine

@[simp] theorem Memory.read_nil (a : Nat) : Memory.read [] a = memDefault := rfl

/-- In a canonical memory an address below every listed one reads as the default. -/
theorem Memory.read_below {m : Memory} {lo a : Nat} (hm : Memory.wfFrom lo m = true) (ha : a < lo) :
    Memory.read m a = memDefault := by
  induction m generalizing lo with
  | nil => rfl
  | cons c m ih =>
    obtain ⟨b, u⟩ := c
    simp only [Memory.wfFrom, Bool.and_eq_true, decide_eq_true_eq] at hm
    have hne : a ≠ b := by omega
    simp only [Memory.read, if_neg hne]
    exact ih hm.2 (by omega)

/-- A canonical form from a higher address on is one from a lower address on. -/
theorem Memory.wfFrom_mono {m : Memory} {lo lo' : Nat} (hm : Memory.wfFrom lo m = true) (h : lo' ≤ lo) :
    Memory.wfFrom lo' m = true := by
  cases m with
  | nil => rfl
  | cons c m =>
    obtain ⟨b, u⟩ := c
    simp only [Memory.wfFrom, Bool.and_eq_true, decide_eq_true_eq] at hm ⊢
    exact ⟨⟨⟨by omega, hm.1.1.2⟩, hm.1.2⟩, hm.2⟩

theorem Memory.write_wfFrom {m : Memory} {lo a : Nat} (v : Byte) (hm : Memory.wfFrom lo m = true)
    (hlo : lo ≤ a) (ha : a < Config.memBytes) : Memory.wfFrom lo (Memory.write m a v) = true := by
  induction m generalizing lo with
  | nil =>
    by_cases hv : v = memDefault
    · simp [Memory.write, hv, Memory.wfFrom]
    · simp [Memory.write, hv, Memory.wfFrom, hlo, ha]
  | cons c m ih =>
    obtain ⟨b, u⟩ := c
    have h := hm
    simp only [Memory.wfFrom, Bool.and_eq_true, decide_eq_true_eq] at h
    obtain ⟨⟨⟨hb, hbm⟩, hu⟩, hrest⟩ := h
    rcases Nat.lt_trichotomy a b with hab | hab | hab
    · by_cases hv : v = memDefault
      · simpa [Memory.write, hab, hv] using hm
      · have hcons : Memory.wfFrom (a + 1) ((b, u) :: m) = true := by
          simp [Memory.wfFrom, hbm, hu, hrest]; omega
        simp [Memory.write, hab, hv, Memory.wfFrom, hlo, ha] at hcons ⊢
        simpa using hcons
    · subst hab
      by_cases hv : v = memDefault
      · simpa [Memory.write, hv] using Memory.wfFrom_mono hrest (by omega)
      · simp [Memory.write, hv, Memory.wfFrom, hlo, ha, hrest]
    · have h1 : ¬ a < b := by omega
      have h2 : a ≠ b := by omega
      simp [Memory.write, h1, h2, Memory.wfFrom, hb, hbm, hu, ih hrest (by omega)]

/-- A write inside the space keeps the canonical form. -/
theorem Memory.write_wf {m : Memory} {a : Nat} (v : Byte) (hm : m.wf = true) (ha : a < Config.memBytes) :
    (m.write a v).wf = true :=
  Memory.write_wfFrom v hm (Nat.zero_le _) ha

theorem Memory.read_write_from {m : Memory} {lo : Nat} (a : Nat) (v : Byte) (x : Nat)
    (hm : Memory.wfFrom lo m = true) :
    Memory.read (Memory.write m a v) x = if x = a then v else Memory.read m x := by
  induction m generalizing lo with
  | nil =>
    by_cases hv : v = memDefault
    · by_cases hx : x = a <;> simp [Memory.write, hv, hx]
    · by_cases hx : x = a <;> simp [Memory.write, hv, hx, Memory.read]
  | cons c m ih =>
    obtain ⟨b, u⟩ := c
    have h := hm
    simp only [Memory.wfFrom, Bool.and_eq_true, decide_eq_true_eq] at h
    obtain ⟨-, hrest⟩ := h
    rcases Nat.lt_trichotomy a b with hab | hab | hab
    · have hread : Memory.read ((b, u) :: m) a = memDefault := by
        have hne : a ≠ b := by omega
        simpa [Memory.read, hne] using Memory.read_below hrest (by omega)
      by_cases hv : v = memDefault
      · by_cases hx : x = a
        · subst hx; simp [Memory.write, hab, hv, hread]
        · simp [Memory.write, hab, hv, hx]
      · by_cases hx : x = a <;> simp [Memory.write, hab, hv, hx, Memory.read]
    · subst hab
      by_cases hv : v = memDefault
      · by_cases hx : x = a
        · subst hx; simpa [Memory.write, hv] using Memory.read_below hrest (Nat.lt_succ_self _)
        · simp [Memory.write, hv, hx, Memory.read]
      · by_cases hx : x = a <;> simp [Memory.write, hv, hx, Memory.read]
    · have h1 : ¬ a < b := by omega
      have h2 : a ≠ b := by omega
      simp only [Memory.write, h1, h2, if_false, Memory.read]
      rw [ih hrest]
      by_cases hxb : x = b
      · have : x ≠ a := by omega
        simp [hxb]; omega
      · simp [hxb]

/-- A write changes the byte at its address and no other (R53). -/
theorem Memory.read_write {m : Memory} (a : Nat) (v : Byte) (x : Nat) (hm : m.wf = true) :
    (m.write a v).read x = if x = a then v else m.read x :=
  Memory.read_write_from a v x hm

/-- The read after a write of the same address gives the value written (R61). -/
theorem Memory.read_write_same {m : Memory} (a : Nat) (v : Byte) (hm : m.wf = true) :
    (m.write a v).read a = v := by
  simp [Memory.read_write a v a hm]

/-- A write leaves every other address alone (R53). -/
theorem Memory.read_write_other {m : Memory} {a x : Nat} (v : Byte) (hm : m.wf = true) (h : x ≠ a) :
    (m.write a v).read x = m.read x := by
  simp [Memory.read_write a v x hm, h]

theorem Memory.ext_from {m m' : Memory} {lo : Nat} (hm : Memory.wfFrom lo m = true)
    (hm' : Memory.wfFrom lo m' = true) (h : ∀ a, lo ≤ a → m.read a = m'.read a) : m = m' := by
  induction m generalizing lo m' with
  | nil =>
    cases m' with
    | nil => rfl
    | cons c m' =>
      obtain ⟨b, u⟩ := c
      simp only [Memory.wfFrom, Bool.and_eq_true, decide_eq_true_eq] at hm'
      have hb := h b hm'.1.1.1
      simp only [Memory.read, if_true] at hb
      exact absurd hb.symm hm'.1.2
  | cons c m ih =>
    obtain ⟨b, u⟩ := c
    have hw := hm
    simp only [Memory.wfFrom, Bool.and_eq_true, decide_eq_true_eq] at hw
    obtain ⟨⟨⟨hb, -⟩, hu⟩, hrest⟩ := hw
    cases m' with
    | nil =>
      have hr := h b hb
      simp only [Memory.read, if_true] at hr
      exact absurd hr hu
    | cons c' m' =>
      obtain ⟨b', u'⟩ := c'
      have hw' := hm'
      simp only [Memory.wfFrom, Bool.and_eq_true, decide_eq_true_eq] at hw'
      obtain ⟨⟨⟨hb', -⟩, hu'⟩, hrest'⟩ := hw'
      have hbb : b = b' := by
        rcases Nat.lt_trichotomy b b' with hlt | heq | hlt
        · have hr := h b hb
          have hne : b ≠ b' := by omega
          simp only [Memory.read, if_true, if_neg hne] at hr
          exact absurd (hr.trans (Memory.read_below hrest' (by omega))) hu
        · exact heq
        · have hr := h b' hb'
          have hne : b' ≠ b := by omega
          simp only [Memory.read, if_true, if_neg hne] at hr
          exact absurd (hr.symm.trans (Memory.read_below hrest (by omega))) hu'
      subst hbb
      have huu : u = u' := by simpa [Memory.read] using h b hb
      subst huu
      have htail : m = m' := ih hrest hrest' fun a ha => by
        have hr := h a (by omega)
        have hne : a ≠ b := by omega
        simpa [Memory.read, hne] using hr
      rw [htail]

/-- The form is canonical: two memories that read alike everywhere are the same list. -/
theorem Memory.ext {m m' : Memory} (hm : m.wf = true) (hm' : m'.wf = true) (h : ∀ a, m.read a = m'.read a) :
    m = m' :=
  Memory.ext_from hm hm' fun a _ => h a

/-- Making bytes inside the space free keeps the canonical form. -/
theorem Memory.scramble_wf {m : Memory} {base n : Nat} (t : Nat) (hm : m.wf = true)
    (h : base + n ≤ Config.memBytes) : (m.scramble base t n).wf = true := by
  induction n with
  | zero => exact hm
  | succ n ih => exact Memory.write_wf _ (ih (by omega)) (by omega)

/-- What a read gives after the n bytes from `base` on were made free. -/
theorem Memory.read_scramble {m : Memory} {base n : Nat} (t x : Nat) (hm : m.wf = true)
    (h : base + n ≤ Config.memBytes) :
    (m.scramble base t n).read x =
      if base ≤ x ∧ x < base + n then Config.freeByte (t + (x - base)) else m.read x := by
  induction n with
  | zero => simp [Memory.scramble]
  | succ n ih =>
    rw [Memory.scramble, Memory.read_write _ _ _ (Memory.scramble_wf t hm (by omega)), ih (by omega)]
    by_cases hx : x = base + n
    · subst hx; simp
    · have : (base ≤ x ∧ x < base + (n + 1)) ↔ (base ≤ x ∧ x < base + n) := by omega
      simp [hx, this]

/-- Writing bytes inside the space keeps the canonical form. -/
theorem Memory.writeAll_wf {m : Memory} {base : Nat} (vs : List Byte) (hm : m.wf = true)
    (h : base + vs.length ≤ Config.memBytes) : (m.writeAll base vs).wf = true := by
  induction vs generalizing m base with
  | nil => exact hm
  | cons v vs ih =>
    simp only [List.length_cons] at h
    exact ih (Memory.write_wf v hm (by omega)) (by omega)

/-- What a read gives after bytes were written from `base` on. -/
theorem Memory.read_writeAll {m : Memory} {base : Nat} (vs : List Byte) (x : Nat) (hm : m.wf = true)
    (h : base + vs.length ≤ Config.memBytes) :
    (m.writeAll base vs).read x =
      if base ≤ x ∧ x < base + vs.length then vs.getD (x - base) 0 else m.read x := by
  induction vs generalizing m base with
  | nil => simp [Memory.writeAll]
  | cons v vs ih =>
    simp only [List.length_cons] at h
    rw [Memory.writeAll, ih (Memory.write_wf v hm (by omega)) (by omega), Memory.read_write _ _ _ hm]
    rcases Nat.lt_trichotomy x base with hx | hx | hx
    · rw [if_neg (by omega), if_neg (by omega), if_neg (by omega)]
    · subst hx
      rw [if_neg (by omega), if_pos rfl, if_pos (by simp)]
      simp
    · by_cases hl : x < base + (vs.length + 1)
      · rw [if_pos (by omega), if_pos (by simp only [List.length_cons]; omega)]
        rw [show x - base = (x - (base + 1)) + 1 by omega, List.getD_cons_succ]
      · rw [if_neg (by omega), if_neg (by omega), if_neg (by simp only [List.length_cons]; omega)]

/-- Free bytes at addresses inside the space keep the canonical form. -/
theorem Memory.scatter_wf {m : Memory} (t : Nat) {as : List Nat} (hm : m.wf = true)
    (h : ∀ a ∈ as, a < Config.memBytes) : (m.scatter t as).wf = true := by
  induction as generalizing t with
  | nil => exact hm
  | cons a as ih =>
    exact Memory.write_wf _ (ih (t + 1) fun b hb => h b (List.mem_cons_of_mem a hb)) (h a List.mem_cons_self)

/-- An address of the list reads one of the free bytes. -/
theorem Memory.read_scatter_mem {m : Memory} (t : Nat) {as : List Nat} {x : Nat} (hm : m.wf = true)
    (h : ∀ a ∈ as, a < Config.memBytes) (hx : x ∈ as) :
    ∃ i, (m.scatter t as).read x = Config.freeByte i ∧ t ≤ i ∧ i < t + as.length := by
  induction as generalizing t with
  | nil => cases hx
  | cons a as ih =>
    have ht : ∀ b ∈ as, b < Config.memBytes := fun b hb => h b (List.mem_cons_of_mem a hb)
    rw [Memory.scatter, Memory.read_write _ _ _ (Memory.scatter_wf (t + 1) hm ht)]
    by_cases hxa : x = a
    · exact ⟨t, by rw [if_pos hxa], Nat.le_refl t, by simp⟩
    · obtain ⟨i, h1, h2, h3⟩ := ih (t + 1) ht ((List.mem_cons.1 hx).resolve_left hxa)
      exact ⟨i, by rw [if_neg hxa, h1], by omega, by simp only [List.length_cons]; omega⟩

/-- Any other address reads as before. -/
theorem Memory.read_scatter_other {m : Memory} (t : Nat) {as : List Nat} {x : Nat} (hm : m.wf = true)
    (h : ∀ a ∈ as, a < Config.memBytes) (hx : x ∉ as) : (m.scatter t as).read x = m.read x := by
  induction as generalizing t with
  | nil => rfl
  | cons a as ih =>
    have ht : ∀ b ∈ as, b < Config.memBytes := fun b hb => h b (List.mem_cons_of_mem a hb)
    rw [Memory.scatter, Memory.read_write_other _ (Memory.scatter_wf (t + 1) hm ht) fun he =>
      hx (List.mem_cons.2 (.inl he))]
    exact ih (t + 1) ht fun hb => hx (List.mem_cons_of_mem a hb)

@[simp] theorem Memory.length_slice (m : Memory) (a n : Nat) : (m.slice a n).length = n := by
  induction n generalizing a with
  | zero => rfl
  | succ n ih => simp [Memory.slice, ih]

/-- The byte at index i of a slice is the byte at that offset. -/
theorem Memory.getElem?_slice (m : Memory) (a n i : Nat) (h : i < n) :
    (m.slice a n)[i]? = some (m.read (a + i)) := by
  induction n generalizing a i with
  | zero => omega
  | succ n ih =>
    cases i with
    | zero => simp [Memory.slice]
    | succ i => simpa [Memory.slice, Nat.add_assoc, Nat.add_comm, Nat.add_left_comm] using ih (a + 1) i (by omega)

/-- Slices are equal exactly when the bytes read are. -/
theorem Memory.slice_congr {m m' : Memory} {a a' n : Nat} (h : ∀ i, i < n → m.read (a + i) = m'.read (a' + i)) :
    m.slice a n = m'.slice a' n := by
  induction n generalizing a a' with
  | zero => rfl
  | succ n ih =>
    have h0 := h 0 (by omega)
    simp only [Nat.add_zero] at h0
    simp only [Memory.slice, h0, List.cons.injEq, true_and]
    exact ih fun i hi => by simpa [Nat.add_assoc, Nat.add_comm, Nat.add_left_comm] using h (i + 1) (by omega)

/-- The rest of a slice is the slice from there on. -/
theorem Memory.slice_drop (m : Memory) (a n k : Nat) : (m.slice a n).drop k = m.slice (a + k) (n - k) := by
  apply List.ext_getElem?
  intro i
  rw [List.getElem?_drop]
  by_cases h : i < n - k
  · rw [Memory.getElem?_slice _ _ _ _ h, Memory.getElem?_slice _ _ _ _ (by omega), Nat.add_assoc]
  · rw [List.getElem?_eq_none (by simp; omega), List.getElem?_eq_none (by simp; omega)]

end Sys2Proof.Machine
end

