-- ==== Sys2Proof/Laws/Operands.lean ====
section
/-! SUPPORT. Laws of the operand forms: cursors below their bounds do not wrap (R8), what valid handles give
(R116 to R118), and the register at each offset. -/

namespace Sys2Proof.Machine

/-- A cursor that stays below 2^32 moves on without a wrap (R8). -/
theorem advance_toNat {c : Word} {n : Nat} (h : c.toNat + n < 4294967296) : (advance c n).toNat = c.toNat + n := by
  simpa [advance, BitVec.toNat_ofNat] using Nat.mod_eq_of_lt h

@[simp] theorem advance_zero (c : Word) : advance c 0 = c := by simp [advance]

/-- Two moves of a cursor are one. -/
@[simp] theorem advance_advance (c : Word) (m n : Nat) : advance (advance c m) n = advance c (m + n) := by
  apply BitVec.eq_of_toNat_eq
  simp only [advance, BitVec.toNat_ofNat, Nat.mod_add_mod, Nat.add_assoc]

/-- The cursor as the word of a natural number. -/
theorem advance_eq_ofNat (c : Word) (n : Nat) : advance c n = BitVec.ofNat 32 (c.toNat + n) := rfl

theorem inRange_iff (base len : Word) : inRange base len = true ↔ base.toNat + len.toNat ≤ 4294967296 := by
  simp only [inRange, decide_eq_true_eq]
  rfl

theorem inRegion_iff (base len : Word) (a : Nat) :
    inRegion base len a = true ↔ base.toNat ≤ a ∧ a < base.toNat + len.toNat := by
  simp [inRegion]

theorem overlap_eq_false_iff (sb sl db dc : Word) :
    overlap sb sl db dc = false ↔
      (0 < sl.toNat → 0 < dc.toNat → sb.toNat < db.toNat + dc.toNat → sb.toNat + sl.toNat ≤ db.toNat) := by
  simp [overlap]

theorem encodeHandlesOk_iff (e : Eng) :
    encodeHandlesOk e = true ↔ e.sv = true ∧ e.sb.toNat + e.sl.toNat ≤ 4294967296 := by
  simp [encodeHandlesOk, inRange_iff]

theorem decodeHandlesOk_iff (e : Eng) :
    decodeHandlesOk e = true ↔
      e.sv = true ∧ e.dv = true ∧ e.sb.toNat + e.sl.toNat ≤ 4294967296 ∧
        e.db.toNat + e.dc.toNat ≤ 4294967296 ∧ overlap e.sb e.sl e.db e.dc = false := by
  simp [decodeHandlesOk, inRange_iff, and_assoc]

theorem handlesOk_encode {e : Eng} (h : e.op = false) : handlesOk e = encodeHandlesOk e := by simp [handlesOk, h]
theorem handlesOk_decode {e : Eng} (h : e.op = true) : handlesOk e = decodeHandlesOk e := by simp [handlesOk, h]

/-- Valid handles of a DECODE: no address is in both regions (R118). -/
theorem decodeHandles_disjoint {e : Eng} (h : decodeHandlesOk e = true) (a : Nat) :
    ¬ (inRegion e.sb e.sl a = true ∧ inRegion e.db e.dc a = true) := by
  rw [decodeHandlesOk_iff] at h
  have ho := (overlap_eq_false_iff _ _ _ _).1 h.2.2.2.2
  rw [inRegion_iff, inRegion_iff]
  omega

/-- The output region of a command with valid handles is in range (R116). -/
theorem output_inRange {e : Eng} (h : handlesOk e = true) :
    e.outputBase.toNat + e.outputLen.toNat ≤ Config.memBytes := by
  unfold Eng.outputBase Eng.outputLen
  cases hop : e.op with
  | true =>
    rw [handlesOk_decode hop, decodeHandlesOk_iff] at h
    exact h.2.2.2.1
  | false =>
    rw [handlesOk_encode hop, encodeHandlesOk_iff] at h
    exact h.2

/-- The register at a register's own offset (R22). -/
@[simp] theorem regAt_offset (g : Reg) : regAt g.offset = some g := by cases g <;> rfl

/-- An offset that names a register is that register's (R22). -/
theorem regAt_eq_some {o : Nat} {g : Reg} (h : regAt o = some g) : o = g.offset := by
  unfold regAt at h
  split at h <;> first | (cases h; rfl) | exact absurd h (by simp)

/-- Every aligned offset of the window holds a register (R22). -/
theorem regAt_aligned {o : Nat} (h : o < 32) (h4 : o % 4 = 0) : ∃ g, regAt o = some g := by
  have : o = 0 ∨ o = 4 ∨ o = 8 ∨ o = 12 ∨ o = 16 ∨ o = 20 ∨ o = 24 ∨ o = 28 := by omega
  rcases this with h | h | h | h | h | h | h | h <;> subst h <;> exact ⟨_, rfl⟩

/-- An access to a register at its own address and of 32 bits is admitted (R110). -/
@[simp] theorem admit_offset (p : Platform) (g : Reg) : admission p (p.regBase + g.offset) Config.hostWidth = some g := by
  have h : g.offset < 32 := by cases g <;> decide
  simp [admission, inWindow, Config.windowBytes, h]

/-- An access is admitted exactly under the three conditions of R110. -/
theorem admit_eq_none_iff (p : Platform) (addr width : Nat) :
    admission p addr width = none ↔
      ¬ (p.regBase ≤ addr ∧ addr < p.regBase + 32 ∧ (addr - p.regBase) % 4 = 0 ∧ width = 32) := by
  constructor
  · rintro h ⟨h1, h2, h3, h4⟩
    obtain ⟨g, hg⟩ := regAt_aligned (o := addr - p.regBase) (by omega) h3
    simp [admission, inWindow, Config.windowBytes, Config.hostWidth, h1, h2, h4, hg] at h
  · intro h
    cases ha : admission p addr width with
    | none => rfl
    | some g =>
      exfalso
      unfold admission at ha
      split at ha
      · rename_i hc
        simp only [inWindow, Bool.and_eq_true, decide_eq_true_eq] at hc
        have ho := regAt_eq_some ha
        have h4 : g.offset % 4 = 0 := by cases g <;> rfl
        exact h ⟨hc.1.1, hc.1.2, by omega, hc.2⟩
      · cases ha

/-- An admitted access is to the register at its offset (R110). -/
theorem admit_eq_some {p : Platform} {addr width : Nat} {g : Reg} (h : admission p addr width = some g) :
    addr = p.regBase + g.offset ∧ width = 32 := by
  unfold admission at h
  split at h
  · rename_i hc
    simp only [inWindow, Bool.and_eq_true, decide_eq_true_eq] at hc
    have ho := regAt_eq_some h
    exact ⟨by omega, hc.2⟩
  · cases h

end Sys2Proof.Machine
end

