-- ==== Sys2Proof/Laws/State.lean ====
section
/-! SUPPORT. The fields of the state after each shared update, one lemma a field, true by rfl. -/

namespace Sys2Proof.Machine

/-! ### `State.goto` -/

@[simp] theorem State.goto_ctrl (s : State) (p : Point) : (s.goto p).ctrl = s.ctrl := rfl
@[simp] theorem State.goto_status (s : State) (p : Point) : (s.goto p).status = s.status := rfl
@[simp] theorem State.goto_srcBase (s : State) (p : Point) : (s.goto p).srcBase = s.srcBase := rfl
@[simp] theorem State.goto_srcLen (s : State) (p : Point) : (s.goto p).srcLen = s.srcLen := rfl
@[simp] theorem State.goto_dstBase (s : State) (p : Point) : (s.goto p).dstBase = s.dstBase := rfl
@[simp] theorem State.goto_dstCap (s : State) (p : Point) : (s.goto p).dstCap = s.dstCap := rfl
@[simp] theorem State.goto_resultLen (s : State) (p : Point) : (s.goto p).resultLen = s.resultLen := rfl
@[simp] theorem State.goto_errPos (s : State) (p : Point) : (s.goto p).errPos = s.errPos := rfl
@[simp] theorem State.goto_eng (s : State) (p : Point) : (s.goto p).eng = { s.eng with pt := p } := rfl
@[simp] theorem State.goto_mem (s : State) (p : Point) : (s.goto p).mem = s.mem := rfl
@[simp] theorem State.goto_platform (s : State) (p : Point) : (s.goto p).platform = s.platform := rfl
@[simp] theorem State.goto_inputs (s : State) (p : Point) : (s.goto p).inputs = s.inputs := rfl
@[simp] theorem State.goto_bus (s : State) (p : Point) : (s.goto p).bus = s.bus := rfl
@[simp] theorem State.goto_fresh (s : State) (p : Point) : (s.goto p).fresh = s.fresh := rfl
@[simp] theorem State.goto_racedBytes (s : State) (p : Point) : (s.goto p).racedBytes = s.racedBytes := rfl

/-! ### `State.complete` -/

@[simp] theorem State.complete_ctrl (s : State) (len : Word) : (s.complete len).ctrl = s.ctrl := rfl
@[simp] theorem State.complete_status (s : State) (len : Word) :
    (s.complete len).status = flagsComplete := rfl
@[simp] theorem State.complete_srcBase (s : State) (len : Word) : (s.complete len).srcBase = s.srcBase := rfl
@[simp] theorem State.complete_srcLen (s : State) (len : Word) : (s.complete len).srcLen = s.srcLen := rfl
@[simp] theorem State.complete_dstBase (s : State) (len : Word) : (s.complete len).dstBase = s.dstBase := rfl
@[simp] theorem State.complete_dstCap (s : State) (len : Word) : (s.complete len).dstCap = s.dstCap := rfl
@[simp] theorem State.complete_resultLen (s : State) (len : Word) : (s.complete len).resultLen = len := rfl
@[simp] theorem State.complete_errPos (s : State) (len : Word) : (s.complete len).errPos = 0 := rfl
@[simp] theorem State.complete_eng (s : State) (len : Word) :
    (s.complete len).eng = Eng.unspecified s.fresh := rfl
@[simp] theorem State.complete_mem (s : State) (len : Word) : (s.complete len).mem = s.mem := rfl
@[simp] theorem State.complete_platform (s : State) (len : Word) :
    (s.complete len).platform = s.platform := rfl
@[simp] theorem State.complete_inputs (s : State) (len : Word) : (s.complete len).inputs = s.inputs := rfl
@[simp] theorem State.complete_bus (s : State) (len : Word) : (s.complete len).bus = s.bus := rfl
@[simp] theorem State.complete_fresh (s : State) (len : Word) :
    (s.complete len).fresh = s.fresh + engFreeValues := rfl
@[simp] theorem State.complete_racedBytes (s : State) (len : Word) :
    (s.complete len).racedBytes = s.racedBytes := rfl

/-! ### `State.raise` -/

@[simp] theorem State.raise_ctrl (s : State) (e : ErrorKind) (pos : Word) :
    (s.raise e pos).ctrl = s.ctrl := rfl
@[simp] theorem State.raise_status (s : State) (e : ErrorKind) (pos : Word) :
    (s.raise e pos).status = flagsError e := rfl
@[simp] theorem State.raise_srcBase (s : State) (e : ErrorKind) (pos : Word) :
    (s.raise e pos).srcBase = s.srcBase := rfl
@[simp] theorem State.raise_srcLen (s : State) (e : ErrorKind) (pos : Word) :
    (s.raise e pos).srcLen = s.srcLen := rfl
@[simp] theorem State.raise_dstBase (s : State) (e : ErrorKind) (pos : Word) :
    (s.raise e pos).dstBase = s.dstBase := rfl
@[simp] theorem State.raise_dstCap (s : State) (e : ErrorKind) (pos : Word) :
    (s.raise e pos).dstCap = s.dstCap := rfl
@[simp] theorem State.raise_resultLen (s : State) (e : ErrorKind) (pos : Word) :
    (s.raise e pos).resultLen = 0 := rfl
@[simp] theorem State.raise_errPos (s : State) (e : ErrorKind) (pos : Word) :
    (s.raise e pos).errPos = pos := rfl
@[simp] theorem State.raise_eng (s : State) (e : ErrorKind) (pos : Word) :
    (s.raise e pos).eng = Eng.unspecified s.fresh := rfl
@[simp] theorem State.raise_mem (s : State) (e : ErrorKind) (pos : Word) : (s.raise e pos).mem = s.mem := rfl
@[simp] theorem State.raise_platform (s : State) (e : ErrorKind) (pos : Word) :
    (s.raise e pos).platform = s.platform := rfl
@[simp] theorem State.raise_inputs (s : State) (e : ErrorKind) (pos : Word) :
    (s.raise e pos).inputs = s.inputs := rfl
@[simp] theorem State.raise_bus (s : State) (e : ErrorKind) (pos : Word) : (s.raise e pos).bus = s.bus := rfl
@[simp] theorem State.raise_fresh (s : State) (e : ErrorKind) (pos : Word) :
    (s.raise e pos).fresh = s.fresh + engFreeValues := rfl
@[simp] theorem State.raise_racedBytes (s : State) (e : ErrorKind) (pos : Word) :
    (s.raise e pos).racedBytes = s.racedBytes := rfl

/-! ### `State.start` -/

@[simp] theorem State.start_ctrl (s : State) (op sv dv : Bool) : (s.start op sv dv).ctrl = ⟨op, sv, dv⟩ := rfl
@[simp] theorem State.start_status (s : State) (op sv dv : Bool) :
    (s.start op sv dv).status = flagsStarted := rfl
@[simp] theorem State.start_srcBase (s : State) (op sv dv : Bool) :
    (s.start op sv dv).srcBase = s.srcBase := rfl
@[simp] theorem State.start_srcLen (s : State) (op sv dv : Bool) : (s.start op sv dv).srcLen = s.srcLen := rfl
@[simp] theorem State.start_dstBase (s : State) (op sv dv : Bool) :
    (s.start op sv dv).dstBase = s.dstBase := rfl
@[simp] theorem State.start_dstCap (s : State) (op sv dv : Bool) : (s.start op sv dv).dstCap = s.dstCap := rfl
@[simp] theorem State.start_resultLen (s : State) (op sv dv : Bool) : (s.start op sv dv).resultLen = 0 := rfl
@[simp] theorem State.start_errPos (s : State) (op sv dv : Bool) : (s.start op sv dv).errPos = 0 := rfl
@[simp] theorem State.start_eng (s : State) (op sv dv : Bool) :
    (s.start op sv dv).eng = { s.eng with
        phase := .running, pt := .handleCheck, op := op, sv := sv, dv := dv,
        sb := s.srcBase, sl := s.srcLen, db := s.dstBase, dc := s.dstCap } := rfl
@[simp] theorem State.start_mem (s : State) (op sv dv : Bool) : (s.start op sv dv).mem = s.mem := rfl
@[simp] theorem State.start_platform (s : State) (op sv dv : Bool) :
    (s.start op sv dv).platform = s.platform := rfl
@[simp] theorem State.start_inputs (s : State) (op sv dv : Bool) : (s.start op sv dv).inputs = s.inputs := rfl
@[simp] theorem State.start_bus (s : State) (op sv dv : Bool) : (s.start op sv dv).bus = s.bus := rfl
@[simp] theorem State.start_fresh (s : State) (op sv dv : Bool) : (s.start op sv dv).fresh = s.fresh := rfl
@[simp] theorem State.start_racedBytes (s : State) (op sv dv : Bool) :
    (s.start op sv dv).racedBytes = [] := rfl

/-! ### `State.resetEvent` -/

@[simp] theorem State.resetEvent_ctrl (s : State) : (s.resetEvent).ctrl = ⟨false, false, false⟩ := rfl
@[simp] theorem State.resetEvent_status (s : State) : (s.resetEvent).status = flagsReset := rfl
@[simp] theorem State.resetEvent_srcBase (s : State) : (s.resetEvent).srcBase = 0 := rfl
@[simp] theorem State.resetEvent_srcLen (s : State) : (s.resetEvent).srcLen = 0 := rfl
@[simp] theorem State.resetEvent_dstBase (s : State) : (s.resetEvent).dstBase = 0 := rfl
@[simp] theorem State.resetEvent_dstCap (s : State) : (s.resetEvent).dstCap = 0 := rfl
@[simp] theorem State.resetEvent_resultLen (s : State) : (s.resetEvent).resultLen = 0 := rfl
@[simp] theorem State.resetEvent_errPos (s : State) : (s.resetEvent).errPos = 0 := rfl
@[simp] theorem State.resetEvent_eng (s : State) :
    (s.resetEvent).eng = Eng.unspecified (s.fresh + s.abandoned.2) := rfl
@[simp] theorem State.resetEvent_mem (s : State) :
    (s.resetEvent).mem = s.mem.scramble s.abandoned.1 s.fresh s.abandoned.2 := rfl
@[simp] theorem State.resetEvent_platform (s : State) : (s.resetEvent).platform = s.platform := rfl
@[simp] theorem State.resetEvent_inputs (s : State) : (s.resetEvent).inputs = s.inputs := rfl
@[simp] theorem State.resetEvent_bus (s : State) : (s.resetEvent).bus = s.bus := rfl
@[simp] theorem State.resetEvent_fresh (s : State) :
    (s.resetEvent).fresh = s.fresh + s.abandoned.2 + engFreeValues := rfl
@[simp] theorem State.resetEvent_racedBytes (s : State) : (s.resetEvent).racedBytes = [] := rfl

/-! ### `State.emit` -/

@[simp] theorem State.emit_ctrl (s : State) (v : Byte) : (s.emit v).ctrl = s.ctrl := rfl
@[simp] theorem State.emit_status (s : State) (v : Byte) : (s.emit v).status = s.status := rfl
@[simp] theorem State.emit_srcBase (s : State) (v : Byte) : (s.emit v).srcBase = s.srcBase := rfl
@[simp] theorem State.emit_srcLen (s : State) (v : Byte) : (s.emit v).srcLen = s.srcLen := rfl
@[simp] theorem State.emit_dstBase (s : State) (v : Byte) : (s.emit v).dstBase = s.dstBase := rfl
@[simp] theorem State.emit_dstCap (s : State) (v : Byte) : (s.emit v).dstCap = s.dstCap := rfl
@[simp] theorem State.emit_resultLen (s : State) (v : Byte) : (s.emit v).resultLen = s.resultLen := rfl
@[simp] theorem State.emit_errPos (s : State) (v : Byte) : (s.emit v).errPos = s.errPos := rfl
@[simp] theorem State.emit_eng (s : State) (v : Byte) :
    (s.emit v).eng = { s.eng with w := advance s.eng.w 1 } := rfl
@[simp] theorem State.emit_mem (s : State) (v : Byte) : (s.emit v).mem = s.mem.write (writeAddress s) v := rfl
@[simp] theorem State.emit_platform (s : State) (v : Byte) : (s.emit v).platform = s.platform := rfl
@[simp] theorem State.emit_inputs (s : State) (v : Byte) : (s.emit v).inputs = s.inputs := rfl
@[simp] theorem State.emit_bus (s : State) (v : Byte) : (s.emit v).bus = s.bus := rfl
@[simp] theorem State.emit_fresh (s : State) (v : Byte) : (s.emit v).fresh = s.fresh := rfl
@[simp] theorem State.emit_racedBytes (s : State) (v : Byte) : (s.emit v).racedBytes = s.racedBytes := rfl

/-! ### `State.freeAt` -/

@[simp] theorem State.freeAt_ctrl (s : State) (a : Nat) : (s.freeAt a).ctrl = s.ctrl := rfl
@[simp] theorem State.freeAt_status (s : State) (a : Nat) : (s.freeAt a).status = s.status := rfl
@[simp] theorem State.freeAt_srcBase (s : State) (a : Nat) : (s.freeAt a).srcBase = s.srcBase := rfl
@[simp] theorem State.freeAt_srcLen (s : State) (a : Nat) : (s.freeAt a).srcLen = s.srcLen := rfl
@[simp] theorem State.freeAt_dstBase (s : State) (a : Nat) : (s.freeAt a).dstBase = s.dstBase := rfl
@[simp] theorem State.freeAt_dstCap (s : State) (a : Nat) : (s.freeAt a).dstCap = s.dstCap := rfl
@[simp] theorem State.freeAt_resultLen (s : State) (a : Nat) : (s.freeAt a).resultLen = s.resultLen := rfl
@[simp] theorem State.freeAt_errPos (s : State) (a : Nat) : (s.freeAt a).errPos = s.errPos := rfl
@[simp] theorem State.freeAt_eng (s : State) (a : Nat) : (s.freeAt a).eng = s.eng := rfl
@[simp] theorem State.freeAt_mem (s : State) (a : Nat) :
    (s.freeAt a).mem = s.mem.write a (Config.freeByte s.fresh) := rfl
@[simp] theorem State.freeAt_platform (s : State) (a : Nat) : (s.freeAt a).platform = s.platform := rfl
@[simp] theorem State.freeAt_inputs (s : State) (a : Nat) : (s.freeAt a).inputs = s.inputs := rfl
@[simp] theorem State.freeAt_bus (s : State) (a : Nat) : (s.freeAt a).bus = s.bus := rfl
@[simp] theorem State.freeAt_fresh (s : State) (a : Nat) : (s.freeAt a).fresh = s.fresh + 1 := rfl
@[simp] theorem State.freeAt_racedBytes (s : State) (a : Nat) : (s.freeAt a).racedBytes = s.racedBytes := rfl

/-! ### `State.noteRace` -/

@[simp] theorem State.noteRace_ctrl (s : State) (a : Nat) : (s.noteRace a).ctrl = s.ctrl := rfl
@[simp] theorem State.noteRace_status (s : State) (a : Nat) : (s.noteRace a).status = s.status := rfl
@[simp] theorem State.noteRace_srcBase (s : State) (a : Nat) : (s.noteRace a).srcBase = s.srcBase := rfl
@[simp] theorem State.noteRace_srcLen (s : State) (a : Nat) : (s.noteRace a).srcLen = s.srcLen := rfl
@[simp] theorem State.noteRace_dstBase (s : State) (a : Nat) : (s.noteRace a).dstBase = s.dstBase := rfl
@[simp] theorem State.noteRace_dstCap (s : State) (a : Nat) : (s.noteRace a).dstCap = s.dstCap := rfl
@[simp] theorem State.noteRace_resultLen (s : State) (a : Nat) : (s.noteRace a).resultLen = s.resultLen := rfl
@[simp] theorem State.noteRace_errPos (s : State) (a : Nat) : (s.noteRace a).errPos = s.errPos := rfl
@[simp] theorem State.noteRace_eng (s : State) (a : Nat) : (s.noteRace a).eng = s.eng := rfl
@[simp] theorem State.noteRace_mem (s : State) (a : Nat) :
    (s.noteRace a).mem = s.mem.write a (Config.freeByte s.fresh) := rfl
@[simp] theorem State.noteRace_platform (s : State) (a : Nat) : (s.noteRace a).platform = s.platform := rfl
@[simp] theorem State.noteRace_inputs (s : State) (a : Nat) : (s.noteRace a).inputs = s.inputs := rfl
@[simp] theorem State.noteRace_bus (s : State) (a : Nat) : (s.noteRace a).bus = s.bus := rfl
@[simp] theorem State.noteRace_fresh (s : State) (a : Nat) : (s.noteRace a).fresh = s.fresh + 1 := rfl
@[simp] theorem State.noteRace_racedBytes (s : State) (a : Nat) :
    (s.noteRace a).racedBytes = s.racedBytes.insert a := rfl

/-! ### `State.endScan` -/

@[simp] theorem State.endScan_ctrl (s : State) : (s.endScan).ctrl = s.ctrl := rfl
@[simp] theorem State.endScan_status (s : State) : (s.endScan).status = s.status := rfl
@[simp] theorem State.endScan_srcBase (s : State) : (s.endScan).srcBase = s.srcBase := rfl
@[simp] theorem State.endScan_srcLen (s : State) : (s.endScan).srcLen = s.srcLen := rfl
@[simp] theorem State.endScan_dstBase (s : State) : (s.endScan).dstBase = s.dstBase := rfl
@[simp] theorem State.endScan_dstCap (s : State) : (s.endScan).dstCap = s.dstCap := rfl
@[simp] theorem State.endScan_resultLen (s : State) : (s.endScan).resultLen = s.resultLen := rfl
@[simp] theorem State.endScan_errPos (s : State) : (s.endScan).errPos = s.errPos := rfl
@[simp] theorem State.endScan_eng (s : State) :
    (s.endScan).eng = { s.eng with
        r := advance s.eng.r s.eng.len.toNat, pt := if s.eng.len = 1 then .encLit else .encHeader } := rfl
@[simp] theorem State.endScan_mem (s : State) : (s.endScan).mem = s.mem := rfl
@[simp] theorem State.endScan_platform (s : State) : (s.endScan).platform = s.platform := rfl
@[simp] theorem State.endScan_inputs (s : State) : (s.endScan).inputs = s.inputs := rfl
@[simp] theorem State.endScan_bus (s : State) : (s.endScan).bus = s.bus := rfl
@[simp] theorem State.endScan_fresh (s : State) : (s.endScan).fresh = s.fresh := rfl
@[simp] theorem State.endScan_racedBytes (s : State) : (s.endScan).racedBytes = s.racedBytes := rfl

/-! ### The engine between commands -/

@[simp] theorem Eng.unspecified_phase (t : Nat) : (Eng.unspecified t).phase = .idle := rfl
@[simp] theorem Eng.unspecified_pt (t : Nat) : (Eng.unspecified t).pt = .handleCheck := rfl

/-! ### The flags -/

@[simp] theorem flagsStarted_busy : flagsStarted.busy = true := rfl
@[simp] theorem flagsStarted_done : flagsStarted.done = false := rfl
@[simp] theorem flagsStarted_err : flagsStarted.err = none := rfl
@[simp] theorem flagsComplete_busy : flagsComplete.busy = false := rfl
@[simp] theorem flagsComplete_done : flagsComplete.done = true := rfl
@[simp] theorem flagsComplete_err : flagsComplete.err = none := rfl
@[simp] theorem flagsError_busy (e : ErrorKind) : (flagsError e).busy = false := rfl
@[simp] theorem flagsError_done (e : ErrorKind) : (flagsError e).done = true := rfl
@[simp] theorem flagsError_err (e : ErrorKind) : (flagsError e).err = some e := rfl
@[simp] theorem flagsReset_busy : flagsReset.busy = false := rfl
@[simp] theorem flagsReset_done : flagsReset.done = false := rfl
@[simp] theorem flagsReset_err : flagsReset.err = none := rfl

end Sys2Proof.Machine
end

