-- ==== Sys2Proof/Laws/Ops.lean ====
section
/-! SUPPORT. What each shared operation can do, once each, for the proofs to cite. -/

namespace Sys2Proof.Machine

/-- An engine access answers next only at ordinary memory, with its effect. -/
theorem engineAccess_eq_next {a : Nat} {s t u : State} :
    engineAccess a s t = .next u ↔ addressKind s.platform a = .ordinary ∧ t = u := by
  unfold engineAccess
  split <;> simp_all

/-- An engine access at ordinary memory has its effect. -/
theorem engineAccess_ordinary {a : Nat} {s : State} (t : State) (h : addressKind s.platform a = .ordinary) :
    engineAccess a s t = .next t := by
  simp [engineAccess, h]

/-- An engine access at an unbacked address is stuck (R69). -/
theorem engineAccess_unbacked {a : Nat} {s : State} (t : State) (h : addressKind s.platform a = .unbacked) :
    engineAccess a s t = .fault .stuckUnbacked := by
  simp [engineAccess, h]

/-- Ordinary memory lies inside the space (R51). -/
theorem addressKind_ordinary_lt {p : Platform} {a : Nat} (h : addressKind p a = .ordinary) : a < 4294967296 := by
  unfold addressKind at h
  split at h
  · cases h
  · rename_i hc; simpa [Config.memBytes] using hc

theorem loopTest_more {s : State} (p : Point) (h : s.eng.r.toNat < s.eng.sl.toNat) : s.loopTest p = s.goto p := by
  simp [State.loopTest, h]

theorem loopTest_done {s : State} (p : Point) (h : s.eng.sl.toNat ≤ s.eng.r.toNat) :
    s.loopTest p = s.complete s.eng.w := by
  simp [State.loopTest, Nat.not_lt.2 h]

/-- The loop test goes on at its head or completes (R130, R150, R185). -/
theorem loopTest_cases (s : State) (p : Point) :
    (s.eng.r.toNat < s.eng.sl.toNat ∧ s.loopTest p = s.goto p) ∨
      (s.eng.sl.toNat ≤ s.eng.r.toNat ∧ s.loopTest p = s.complete s.eng.w) := by
  rcases Nat.lt_or_ge s.eng.r.toNat s.eng.sl.toNat with h | h
  · exact .inl ⟨h, loopTest_more p h⟩
  · exact .inr ⟨h, loopTest_done p h⟩

theorem checkCapacity_room {s : State} (p : Point) (h : s.eng.w.toNat < s.eng.dc.toNat) :
    s.checkCapacity p = s.goto p := by
  simp [State.checkCapacity, h]

theorem checkCapacity_full {s : State} (p : Point) (h : s.eng.dc.toNat ≤ s.eng.w.toNat) :
    s.checkCapacity p = s.raise .destinationOverflow s.eng.r := by
  simp [State.checkCapacity, Nat.not_lt.2 h]

/-- The capacity check goes on to the write or raises DestinationOverflow (R154). -/
theorem checkCapacity_cases (s : State) (p : Point) :
    (s.eng.w.toNat < s.eng.dc.toNat ∧ s.checkCapacity p = s.goto p) ∨
      (s.eng.dc.toNat ≤ s.eng.w.toNat ∧ s.checkCapacity p = s.raise .destinationOverflow s.eng.r) := by
  rcases Nat.lt_or_ge s.eng.w.toNat s.eng.dc.toNat with h | h
  · exact .inl ⟨h, checkCapacity_room p h⟩
  · exact .inr ⟨h, checkCapacity_full p h⟩

theorem scanTest_more {s : State} (h : s.eng.r.toNat + s.eng.len.toNat < s.eng.sl.toNat)
    (h' : s.eng.len.toNat < Config.maxRun) : s.scanTest = s.goto .encPeek := by
  simp [State.scanTest, h, h']

theorem scanTest_end {s : State}
    (h : ¬ (s.eng.r.toNat + s.eng.len.toNat < s.eng.sl.toNat ∧ s.eng.len.toNat < Config.maxRun)) :
    s.scanTest = s.endScan := by
  unfold State.scanTest
  exact if_neg h

/-- The scan test goes on to a read or ends the scan (R131). -/
theorem scanTest_cases (s : State) :
    (s.eng.r.toNat + s.eng.len.toNat < s.eng.sl.toNat ∧ s.eng.len.toNat < Config.maxRun ∧
        s.scanTest = s.goto .encPeek) ∨
      (¬ (s.eng.r.toNat + s.eng.len.toNat < s.eng.sl.toNat ∧ s.eng.len.toNat < Config.maxRun) ∧
        s.scanTest = s.endScan) := by
  by_cases h : s.eng.r.toNat + s.eng.len.toNat < s.eng.sl.toNat ∧ s.eng.len.toNat < Config.maxRun
  · exact .inl ⟨h.1, h.2, scanTest_more h.1 h.2⟩
  · exact .inr ⟨h, scanTest_end h⟩

/-- The handle check always answers next (R117, R118). -/
theorem stepHandleCheck_cases (s : State) :
    (handlesOk s.eng = false ∧ stepHandleCheck s = .next (s.raise .invalidHandle 0)) ∨
      (handlesOk s.eng = true ∧ 0 < s.eng.sl.toNat ∧
        stepHandleCheck s = .next { s with eng := { s.eng with r := 0, w := 0, pt := loopHead s.eng.op } }) ∨
      (handlesOk s.eng = true ∧ s.eng.sl = 0 ∧ stepHandleCheck s =
        .next (State.complete 0 { s with eng := { s.eng with r := 0, w := 0 } })) := by
  unfold stepHandleCheck
  cases hok : handlesOk s.eng with
  | false => exact .inl ⟨rfl, by simp⟩
  | true =>
    refine .inr ?_
    rcases Nat.eq_zero_or_pos s.eng.sl.toNat with h | h
    · refine .inr ⟨rfl, BitVec.eq_of_toNat_eq (by simpa using h), ?_⟩
      simp only [if_true, State.enterLoop]
      rw [loopTest_done _ (by simp [h])]
    · refine .inl ⟨rfl, h, ?_⟩
      simp only [if_true, State.enterLoop]
      rw [loopTest_more _ (by simpa using h)]
      rfl

/-- A CTRL write is ignored while busy (R115). -/
theorem whenIdle_busy {s : State} (t : State) (h : s.status.busy = true) : whenIdle s t = .next s := by
  simp [whenIdle, h]

/-- A CTRL write takes effect while idle (R113, R114). -/
theorem whenIdle_idle {s : State} (t : State) (h : s.status.busy = false) : whenIdle s t = .next t := by
  simp [whenIdle, h]

end Sys2Proof.Machine
end

