-- ==== Sys2Proof/Laws/Engine.lean ====
section
/-! SUPPORT. What the engine's step is at each point of the pseudocode, and what no engine step changes. -/

namespace Sys2Proof.Machine

/-! ### The token steps, by the latched bytes -/

theorem stepToken_fetch_lit {s : State} (hp : s.eng.phase = .running) (hpt : s.eng.pt = .decFetch)
    (h : tagOf (s.mem.read (tokenAddress s 0)) = false) :
    stepToken s = fetchLit (s.mem.read (tokenAddress s 0)) s := by
  simp [stepToken, decode, tokenBytes, hpt, decodeToken, h, exec, execLit, hp, literalByte_literalOf h]

theorem stepToken_fetch_header {s : State} (hp : s.eng.phase = .running) (hpt : s.eng.pt = .decFetch)
    (h : tagOf (s.mem.read (tokenAddress s 0)) = true) :
    stepToken s = fetchHeader (s.mem.read (tokenAddress s 0)) s := by
  by_cases hr : s.eng.r.toNat + 1 < s.eng.sl.toNat <;>
    simp [stepToken, decode, tokenBytes, hpt, decodeToken, h, exec, execRun, hp, headerByte_literalOf h, hr]

theorem stepToken_lit {s : State} (hp : s.eng.phase = .running) (hpt : s.eng.pt = .decLit)
    (h : tagOf s.eng.lit = false) : stepToken s = writeLit s.eng.lit s := by
  simp [stepToken, decode, tokenBytes, hpt, decodeToken, h, exec, execLit, hp, literalByte_literalOf h]

theorem stepToken_length {s : State} (hp : s.eng.phase = .running) (hpt : s.eng.pt = .decLength)
    (h : tagOf s.eng.lit = true) : stepToken s = fetchLength (s.mem.read (tokenAddress s 1)) s := by
  simp [stepToken, decode, tokenBytes, hpt, decodeToken, h, exec, execRun, hp]

theorem stepToken_run {s : State} (hp : s.eng.phase = .running) (hpt : s.eng.pt = .decRun)
    (h : tagOf s.eng.lit = true) : stepToken s = writeCopy (s.eng.lit &&& 0x7F#8) s.eng.len s := by
  simp [stepToken, decode, tokenBytes, hpt, decodeToken, h, exec, execRun, hp, literalByte_eq_and]

/-! ### The frame of an engine step -/

/-- The command goes on: flags, results, the free-value index and the latched parameters are as before. -/
structure GoesOn (s t : State) : Prop where
  status : t.status = s.status
  resultLen : t.resultLen = s.resultLen
  errPos : t.errPos = s.errPos
  fresh : t.fresh = s.fresh
  phase : t.eng.phase = s.eng.phase
  op : t.eng.op = s.eng.op
  sv : t.eng.sv = s.eng.sv
  dv : t.eng.dv = s.eng.dv
  sb : t.eng.sb = s.eng.sb
  sl : t.eng.sl = s.eng.sl
  db : t.eng.db = s.eng.db
  dc : t.eng.dc = s.eng.dc

/-- The command ended, with success or with an error (R185, R186). -/
structure Ends (s t : State) : Prop where
  how : (t.status = flagsComplete ∧ t.errPos = 0) ∨ ∃ e, t.status = flagsError e ∧ t.resultLen = 0
  eng : t.eng = Eng.unspecified s.fresh
  fresh : t.fresh = s.fresh + engFreeValues

/-- What an engine step does outside memory and its own cursors. -/
structure EngineFrame (s t : State) : Prop where
  outside : SameOutside s t
  inside : GoesOn s t ∨ Ends s t

theorem goto_frame (s : State) (p : Point) : EngineFrame s (s.goto p) :=
  ⟨⟨rfl, rfl, rfl, rfl, rfl, rfl, rfl, rfl, rfl⟩, .inl ⟨rfl, rfl, rfl, rfl, rfl, rfl, rfl, rfl, rfl, rfl, rfl, rfl⟩⟩

theorem endScan_frame (s : State) : EngineFrame s s.endScan :=
  ⟨⟨rfl, rfl, rfl, rfl, rfl, rfl, rfl, rfl, rfl⟩, .inl ⟨rfl, rfl, rfl, rfl, rfl, rfl, rfl, rfl, rfl, rfl, rfl, rfl⟩⟩

theorem complete_frame (s : State) (len : Word) : EngineFrame s (s.complete len) :=
  ⟨⟨rfl, rfl, rfl, rfl, rfl, rfl, rfl, rfl, rfl⟩, .inr ⟨.inl ⟨rfl, rfl⟩, rfl, rfl⟩⟩

theorem raise_frame (s : State) (e : ErrorKind) (pos : Word) : EngineFrame s (s.raise e pos) :=
  ⟨⟨rfl, rfl, rfl, rfl, rfl, rfl, rfl, rfl, rfl⟩, .inr ⟨.inr ⟨e, rfl, rfl⟩, rfl, rfl⟩⟩

theorem loopTest_frame (s : State) (p : Point) : EngineFrame s (s.loopTest p) := by
  rcases loopTest_cases s p with ⟨-, h⟩ | ⟨-, h⟩ <;> rw [h]
  · exact goto_frame s p
  · exact complete_frame s _

theorem checkCapacity_frame (s : State) (p : Point) : EngineFrame s (s.checkCapacity p) := by
  rcases checkCapacity_cases s p with ⟨-, h⟩ | ⟨-, h⟩ <;> rw [h]
  · exact goto_frame s p
  · exact raise_frame s _ _

theorem scanTest_frame (s : State) : EngineFrame s s.scanTest := by
  rcases scanTest_cases s with ⟨-, -, h⟩ | ⟨-, h⟩ <;> rw [h]
  · exact goto_frame s _
  · exact endScan_frame s

/-- A change of memory and of the engine's own cursors and latches before the rest of a step is inside the
frame. -/
theorem EngineFrame.of_work {s t : State} (m : Memory) (r w : Word) (lit len k : Byte)
    (h : EngineFrame { s with mem := m, eng := { s.eng with r := r, w := w, lit := lit, len := len, k := k } } t) :
    EngineFrame s t := by
  obtain ⟨⟨h1, h2, h3, h4, h5, h6, h7, h8, h8'⟩, h9⟩ := h
  refine ⟨⟨h1, h2, h3, h4, h5, h6, h7, h8, h8'⟩, ?_⟩
  rcases h9 with ⟨a1, a2, a3, a4, a5, a6, a7, a8, a9, a10, a11, a12⟩ | ⟨a1, a2, a3⟩
  · exact .inl ⟨a1, a2, a3, a4, a5, a6, a7, a8, a9, a10, a11, a12⟩
  · exact .inr ⟨a1, a2, a3⟩

theorem stepHandleCheck_frame {s t : State} (h : stepHandleCheck s = .next t) : EngineFrame s t := by
  rcases stepHandleCheck_cases s with ⟨-, he⟩ | ⟨-, -, he⟩ | ⟨-, -, he⟩ <;>
    (rw [he] at h; obtain rfl := Host.Outcome.next.inj h)
  · exact raise_frame s _ _
  · exact EngineFrame.of_work s.mem 0 0 s.eng.lit s.eng.len s.eng.k (goto_frame _ _)
  · exact EngineFrame.of_work s.mem 0 0 s.eng.lit s.eng.len s.eng.k (complete_frame _ _)

theorem fetchLit_frame {b : Byte} {s t : State} (h : fetchLit b s = .next t) : EngineFrame s t := by
  obtain ⟨-, rfl⟩ := engineAccess_eq_next.1 h
  exact EngineFrame.of_work s.mem s.eng.r s.eng.w b s.eng.len s.eng.k (checkCapacity_frame _ _)

theorem writeLit_frame {b : Byte} {s t : State} (h : writeLit b s = .next t) : EngineFrame s t := by
  obtain ⟨-, rfl⟩ := engineAccess_eq_next.1 h
  exact EngineFrame.of_work _ (advance s.eng.r 1) (advance s.eng.w 1) s.eng.lit s.eng.len s.eng.k (loopTest_frame _ _)

theorem fetchHeader_frame {b : Byte} {s t : State} (h : fetchHeader b s = .next t) : EngineFrame s t := by
  obtain ⟨-, rfl⟩ := engineAccess_eq_next.1 h
  split
  · exact EngineFrame.of_work s.mem s.eng.r s.eng.w b s.eng.len s.eng.k (goto_frame _ _)
  · exact EngineFrame.of_work s.mem s.eng.r s.eng.w b s.eng.len s.eng.k (raise_frame _ _ _)

theorem fetchLength_frame {n : Byte} {s t : State} (h : fetchLength n s = .next t) : EngineFrame s t := by
  obtain ⟨-, rfl⟩ := engineAccess_eq_next.1 h
  split
  · exact EngineFrame.of_work s.mem s.eng.r s.eng.w s.eng.lit n s.eng.k (raise_frame _ _ _)
  · exact EngineFrame.of_work s.mem s.eng.r s.eng.w s.eng.lit n 0 (checkCapacity_frame _ _)

theorem writeCopy_frame {v n : Byte} {s t : State} (h : writeCopy v n s = .next t) : EngineFrame s t := by
  obtain ⟨-, rfl⟩ := engineAccess_eq_next.1 h
  unfold State.nextCopy
  split
  · exact EngineFrame.of_work _ s.eng.r (advance s.eng.w 1) s.eng.lit s.eng.len (s.eng.k + 1) (checkCapacity_frame _ _)
  · exact EngineFrame.of_work _ (advance s.eng.r 2) (advance s.eng.w 1) s.eng.lit s.eng.len (s.eng.k + 1)
      (loopTest_frame _ _)

/-- A token's step is inside the frame of the engine. -/
theorem execLit_frame {v : Literal} {s t : State} (h : execLit v s = .next t) : EngineFrame s t := by
  unfold execLit at h
  split at h
  · exact fetchLit_frame h
  · exact writeLit_frame h
  · cases h

theorem execRun_frame {v : Literal} {n : Byte} {s t : State} (h : execRun v n s = .next t) : EngineFrame s t := by
  unfold execRun at h
  split at h
  · exact fetchHeader_frame h
  · exact fetchLength_frame h
  · exact writeCopy_frame h
  · cases h

theorem stepToken_frame {s t : State} (h : stepToken s = .next t) : EngineFrame s t := by
  unfold stepToken decode at h
  split at h
  · rename_i i rest hd
    rcases decodeToken_eq_ok hd with ⟨v, rfl, -⟩ | ⟨v, n, rfl, -⟩
    · exact execLit_frame h
    · exact execRun_frame h
  · exact fetchHeader_frame h
  · cases h

theorem stepEncLoad_frame {s t : State} (h : stepEncLoad s = .next t) : EngineFrame s t := by
  obtain ⟨-, rfl⟩ := engineAccess_eq_next.1 h
  dsimp only
  split
  · exact EngineFrame.of_work s.mem s.eng.r s.eng.w _ s.eng.len s.eng.k (raise_frame _ _ _)
  · exact EngineFrame.of_work s.mem s.eng.r s.eng.w _ 1 s.eng.k (scanTest_frame _)

theorem stepEncPeek_frame {s t : State} (h : stepEncPeek s = .next t) : EngineFrame s t := by
  obtain ⟨-, rfl⟩ := engineAccess_eq_next.1 h
  split
  · exact EngineFrame.of_work s.mem s.eng.r s.eng.w s.eng.lit (s.eng.len + 1) s.eng.k (scanTest_frame _)
  · exact endScan_frame s

theorem stepEncLit_frame {s t : State} (h : stepEncLit s = .next t) : EngineFrame s t := by
  obtain ⟨-, rfl⟩ := engineAccess_eq_next.1 h
  exact EngineFrame.of_work _ s.eng.r (advance s.eng.w 1) s.eng.lit s.eng.len s.eng.k (loopTest_frame _ _)

theorem stepEncHeader_frame {s t : State} (h : stepEncHeader s = .next t) : EngineFrame s t := by
  obtain ⟨-, rfl⟩ := engineAccess_eq_next.1 h
  exact EngineFrame.of_work _ s.eng.r s.eng.w s.eng.lit s.eng.len s.eng.k (goto_frame _ _)

theorem stepEncLength_frame {s t : State} (h : stepEncLength s = .next t) : EngineFrame s t := by
  obtain ⟨-, rfl⟩ := engineAccess_eq_next.1 h
  exact EngineFrame.of_work _ s.eng.r (advance s.eng.w 2) s.eng.lit s.eng.len s.eng.k (loopTest_frame _ _)

/-- Whatever the point, an engine step stays in its frame (R33, R119). -/
theorem engineStep_frame {s t : State} (h : engineStep s = .next t) : EngineFrame s t := by
  unfold engineStep at h
  split at h
  · exact stepHandleCheck_frame h
  · exact stepEncLoad_frame h
  · exact stepEncPeek_frame h
  · exact stepEncLit_frame h
  · exact stepEncHeader_frame h
  · exact stepEncLength_frame h
  all_goals exact stepToken_frame h

end Sys2Proof.Machine
end

