-- ==== Sys2Proof/Laws/Race.lean ====
section
/-! SUPPORT. What the race rule of R205 can do to an engine turn: nothing where no byte is raced; else a free value in
the byte the step reads, and a new end for a command that ends. -/

namespace Sys2Proof.Machine

/-! ### The byte a step reads -/

theorem redraw_eq_self {s : State} (h : ∀ a ∈ s.racedBytes, nextAccess s ≠ some (.read a)) : s.redraw = s := by
  unfold State.redraw
  split
  · rename_i a ha
    rw [if_neg fun hm => h a hm ha]
  · rfl

theorem redraw_raced {s : State} {a : Nat} (hm : a ∈ s.racedBytes) (h : nextAccess s = some (.read a)) :
    s.redraw = s.freeAt a := by
  simp [State.redraw, h, hm]

theorem redraw_unraced {s : State} (h : s.racedBytes = []) : s.redraw = s :=
  redraw_eq_self (by simp [h])

/-- Before its step a byte takes a free value, if it is a raced one that the step reads; else nothing changes. -/
theorem redraw_cases (s : State) :
    s.redraw = s ∨ ∃ a, a ∈ s.racedBytes ∧ nextAccess s = some (.read a) ∧ s.redraw = s.freeAt a := by
  by_cases h : ∃ a, a ∈ s.racedBytes ∧ nextAccess s = some (.read a)
  · obtain ⟨a, hm, ha⟩ := h
    exact .inr ⟨a, hm, ha, redraw_raced hm ha⟩
  · exact .inl (redraw_eq_self fun a hm ha => h ⟨a, hm, ha⟩)

/-- What `redraw` leaves alone. -/
theorem redraw_outside (s : State) : SameOutside s s.redraw := by
  rcases redraw_cases s with h | ⟨a, -, -, h⟩ <;> (rw [h]; exact ⟨rfl, rfl, rfl, rfl, rfl, rfl, rfl, rfl, rfl⟩)

@[simp] theorem redraw_eng (s : State) : s.redraw.eng = s.eng := by
  rcases redraw_cases s with h | ⟨a, -, -, h⟩ <;> (rw [h]; try rfl)

@[simp] theorem redraw_platform (s : State) : s.redraw.platform = s.platform := (redraw_outside s).platform

@[simp] theorem redraw_status (s : State) : s.redraw.status = s.status := by
  rcases redraw_cases s with h | ⟨a, -, -, h⟩ <;> (rw [h]; try rfl)

@[simp] theorem redraw_resultLen (s : State) : s.redraw.resultLen = s.resultLen := by
  rcases redraw_cases s with h | ⟨a, -, -, h⟩ <;> (rw [h]; try rfl)

@[simp] theorem redraw_errPos (s : State) : s.redraw.errPos = s.errPos := by
  rcases redraw_cases s with h | ⟨a, -, -, h⟩ <;> (rw [h]; try rfl)

theorem redraw_fresh (s : State) : s.fresh ≤ s.redraw.fresh := by
  rcases redraw_cases s with h | ⟨a, -, -, h⟩ <;> simp [h]

/-- Where the engine goes does not depend on memory. -/
@[simp] theorem nextAccess_redraw (s : State) : nextAccess s.redraw = nextAccess s := by
  simp [nextAccess, sourceAddress, tokenAddress, writeAddress]

/-! ### The end of a raced command -/

@[simp] theorem length_freeBytes (t n : Nat) : (freeBytes t n).length = n := by
  induction n generalizing t with
  | zero => rfl
  | succ n ih => simp [freeBytes, ih]

theorem getD_freeBytes (t : Nat) {n i : Nat} (h : i < n) : (freeBytes t n).getD i 0 = Config.freeByte (t + i) := by
  induction n generalizing t i with
  | zero => omega
  | succ n ih =>
    cases i with
    | zero => rfl
    | succ i =>
      rw [freeBytes, List.getD_cons_succ, ih (t + 1) (by omega)]
      congr 1
      omega

theorem endingOn_agrees (e : Eng) (xs : List Byte) : (e.endingOn xs).Agrees := by
  unfold Eng.endingOn
  split
  · exact decodeEnding_agrees _ _
  · exact encodeEnding_agrees _

/-- The end of a raced command leaves the parameters' registers, the platform, the turns and the bus alone. -/
structure RaceEndFrame (s t : State) : Prop where
  ctrl : t.ctrl = s.ctrl
  srcBase : t.srcBase = s.srcBase
  srcLen : t.srcLen = s.srcLen
  dstBase : t.dstBase = s.dstBase
  dstCap : t.dstCap = s.dstCap
  platform : t.platform = s.platform
  inputs : t.inputs = s.inputs
  bus : t.bus = s.bus
  eng : t.eng = s.eng
  racedBytes : t.racedBytes = []

theorem raceEnd_frame (e : Eng) (s : State) : RaceEndFrame s (s.raceEnd e) := by
  unfold State.raceEnd
  split <;> exact ⟨rfl, rfl, rfl, rfl, rfl, rfl, rfl, rfl, rfl, rfl⟩

/-- The flags after a raced command are those of some ending (R185, R186). -/
theorem raceEnd_status (e : Eng) (s : State) :
    (s.raceEnd e).status = s.status ∧ (s.raceEnd e).resultLen = s.resultLen ∧ (s.raceEnd e).errPos = s.errPos ∨
      ∃ n : Ending, n.Agrees ∧ (s.raceEnd e).status = { busy := false, done := true, err := n.err } ∧
        (s.raceEnd e).resultLen = BitVec.ofNat 32 n.resultLen ∧ (s.raceEnd e).errPos = BitVec.ofNat 32 n.errPos := by
  unfold State.raceEnd
  split
  · exact .inr ⟨_, endingOn_agrees _ _, rfl, rfl, rfl⟩
  · exact .inl ⟨rfl, rfl, rfl⟩

/-- The end of a raced command keeps memory's canonical form. -/
theorem raceEnd_wf (e : Eng) {s : State} (hm : s.mem.wf = true) (h : ∀ a ∈ s.racedBytes, a < Config.memBytes) :
    (s.raceEnd e).mem.wf = true := by
  unfold State.raceEnd
  split
  · rename_i hk
    exact Memory.scatter_wf _ (Memory.scramble_wf _ hm (output_inRange hk)) h
  · exact hm

/-- What a byte reads after a raced command with valid handles: any value in its output region and in a raced byte,
and elsewhere what it was (R205). -/
theorem raceEnd_read {e : Eng} {s : State} (hm : s.mem.wf = true) (h : ∀ a ∈ s.racedBytes, a < Config.memBytes)
    (hk : handlesOk e = true) (a : Nat) :
    if a ∈ s.racedBytes ∨ inRegion e.outputBase e.outputLen a = true then
      ∃ i, (s.raceEnd e).mem.read a = Config.freeByte i ∧ s.fresh ≤ i ∧ i < (s.raceEnd e).fresh
    else (s.raceEnd e).mem.read a = s.mem.read a := by
  have hr := output_inRange hk
  have hw := Memory.scramble_wf (s.fresh + e.sl.toNat) hm hr
  simp only [State.raceEnd, hk, if_true]
  by_cases ha : a ∈ s.racedBytes
  · obtain ⟨i, h1, h2, h3⟩ := Memory.read_scatter_mem (s.fresh + e.sl.toNat + e.outputLen.toNat) hw h ha
    rw [if_pos (.inl ha)]
    exact ⟨i, h1, by omega, h3⟩
  · rw [Memory.read_scatter_other _ hw h ha, Memory.read_scramble _ _ hm hr]
    simp only [ha, false_or, inRegion_iff]
    split
    · exact ⟨_, rfl, by omega, by omega⟩
    · rfl

/-! ### The engine's turn -/

/-- After the engine's step: the step's outcome as it is, or the new end of a raced command. -/
theorem settleRace_eq_next {s t : State} {o : Result} (h : settleRace s o = .next t) :
    ∃ u, o = .next u ∧
      ((t = u ∧ (s.racedBytes = [] ∨ u.eng.phase = .running)) ∨
        (t = u.raceEnd s.eng ∧ s.racedBytes ≠ [] ∧ u.eng.phase = .idle)) := by
  unfold settleRace at h
  split at h
  · rename_i a as u hr
    refine ⟨u, rfl, ?_⟩
    split at h
    · rename_i hp
      exact .inl ⟨(Host.Outcome.next.inj h).symm, .inr hp⟩
    · rename_i hp
      exact .inr ⟨(Host.Outcome.next.inj h).symm, by simp [hr], hp⟩
  · rename_i hn
    refine ⟨t, h, .inl ⟨rfl, .inl ?_⟩⟩
    cases hr : s.racedBytes with
    | nil => rfl
    | cons a as => exact (hn a as t hr h).elim

theorem settleRace_unraced {s : State} (o : Result) (h : s.racedBytes = []) : settleRace s o = o := by
  unfold settleRace
  rw [h]

theorem settleRace_running {s t : State} (h : t.eng.phase = .running) : settleRace s (.next t) = .next t := by
  unfold settleRace
  split
  · rename_i u heq
    obtain rfl := Host.Outcome.next.inj heq
    rw [h]
  · rfl

theorem settleRace_ended {s t : State} (hr : s.racedBytes ≠ []) (h : t.eng.phase = .idle) :
    settleRace s (.next t) = .next (t.raceEnd s.eng) := by
  unfold settleRace
  cases hs : s.racedBytes with
  | nil => exact absurd hs hr
  | cons a as => simp [h]

theorem settleRace_fault {s : State} (f : Fault) : settleRace s (.fault f) = .fault f := by
  unfold settleRace
  split
  · rename_i heq; cases heq
  · rfl

theorem settleRace_refused {s : State} (f : Refusal) : settleRace s (.refused f) = .refused f := by
  unfold settleRace
  split
  · rename_i heq; cases heq
  · rfl

theorem engineTurn_running {s : State} (h : s.eng.phase = .running) :
    engineTurn s = settleRace s (engineStep s.redraw) := by
  simp [engineTurn, h]

/-- Without a race the turn is the engine's step. -/
theorem engineTurn_unraced {s : State} (h : s.eng.phase = .running) (hr : s.racedBytes = []) :
    engineTurn s = engineStep s := by
  rw [engineTurn_running h, settleRace_unraced _ hr, redraw_unraced hr]

theorem engineTurn_idle {s : State} (h : s.eng.phase = .idle) : engineTurn s = .next s := by
  simp [engineTurn, h]

/-- A running engine's turn that answers next: its step from the state with the byte it reads redrawn, and the new end
of a raced command that ended. -/
theorem engineTurn_eq_next {s t : State} (hp : s.eng.phase = .running) (h : engineTurn s = .next t) :
    ∃ u, engineStep s.redraw = .next u ∧
      ((t = u ∧ (s.racedBytes = [] ∨ u.eng.phase = .running)) ∨
        (t = u.raceEnd s.eng ∧ s.racedBytes ≠ [] ∧ u.eng.phase = .idle)) :=
  settleRace_eq_next (engineTurn_running hp ▸ h)

end Sys2Proof.Machine
end

