-- ==== Sys2Proof/Laws/Step.lean ====
section
/-! SUPPORT. What a step can be, by whose turn it is, and runs of several steps. -/

namespace Sys2Proof.Machine

/-- With no turn waiting, a command running and no byte raced, the step is the engine's. -/
theorem step_engine {s : State} (h : EngineMoves s) : step s = engineStep s := by
  simp [step, turnStep, h.inputs, engineTurn_unraced h.phase h.unraced]

/-- With no turn waiting the step is the engine's turn. -/
theorem step_turn {s : State} (h : s.inputs = []) : step s = engineTurn s := by
  simp [step, turnStep, h]

/-- With no turn waiting and the engine idle, nothing changes (R197). -/
theorem step_idle {s : State} (hi : s.inputs = []) (h : s.eng.phase = .idle) : step s = .next s := by
  simp [step, turnStep, hi, engineTurn_idle h]

/-- A waiting host operation is the step. -/
theorem step_host {s : State} {op : HostOp} {rest : List Turn} (h : s.inputs = .host op :: rest) :
    step s = hostStep op { s with inputs := rest } := by
  simp [step, turnStep, h]

/-- A waiting engine turn is the step. -/
theorem step_scheduled {s : State} {rest : List Turn} (h : s.inputs = .engine :: rest) :
    step s = scheduledEngineTurn { s with inputs := rest } := by
  simp [step, turnStep, h]

/-- A scheduled engine turn answers next: the engine's step, or a turn passed by an idle or a stuck engine. -/
theorem scheduledEngineTurn_cases {s t : State} (h : scheduledEngineTurn s = .next t) :
    (s.eng.phase = .running ∧ engineTurn s = .next t) ∨ t = s := by
  unfold scheduledEngineTurn at h
  split at h
  · exact .inr (Host.Outcome.next.inj h).symm
  · cases hp : s.eng.phase with
    | idle => rw [engineTurn_idle hp] at h; exact .inr (Host.Outcome.next.inj h).symm
    | running => exact .inl ⟨rfl, h⟩

/-- A write to the register g is a step of `writeReg`. -/
theorem step_wr {s : State} {g : Reg} {d : Word} {rest : List Turn} (h : s.inputs = wr s.platform g d :: rest) :
    step s = writeReg g d { s with inputs := rest } := by
  rw [step_host h]
  simp [hostStep, hostWrite]

/-- A read of the register g is a step. -/
theorem step_rd {s : State} {g : Reg} {rest : List Turn} (h : s.inputs = rd s.platform g :: rest) :
    step s = .next { s with inputs := rest, bus := readReg g { s with inputs := rest } } := by
  rw [step_host h]
  simp [hostStep, hostRead]

/-! ### Runs -/

theorem runs_zero (s : State) : Runs 0 s s := rfl

theorem runs_succ {k : Nat} {s s' t : State} (h : step s = .next s') (h' : Runs k s' t) : Runs (k + 1) s t := by
  have hc : Host.Core.step core s = .next s' := h
  unfold Runs at *
  simp only [Host.Core.run, hc]
  exact h'

theorem runs_one {s t : State} (h : step s = .next t) : Runs 1 s t := runs_succ h (runs_zero t)

/-- A run of k + 1 steps is a step and a run of k. -/
theorem runs_succ_iff {k : Nat} {s t : State} : Runs (k + 1) s t ↔ ∃ s', step s = .next s' ∧ Runs k s' t := by
  constructor
  · intro h
    unfold Runs at h
    simp only [Host.Core.run] at h
    split at h
    · rename_i s' hs
      exact ⟨s', hs, h⟩
    · cases h
    · cases h
  · rintro ⟨s', h, h'⟩
    exact runs_succ h h'

theorem runs_zero_iff {s t : State} : Runs 0 s t ↔ s = t := by
  constructor
  · intro h
    exact Host.Outcome.next.inj h
  · rintro rfl
    rfl

/-- Two runs in a row are one. -/
theorem runs_add {j k : Nat} {s s' t : State} (h : Runs j s s') (h' : Runs k s' t) : Runs (j + k) s t := by
  induction j generalizing s with
  | zero =>
    obtain rfl := runs_zero_iff.1 h
    simpa using h'
  | succ j ih =>
    obtain ⟨u, hu, hr⟩ := runs_succ_iff.1 h
    rw [Nat.add_right_comm]
    exact runs_succ hu (ih hr)

/-- The accesses of two runs in a row add up. -/
theorem accessTotal_add {f : Option Access → Nat} {j k : Nat} {s s' : State} (h : Runs j s s') :
    accessTotal f (j + k) s = accessTotal f j s + accessTotal f k s' := by
  induction j generalizing s with
  | zero => obtain rfl := runs_zero_iff.1 h; simp [accessTotal]
  | succ j ih =>
    obtain ⟨u, hu, hr⟩ := runs_succ_iff.1 h
    rw [Nat.add_right_comm]
    simp only [accessTotal, hu]
    rw [ih hr]
    omega

/-- One step makes its one access. -/
theorem accessTotal_one {f : Option Access → Nat} {s s' : State} (h : step s = .next s') :
    accessTotal f 1 s = f (nextAccess s) := by
  simp [accessTotal, h]

end Sys2Proof.Machine
end

