-- ==== Sys2Proof/Laws/Host.lean ====
section
/-! SUPPORT. What each host operation can do, and what a step can be, once each. -/

namespace Sys2Proof.Machine

/-- A CTRL word while idle: a START or a CTRL_SET, by its bit 0 (R91, R113, R114). -/
theorem exec_command_idle {s : State} (d : Word) (h : s.status.busy = false) :
    exec (decodeCommand d) s = .next
      (if d.getLsbD 0 then s.start (d.getLsbD 1) (d.getLsbD 2) (d.getLsbD 3)
       else { s with ctrl := { op := d.getLsbD 1, srcValid := d.getLsbD 2, dstValid := d.getLsbD 3 } }) := by
  unfold decodeCommand
  cases d.getLsbD 0 with
  | false => exact whenIdle_idle _ h
  | true => cases d.getLsbD 1 <;> exact whenIdle_idle _ h

/-- A CTRL word while busy changes nothing (R115). -/
theorem exec_command_busy {s : State} (d : Word) (h : s.status.busy = true) :
    exec (decodeCommand d) s = .next s := by
  unfold decodeCommand
  split
  · split <;> exact whenIdle_busy _ h
  · exact whenIdle_busy _ h

/-- What a host write of an admitted register can do (R112 to R115). -/
theorem writeReg_cases {g : Reg} {d : Word} {s t : State} (h : writeReg g d s = .next t) :
    (s.status.busy = true ∧ t = s) ∨
      (s.status.busy = false ∧ g ≠ .ctrl ∧ t = setReg g d s) ∨
      (s.status.busy = false ∧ g = .ctrl ∧ d.getLsbD 0 = true ∧
        t = s.start (d.getLsbD 1) (d.getLsbD 2) (d.getLsbD 3)) ∨
      (s.status.busy = false ∧ g = .ctrl ∧ d.getLsbD 0 = false ∧
        t = { s with ctrl := { op := d.getLsbD 1, srcValid := d.getLsbD 2, dstValid := d.getLsbD 3 } }) := by
  unfold writeReg at h
  cases hb : s.status.busy with
  | true =>
    refine .inl ⟨rfl, ?_⟩
    split at h
    · rw [exec_command_busy d hb] at h; exact (Host.Outcome.next.inj h).symm
    · exact (Host.Outcome.next.inj h).symm
  | false =>
    refine .inr ?_
    split at h
    · rename_i hg
      rw [exec_command_idle d hb] at h
      obtain rfl := Host.Outcome.next.inj h
      cases h0 : d.getLsbD 0 with
      | true => exact .inr (.inl ⟨rfl, hg, rfl, by simp⟩)
      | false => exact .inr (.inr ⟨rfl, hg, rfl, by simp⟩)
    · rename_i hg
      rw [hb] at h
      exact .inl ⟨rfl, hg, (Host.Outcome.next.inj h).symm⟩

/-- A host register read that answers next changed the bus alone (R58, R111). -/
theorem hostRead_eq_next {addr width : Nat} {s t : State} (h : hostRead addr width s = .next t) :
    ∃ g, admission s.platform addr width = some g ∧ t = { s with bus := readReg g s } := by
  unfold hostRead at h
  split at h
  · exact ⟨_, by assumption, (Host.Outcome.next.inj h).symm⟩
  · cases h

/-- A host register write that answers next was admitted. -/
theorem hostWrite_eq_next {addr width : Nat} {d : Word} {s t : State} (h : hostWrite addr width d s = .next t) :
    ∃ g, admission s.platform addr width = some g ∧ writeReg g d s = .next t := by
  unfold hostWrite at h
  split at h
  · exact ⟨_, by assumption, h⟩
  · cases h

/-- Another agent's access goes on only at ordinary memory. -/
theorem foreignAccess_eq_next {a : Word} {s t : State} {o : Result} (h : foreignAccess a s o = .next t) :
    addressKind s.platform a.toNat = .ordinary ∧ o = .next t := by
  unfold foreignAccess at h
  split at h
  · exact ⟨by assumption, h⟩
  all_goals cases h

theorem foreignAccess_ordinary {a : Word} {s : State} (o : Result)
    (h : addressKind s.platform a.toNat = .ordinary) : foreignAccess a s o = o := by
  simp [foreignAccess, h]

/-- A host memory read that answers next changed the bus, and the free-value index on a race, alone (R205). -/
theorem hostMemRead_eq_next {a : Word} {s t : State} (h : hostMemRead a s = .next t) :
    t = { s with bus := t.bus, fresh := t.fresh } := by
  have h := (foreignAccess_eq_next h).2
  split at h <;> (obtain rfl := Host.Outcome.next.inj h; rfl)

/-- A host memory write that answers next changed its byte alone, or raced with a command: then the byte holds any
value and the race is noted (R62, R205). -/
theorem hostMemWrite_eq_next {a : Word} {v : Byte} {s t : State} (h : hostMemWrite a v s = .next t) :
    (raced a s = false ∧ t = { s with mem := s.mem.write a.toNat v }) ∨
      (raced a s = true ∧ t = s.noteRace a.toNat) := by
  have h := (foreignAccess_eq_next h).2
  split at h
  · rename_i hr
    exact .inr ⟨hr, (Host.Outcome.next.inj h).symm⟩
  · rename_i hr
    exact .inl ⟨by simpa using hr, (Host.Outcome.next.inj h).symm⟩

/-- A step that answers next is a turn of the running engine, a turn that passed with nothing to do, or a host operation. -/
theorem step_cases {s t : State} (h : step s = .next t) :
    ((s.inputs = [] ∨ ∃ rest, s.inputs = .engine :: rest) ∧ s.eng.phase = .running ∧
        engineTurn { s with inputs := s.inputs.tail } = .next t) ∨
      ((s.inputs = [] ∨ ∃ rest, s.inputs = .engine :: rest) ∧ t = { s with inputs := s.inputs.tail }) ∨
      ∃ op rest, s.inputs = .host op :: rest ∧ hostStep op { s with inputs := rest } = .next t := by
  rcases hi : s.inputs with _ | ⟨turn, rest⟩
  · have hs : ({ s with inputs := ([] : List Turn).tail } : State) = s := by cases s; simp_all
    rw [hs]
    cases hp : s.eng.phase with
    | idle => rw [step_idle hi hp] at h; exact .inr (.inl ⟨.inl rfl, (Host.Outcome.next.inj h).symm⟩)
    | running => rw [step_turn hi] at h; exact .inl ⟨.inl rfl, rfl, h⟩
  · cases turn with
    | host op => exact .inr (.inr ⟨op, rest, rfl, by rw [← step_host hi]; exact h⟩)
    | engine =>
      rw [step_scheduled hi] at h
      rcases scheduledEngineTurn_cases h with ⟨hp, he⟩ | he
      · exact .inl ⟨.inr ⟨rest, rfl⟩, hp, he⟩
      · exact .inr (.inl ⟨.inr ⟨rest, rfl⟩, he⟩)

end Sys2Proof.Machine
end

