-- ==== Sys2Proof/Laws/Independence.lean ====
section
/-! SUPPORT. An engine step depends on nothing outside the engine, memory and the platform: the waiting turns
pass through it unchanged, and other flags, results or host registers make no other step (R33, R119). -/

namespace Sys2Proof.Machine

/-- s' holds the same engine, memory, platform and free-value index as s. -/
structure SameInside (s s' : State) : Prop where
  eng : s'.eng = s.eng
  mem : s'.mem = s.mem
  platform : s'.platform = s.platform
  fresh : s'.fresh = s.fresh

/-- t' is what t is from another outside: engine and memory alike, and the results if the command ended. -/
structure SameEnd (t t' : State) : Prop where
  inside : SameInside t t'
  ended : t.eng.phase = .idle → t'.status = t.status ∧ t'.resultLen = t.resultLen ∧ t'.errPos = t.errPos

theorem SameEnd.of_running {t t' : State} (h : SameInside t t') (hp : t.eng.phase = .running) : SameEnd t t' :=
  ⟨h, fun hi => by rw [hp] at hi; cases hi⟩

/-- Replacing the work fields of two states that are alike inside keeps them so. -/
theorem SameInside.work {s s' : State} (h : SameInside s s') (m : Memory) (e : Eng) :
    SameInside { s with mem := m, eng := e } { s' with mem := m, eng := e } :=
  ⟨rfl, rfl, h.platform, h.fresh⟩

theorem SameInside.complete {s s' : State} (h : SameInside s s') (len : Word) :
    SameEnd (s.complete len) (s'.complete len) := by
  refine ⟨⟨?_, h.mem, h.platform, ?_⟩, fun _ => ⟨rfl, rfl, rfl⟩⟩
  · simp [h.fresh]
  · simp [h.fresh]

theorem SameInside.raise {s s' : State} (h : SameInside s s') (e : ErrorKind) (pos : Word) :
    SameEnd (s.raise e pos) (s'.raise e pos) := by
  refine ⟨⟨?_, h.mem, h.platform, ?_⟩, fun _ => ⟨rfl, rfl, rfl⟩⟩
  · simp [h.fresh]
  · simp [h.fresh]

theorem SameInside.goto {s s' : State} (h : SameInside s s') (p : Point) (hp : s.eng.phase = .running) :
    SameEnd (s.goto p) (s'.goto p) :=
  .of_running ⟨by simp [h.eng], h.mem, h.platform, h.fresh⟩ hp

theorem SameInside.endScan {s s' : State} (h : SameInside s s') (hp : s.eng.phase = .running) :
    SameEnd s.endScan s'.endScan :=
  .of_running ⟨by simp [h.eng], h.mem, h.platform, h.fresh⟩ hp

theorem SameInside.loopTest {s s' : State} (h : SameInside s s') (p : Point) (hp : s.eng.phase = .running) :
    SameEnd (s.loopTest p) (s'.loopTest p) := by
  unfold State.loopTest
  rw [h.eng]
  split
  · exact h.goto p hp
  · exact h.complete _

theorem SameInside.checkCapacity {s s' : State} (h : SameInside s s') (p : Point) (hp : s.eng.phase = .running) :
    SameEnd (s.checkCapacity p) (s'.checkCapacity p) := by
  unfold State.checkCapacity
  rw [h.eng]
  split
  · exact h.goto p hp
  · exact h.raise _ _

theorem SameInside.scanTest {s s' : State} (h : SameInside s s') (hp : s.eng.phase = .running) :
    SameEnd s.scanTest s'.scanTest := by
  unfold State.scanTest
  rw [h.eng]
  split
  · exact h.goto _ hp
  · exact h.endScan hp

theorem SameInside.engineAccess {s s' t t' u : State} {a : Nat} (h : SameInside s s') (ht : SameEnd t t')
    (hn : engineAccess a s t = .next u) : ∃ u', engineAccess a s' t' = .next u' ∧ SameEnd u u' := by
  obtain ⟨ha, rfl⟩ := engineAccess_eq_next.1 hn
  exact ⟨t', engineAccess_ordinary t' (by rw [h.platform]; exact ha), ht⟩

theorem SameInside.fetchLit {s s' u : State} (h : SameInside s s') (b : Byte) (hp : s.eng.phase = .running)
    (hn : fetchLit b s = .next u) : ∃ u', Machine.fetchLit b s' = .next u' ∧ SameEnd u u' := by
  unfold Machine.fetchLit at *
  rw [show tokenAddress s' 0 = tokenAddress s 0 by simp [tokenAddress, h.eng]]
  refine h.engineAccess ?_ hn
  apply SameInside.checkCapacity
  · exact ⟨by simp [h.eng], h.mem, h.platform, h.fresh⟩
  · exact hp

theorem SameInside.writeLit {s s' u : State} (h : SameInside s s') (b : Byte) (hp : s.eng.phase = .running)
    (hn : writeLit b s = .next u) : ∃ u', Machine.writeLit b s' = .next u' ∧ SameEnd u u' := by
  unfold Machine.writeLit at *
  have hw : writeAddress s' = writeAddress s := by simp [writeAddress, h.eng]
  rw [hw]
  refine h.engineAccess ?_ hn
  apply SameInside.loopTest
  · exact ⟨by simp [h.eng], by simp [h.mem, hw], h.platform, h.fresh⟩
  · exact hp

theorem SameInside.fetchHeader {s s' u : State} (h : SameInside s s') (b : Byte) (hp : s.eng.phase = .running)
    (hn : fetchHeader b s = .next u) : ∃ u', Machine.fetchHeader b s' = .next u' ∧ SameEnd u u' := by
  unfold Machine.fetchHeader at *
  rw [show tokenAddress s' 0 = tokenAddress s 0 by simp [tokenAddress, h.eng]]
  refine h.engineAccess ?_ hn
  rw [h.eng]
  split
  · apply SameInside.goto
    · exact ⟨rfl, h.mem, h.platform, h.fresh⟩
    · exact hp
  · apply SameInside.raise
    · exact ⟨rfl, h.mem, h.platform, h.fresh⟩

theorem SameInside.fetchLength {s s' u : State} (h : SameInside s s') (n : Byte) (hp : s.eng.phase = .running)
    (hn : fetchLength n s = .next u) : ∃ u', Machine.fetchLength n s' = .next u' ∧ SameEnd u u' := by
  unfold Machine.fetchLength at *
  rw [show tokenAddress s' 1 = tokenAddress s 1 by simp [tokenAddress, h.eng]]
  refine h.engineAccess ?_ hn
  rw [h.eng]
  split
  · apply SameInside.raise
    · exact ⟨rfl, h.mem, h.platform, h.fresh⟩
  · apply SameInside.checkCapacity
    · exact ⟨rfl, h.mem, h.platform, h.fresh⟩
    · exact hp

theorem SameInside.writeCopy {s s' u : State} (h : SameInside s s') (v n : Byte) (hp : s.eng.phase = .running)
    (hn : writeCopy v n s = .next u) : ∃ u', Machine.writeCopy v n s' = .next u' ∧ SameEnd u u' := by
  unfold Machine.writeCopy at *
  have hw : writeAddress s' = writeAddress s := by simp [writeAddress, h.eng]
  rw [hw]
  refine h.engineAccess ?_ hn
  have hi : SameInside (s.emit v) (s'.emit v) := ⟨by simp [h.eng], by simp [h.mem, hw], h.platform, h.fresh⟩
  unfold State.nextCopy
  rw [hi.eng]
  split
  · apply SameInside.checkCapacity
    · exact ⟨rfl, hi.mem, h.platform, h.fresh⟩
    · exact hp
  · apply SameInside.loopTest
    · exact ⟨rfl, hi.mem, h.platform, h.fresh⟩
    · exact hp

theorem SameInside.exec_token {s s' u : State} {i : Instr} (h : SameInside s s')
    (hi : (∃ v, i = .lit v) ∨ ∃ v n, i = .run v n) (hn : exec i s = .next u) :
    ∃ u', exec i s' = .next u' ∧ SameEnd u u' := by
  rcases hi with ⟨v, rfl⟩ | ⟨v, n, rfl⟩
  · unfold exec execLit at *
    rw [h.eng]
    dsimp only at hn ⊢
    split at hn
    · rename_i hp hpt; exact h.fetchLit _ hp hn
    · rename_i hp hpt; exact h.writeLit _ hp hn
    · cases hn
  · unfold exec execRun at *
    rw [h.eng]
    dsimp only at hn ⊢
    split at hn
    · rename_i hp hpt; exact h.fetchHeader _ hp hn
    · rename_i hp hpt; exact h.fetchLength _ hp hn
    · rename_i hp hpt; exact h.writeCopy _ _ hp hn
    · cases hn

theorem SameInside.stepToken {s s' u : State} (h : SameInside s s') (hp : s.eng.phase = .running)
    (hn : stepToken s = .next u) : ∃ u', Machine.stepToken s' = .next u' ∧ SameEnd u u' := by
  have ht : ∀ i, tokenAddress s' i = tokenAddress s i := fun i => by simp [tokenAddress, h.eng]
  have hb : tokenBytes s' = tokenBytes s := by simp [tokenBytes, h.eng, h.mem, ht]
  unfold Machine.stepToken at *
  rw [hb, ht, h.mem]
  split at hn
  · rename_i i rest hd
    refine h.exec_token ?_ hn
    rcases decodeToken_eq_ok hd with ⟨v, hv, -⟩ | ⟨v, n, hv, -⟩
    · exact .inl ⟨v, hv⟩
    · exact .inr ⟨v, n, hv⟩
  · exact h.fetchHeader _ hp hn
  · cases hn

theorem SameInside.stepHandleCheck {s s' u : State} (h : SameInside s s') (hp : s.eng.phase = .running)
    (hn : stepHandleCheck s = .next u) : ∃ u', Machine.stepHandleCheck s' = .next u' ∧ SameEnd u u' := by
  unfold Machine.stepHandleCheck at *
  refine ⟨_, rfl, ?_⟩
  obtain rfl := Host.Outcome.next.inj hn
  unfold State.enterLoop
  rw [h.eng]
  split
  · apply SameInside.loopTest
    · exact ⟨rfl, h.mem, h.platform, h.fresh⟩
    · exact hp
  · exact h.raise _ _

/-- Two states alike inside take the same engine step. -/
theorem SameInside.engineStep {s s' u : State} (h : SameInside s s') (hp : s.eng.phase = .running)
    (hn : engineStep s = .next u) : ∃ u', Machine.engineStep s' = .next u' ∧ SameEnd u u' := by
  have ha : ∀ i, sourceAddress s' i = sourceAddress s i := fun i => by simp [sourceAddress, h.eng]
  unfold Machine.engineStep at *
  rw [h.eng]
  split at hn
  · exact h.stepHandleCheck hp hn
  · unfold stepEncLoad at *
    rw [ha, h.eng, h.mem]
    refine h.engineAccess ?_ hn
    dsimp only
    split
    · apply SameInside.raise
      · exact ⟨rfl, rfl, h.platform, h.fresh⟩
    · apply SameInside.scanTest
      · exact ⟨rfl, rfl, h.platform, h.fresh⟩
      · exact hp
  · unfold stepEncPeek at *
    rw [ha, h.eng, h.mem]
    refine h.engineAccess ?_ hn
    split
    · apply SameInside.scanTest
      · exact ⟨rfl, rfl, h.platform, h.fresh⟩
      · exact hp
    · exact h.endScan hp
  · unfold stepEncLit at *
    rw [ha, h.eng, h.mem]
    refine h.engineAccess ?_ hn
    apply SameInside.loopTest
    · exact ⟨rfl, rfl, h.platform, h.fresh⟩
    · exact hp
  · unfold stepEncHeader at *
    rw [ha, h.eng, h.mem]
    refine h.engineAccess ?_ hn
    apply SameInside.goto
    · exact ⟨rfl, rfl, h.platform, h.fresh⟩
    · exact hp
  · unfold stepEncLength at *
    rw [ha, h.eng, h.mem]
    refine h.engineAccess ?_ hn
    apply SameInside.loopTest
    · exact ⟨rfl, rfl, h.platform, h.fresh⟩
    · exact hp
  all_goals exact h.stepToken hp hn

/-- Two states alike inside, with the same flags and results, leave the same flags and results. -/
theorem SameEnd.engineStep_results {s s' t t' : State} (he : SameEnd t t') (h : Machine.engineStep s = .next t)
    (h' : Machine.engineStep s' = .next t') (hst : s'.status = s.status) (hlen : s'.resultLen = s.resultLen)
    (hpos : s'.errPos = s.errPos) :
    t'.status = t.status ∧ t'.resultLen = t.resultLen ∧ t'.errPos = t.errPos := by
  cases hph : t.eng.phase with
  | idle => exact he.ended hph
  | running =>
    rcases (engineStep_frame h).inside with g | g
    · rcases (engineStep_frame h').inside with g' | g'
      · exact ⟨g'.status.trans (hst.trans g.status.symm), g'.resultLen.trans (hlen.trans g.resultLen.symm),
          g'.errPos.trans (hpos.trans g.errPos.symm)⟩
      · have := g'.eng; rw [he.inside.eng] at this; rw [this] at hph; cases hph
    · have := g.eng; rw [this] at hph; cases hph

/-- The waiting turns and the note of raced bytes pass through an engine step. -/
theorem engineStep_passes {s t : State} (r : List Turn) (b : List Nat) (hp : s.eng.phase = .running)
    (h : engineStep s = .next t) :
    engineStep { s with inputs := r, racedBytes := b } = .next { t with inputs := r, racedBytes := b } := by
  have hs : SameInside s { s with inputs := r, racedBytes := b } := ⟨rfl, rfl, rfl, rfl⟩
  obtain ⟨t', ht', he⟩ := hs.engineStep hp h
  rw [ht']
  have hres := he.engineStep_results h ht' rfl rfl rfl
  have o := (engineStep_frame h).outside
  have o' := (engineStep_frame ht').outside
  congr 1
  cases t; cases t'
  simp only at hres
  obtain ⟨e1, e2, e3, e4⟩ := he.inside
  obtain ⟨o1, o2, o3, o4, o5, o6, o7, o8, o9⟩ := o
  obtain ⟨p1, p2, p3, p4, p5, p6, p7, p8, p9⟩ := o'
  simp_all

/-- The waiting turns pass through an engine step. -/
theorem engineStep_inputs {s t : State} (r : List Turn) (hp : s.eng.phase = .running) (h : engineStep s = .next t) :
    engineStep { s with inputs := r } = .next { t with inputs := r } := by
  have hr : t.racedBytes = s.racedBytes := (engineStep_frame h).outside.racedBytes
  have := engineStep_passes r s.racedBytes hp h
  rw [← hr] at this
  simpa [hr] using this

/-- The note of raced bytes passes through an engine step. -/
theorem engineStep_racedBytes {s t : State} (b : List Nat) (hp : s.eng.phase = .running)
    (h : engineStep s = .next t) : engineStep { s with racedBytes := b } = .next { t with racedBytes := b } := by
  have hi : t.inputs = s.inputs := (engineStep_frame h).outside.inputs
  have := engineStep_passes s.inputs b hp h
  rw [← hi] at this
  simpa [hi] using this

end Sys2Proof.Machine
end

