-- ==== Sys2Proof/Laws/Invariant.lean ====
section
/-! SUPPORT. What an engine step does to memory and to the cursors, from a state whose cursors are in bounds. -/

namespace Sys2Proof.Machine

/-- The state's cursors stand as its point asks, while it runs. -/
def CursorsOk (s : State) : Prop := s.eng.phase = .running → s.eng.CursorsAt s.eng.pt

theorem cursorsOk_of_idle {s : State} (h : s.eng.phase = .idle) : CursorsOk s := fun hr => by
  rw [h] at hr; cases hr

@[simp] theorem cursorsOk_complete (s : State) (len : Word) : CursorsOk (s.complete len) := cursorsOk_of_idle rfl

@[simp] theorem cursorsOk_raise (s : State) (e : ErrorKind) (pos : Word) : CursorsOk (s.raise e pos) :=
  cursorsOk_of_idle rfl

theorem cursorsOk_goto {s : State} {p : Point} (h : s.eng.CursorsAt p) : CursorsOk (s.goto p) := fun _ => by
  cases p <;> exact h

/-! ### The engine's step at each point -/

theorem engineStep_decFetch_lit {s : State} (hp : s.eng.phase = .running) (hpt : s.eng.pt = .decFetch)
    (h : tagOf (s.mem.read (tokenAddress s 0)) = false) :
    engineStep s = fetchLit (s.mem.read (tokenAddress s 0)) s := by
  simp [engineStep, hpt, stepToken_fetch_lit hp hpt h]

theorem engineStep_decFetch_header {s : State} (hp : s.eng.phase = .running) (hpt : s.eng.pt = .decFetch)
    (h : tagOf (s.mem.read (tokenAddress s 0)) = true) :
    engineStep s = fetchHeader (s.mem.read (tokenAddress s 0)) s := by
  simp [engineStep, hpt, stepToken_fetch_header hp hpt h]

theorem engineStep_decLit {s : State} (hp : s.eng.phase = .running) (hpt : s.eng.pt = .decLit)
    (h : tagOf s.eng.lit = false) : engineStep s = writeLit s.eng.lit s := by
  simp [engineStep, hpt, stepToken_lit hp hpt h]

theorem engineStep_decLength {s : State} (hp : s.eng.phase = .running) (hpt : s.eng.pt = .decLength)
    (h : tagOf s.eng.lit = true) : engineStep s = fetchLength (s.mem.read (tokenAddress s 1)) s := by
  simp [engineStep, hpt, stepToken_length hp hpt h]

theorem engineStep_decRun {s : State} (hp : s.eng.phase = .running) (hpt : s.eng.pt = .decRun)
    (h : tagOf s.eng.lit = true) : engineStep s = writeCopy (s.eng.lit &&& 0x7F#8) s.eng.len s := by
  simp [engineStep, hpt, stepToken_run hp hpt h]

/-- The ways an engine step goes, by the point it starts from. -/
theorem engineStep_cases {s : State} (hp : s.eng.phase = .running) (hc : s.eng.CursorsAt s.eng.pt) :
    (s.eng.pt = .handleCheck ∧ engineStep s = stepHandleCheck s) ∨
      (s.eng.pt = .encLoad ∧ engineStep s = stepEncLoad s) ∨
      (s.eng.pt = .encPeek ∧ engineStep s = stepEncPeek s) ∨
      (s.eng.pt = .encLit ∧ engineStep s = stepEncLit s) ∨
      (s.eng.pt = .encHeader ∧ engineStep s = stepEncHeader s) ∨
      (s.eng.pt = .encLength ∧ engineStep s = stepEncLength s) ∨
      (s.eng.pt = .decFetch ∧ tagOf (s.mem.read (tokenAddress s 0)) = false ∧
        engineStep s = fetchLit (s.mem.read (tokenAddress s 0)) s) ∨
      (s.eng.pt = .decFetch ∧ tagOf (s.mem.read (tokenAddress s 0)) = true ∧
        engineStep s = fetchHeader (s.mem.read (tokenAddress s 0)) s) ∨
      (s.eng.pt = .decLit ∧ engineStep s = writeLit s.eng.lit s) ∨
      (s.eng.pt = .decLength ∧ engineStep s = fetchLength (s.mem.read (tokenAddress s 1)) s) ∨
      (s.eng.pt = .decRun ∧ engineStep s = writeCopy (s.eng.lit &&& 0x7F#8) s.eng.len s) := by
  cases hpt : s.eng.pt
  case decFetch =>
    cases ht : tagOf (s.mem.read (tokenAddress s 0)) with
    | false => simp [engineStep_decFetch_lit hp hpt ht]
    | true => simp [engineStep_decFetch_header hp hpt ht]
  case decLit => rw [hpt] at hc; simp [engineStep_decLit hp hpt hc.2.2.2.2]
  case decLength => rw [hpt] at hc; simp [engineStep_decLength hp hpt hc.2.2.2.2]
  case decRun => rw [hpt] at hc; simp [engineStep_decRun hp hpt hc.2.2.2.2.1]
  all_goals simp [engineStep, hpt]

/-- A conditional end of a step leaves memory to the step. -/
@[simp] theorem loopTest_mem (s : State) (p : Point) : (s.loopTest p).mem = s.mem := by
  rcases loopTest_cases s p with ⟨-, h⟩ | ⟨-, h⟩ <;> rw [h] <;> rfl

@[simp] theorem checkCapacity_mem (s : State) (p : Point) : (s.checkCapacity p).mem = s.mem := by
  rcases checkCapacity_cases s p with ⟨-, h⟩ | ⟨-, h⟩ <;> rw [h] <;> rfl

@[simp] theorem scanTest_mem (s : State) : s.scanTest.mem = s.mem := by
  rcases scanTest_cases s with ⟨-, -, h⟩ | ⟨-, h⟩ <;> rw [h] <;> rfl

@[simp] theorem endToken_mem (s : State) (n : Nat) : (s.endToken n).mem = s.mem := by
  simp [State.endToken]

@[simp] theorem nextCopy_mem (s : State) (n : Byte) : (s.nextCopy n).mem = s.mem := by
  unfold State.nextCopy
  split <;> simp

/-- Memory after an engine step: the step's one write, at ordinary memory, or nothing (R52, R53). -/
theorem engineStep_mem {s t : State} (hp : s.eng.phase = .running) (hc : s.eng.CursorsAt s.eng.pt)
    (h : engineStep s = .next t) :
    (∀ a, nextAccess s = some (.read a) ∨ nextAccess s = some (.write a) → addressKind s.platform a = .ordinary) ∧
      ((∃ a v, nextAccess s = some (.write a) ∧ t.mem = s.mem.write a v) ∨
        (∀ a, nextAccess s ≠ some (.write a)) ∧ t.mem = s.mem) := by
  rcases engineStep_cases hp hc with ⟨hpt, he⟩ | ⟨hpt, he⟩ | ⟨hpt, he⟩ | ⟨hpt, he⟩ | ⟨hpt, he⟩ | ⟨hpt, he⟩ |
    ⟨hpt, -, he⟩ | ⟨hpt, -, he⟩ | ⟨hpt, he⟩ | ⟨hpt, he⟩ | ⟨hpt, he⟩ <;> rw [he] at h
  · refine ⟨by simp [nextAccess, hp, hpt], .inr ⟨by simp [nextAccess, hp, hpt], ?_⟩⟩
    rcases stepHandleCheck_cases s with ⟨-, hs⟩ | ⟨-, -, hs⟩ | ⟨-, -, hs⟩ <;>
      (rw [hs] at h; obtain rfl := Host.Outcome.next.inj h; rfl)
  · obtain ⟨ha, rfl⟩ := engineAccess_eq_next.1 h
    refine ⟨by simpa [nextAccess, hp, hpt] using ha, .inr ⟨by simp [nextAccess, hp, hpt], ?_⟩⟩
    dsimp only
    split <;> simp
  · obtain ⟨ha, rfl⟩ := engineAccess_eq_next.1 h
    refine ⟨by simpa [nextAccess, hp, hpt] using ha, .inr ⟨by simp [nextAccess, hp, hpt], ?_⟩⟩
    split <;> simp
  · obtain ⟨ha, rfl⟩ := engineAccess_eq_next.1 h
    exact ⟨by simpa [nextAccess, hp, hpt] using ha, .inl ⟨_, _, by simp [nextAccess, hp, hpt]; rfl, by simp; rfl⟩⟩
  · obtain ⟨ha, rfl⟩ := engineAccess_eq_next.1 h
    exact ⟨by simpa [nextAccess, hp, hpt] using ha, .inl ⟨_, _, by simp [nextAccess, hp, hpt]; rfl, by simp; rfl⟩⟩
  · obtain ⟨ha, rfl⟩ := engineAccess_eq_next.1 h
    exact ⟨by simpa [nextAccess, hp, hpt] using ha, .inl ⟨_, _, by simp [nextAccess, hp, hpt]; rfl, by simp; rfl⟩⟩
  · obtain ⟨ha, rfl⟩ := engineAccess_eq_next.1 h
    refine ⟨by simpa [nextAccess, hp, hpt] using ha, .inr ⟨by simp [nextAccess, hp, hpt], by simp⟩⟩
  · obtain ⟨ha, rfl⟩ := engineAccess_eq_next.1 h
    refine ⟨by simpa [nextAccess, hp, hpt] using ha, .inr ⟨by simp [nextAccess, hp, hpt], ?_⟩⟩
    split <;> simp
  · obtain ⟨ha, rfl⟩ := engineAccess_eq_next.1 h
    exact ⟨by simpa [nextAccess, hp, hpt] using ha, .inl ⟨_, _, by simp [nextAccess, hp, hpt]; rfl, by simp; rfl⟩⟩
  · obtain ⟨ha, rfl⟩ := engineAccess_eq_next.1 h
    refine ⟨by simpa [nextAccess, hp, hpt] using ha, .inr ⟨by simp [nextAccess, hp, hpt], ?_⟩⟩
    split <;> simp
  · obtain ⟨ha, rfl⟩ := engineAccess_eq_next.1 h
    exact ⟨by simpa [nextAccess, hp, hpt] using ha, .inl ⟨_, _, by simp [nextAccess, hp, hpt]; rfl, by simp; rfl⟩⟩

/-- An engine step keeps memory canonical. -/
theorem engineStep_wf {s t : State} (hp : s.eng.phase = .running) (hc : s.eng.CursorsAt s.eng.pt)
    (hm : s.mem.wf = true) (h : engineStep s = .next t) : t.mem.wf = true := by
  obtain ⟨hk, ⟨a, v, ha, ht⟩ | ⟨-, ht⟩⟩ := engineStep_mem hp hc h
  · rw [ht]
    exact Memory.write_wf v hm (addressKind_ordinary_lt (hk a (.inr ha)))
  · rw [ht]; exact hm

/-! ### The cursors after an engine step -/

theorem cursorsOk_loopTest {s : State} {p : Point} (h : s.eng.r.toNat < s.eng.sl.toNat → s.eng.CursorsAt p) :
    CursorsOk (s.loopTest p) := by
  rcases loopTest_cases s p with ⟨hr, h'⟩ | ⟨-, h'⟩ <;> rw [h']
  · exact cursorsOk_goto (h hr)
  · exact cursorsOk_complete _ _

theorem cursorsOk_checkCapacity {s : State} {p : Point} (h : s.eng.w.toNat < s.eng.dc.toNat → s.eng.CursorsAt p) :
    CursorsOk (s.checkCapacity p) := by
  rcases checkCapacity_cases s p with ⟨hr, h'⟩ | ⟨-, h'⟩ <;> rw [h']
  · exact cursorsOk_goto (h hr)
  · exact cursorsOk_raise _ _ _

/-- A 32-bit value as a number. -/
theorem word_lt (w : Word) : w.toNat < 4294967296 := w.isLt

/-- A byte below its last value counts on. -/
theorem byte_succ {b : Byte} (h : b.toNat < 255) : (b + 1).toNat = b.toNat + 1 := by
  rw [BitVec.toNat_add]; exact Nat.mod_eq_of_lt (by simpa using (by omega : b.toNat + 1 < 256))

/-- The scan test keeps the cursors in bounds (R131). -/
theorem cursorsOk_scanTest {s : State} (hop : s.eng.op = false) (hh : encodeHandlesOk s.eng = true)
    (hw : s.eng.w.toNat ≤ s.eng.r.toNat) (hr : s.eng.r.toNat + s.eng.len.toNat ≤ s.eng.sl.toNat)
    (hl : 1 ≤ s.eng.len.toNat) (ht : tagOf s.eng.lit = false) : CursorsOk s.scanTest := by
  rcases scanTest_cases s with ⟨h1, h2, h⟩ | ⟨-, h⟩ <;> rw [h]
  · exact cursorsOk_goto ⟨hop, hh, hw, h1, hl, h2, ht⟩
  · have ha : (advance s.eng.r s.eng.len.toNat).toNat = s.eng.r.toNat + s.eng.len.toNat :=
      advance_toNat (by have := word_lt s.eng.sl; omega)
    intro _
    by_cases h1 : s.eng.len = 1
    · have : s.eng.len.toNat = 1 := by simp [h1]
      simp only [State.endScan, h1, if_true, Eng.CursorsAt]
      refine ⟨hop, hh, ?_, ?_, trivial, ht⟩
      · rw [this] at ha; simp [ha]; omega
      · rw [this] at ha hr; simp [ha]; exact hr
    · have : s.eng.len.toNat ≠ 1 := fun h' => h1 (BitVec.eq_of_toNat_eq (by simpa using h'))
      have : 2 ≤ s.eng.len.toNat := by omega
      simp only [State.endScan, h1, if_false, Eng.CursorsAt, ha]
      exact ⟨hop, hh, by omega, hr, this, ht⟩

/-- An engine step keeps the cursors in bounds at the point it goes on to (R131, R151, R154, R171). -/
theorem engineStep_cursors {s t : State} (hp : s.eng.phase = .running) (hc : s.eng.CursorsAt s.eng.pt)
    (h : engineStep s = .next t) : CursorsOk t := by
  have hsl := word_lt s.eng.sl
  have hdc := word_lt s.eng.dc
  rcases engineStep_cases hp hc with ⟨hpt, he⟩ | ⟨hpt, he⟩ | ⟨hpt, he⟩ | ⟨hpt, he⟩ | ⟨hpt, he⟩ | ⟨hpt, he⟩ |
    ⟨hpt, ht, he⟩ | ⟨hpt, ht, he⟩ | ⟨hpt, he⟩ | ⟨hpt, he⟩ | ⟨hpt, he⟩ <;> rw [he] at h <;> rw [hpt] at hc
  · rcases stepHandleCheck_cases s with ⟨-, hs⟩ | ⟨hk, hpos, hs⟩ | ⟨-, -, hs⟩ <;>
      (rw [hs] at h; obtain rfl := Host.Outcome.next.inj h)
    · exact cursorsOk_raise _ _ _
    · intro _
      cases hop : s.eng.op with
      | false =>
        rw [handlesOk_encode hop] at hk
        exact ⟨hop, by simpa [encodeHandlesOk] using hk, by simp, by simpa using hpos⟩
      | true =>
        rw [handlesOk_decode hop] at hk
        exact ⟨hop, by simpa [decodeHandlesOk, and_assoc] using hk, by simpa using hpos, by simp⟩
    · exact cursorsOk_complete _ _
  · obtain ⟨-, rfl⟩ := engineAccess_eq_next.1 h
    obtain ⟨c1, c2, c3, c4⟩ := hc
    dsimp only
    split
    · exact cursorsOk_raise _ _ _
    · rename_i htag
      exact cursorsOk_scanTest c1 c2 c3 (by simpa using c4) (by simp) (by simpa [tagOf] using htag)
  · obtain ⟨-, rfl⟩ := engineAccess_eq_next.1 h
    obtain ⟨c1, c2, c3, c4, c5, c6, c7⟩ := hc
    have hb := byte_succ (b := s.eng.len) c6
    split
    · exact cursorsOk_scanTest c1 c2 c3 (by simp only [hb]; omega) (by simp only [hb]; omega) c7
    · have := cursorsOk_scanTest (s := s) c1 c2 c3 (by omega) c5 c7
      have ha : (advance s.eng.r s.eng.len.toNat).toNat = s.eng.r.toNat + s.eng.len.toNat :=
        advance_toNat (by omega)
      intro _
      by_cases h1 : s.eng.len = 1
      · have : s.eng.len.toNat = 1 := by simp [h1]
        simp only [State.endScan, h1, if_true, Eng.CursorsAt]
        rw [this] at ha
        exact ⟨c1, c2, by simp [ha]; omega, by simp [ha]; omega, trivial, c7⟩
      · have : s.eng.len.toNat ≠ 1 := fun h' => h1 (BitVec.eq_of_toNat_eq (by simpa using h'))
        have : 2 ≤ s.eng.len.toNat := by omega
        simp only [State.endScan, h1, if_false, Eng.CursorsAt, ha]
        exact ⟨c1, c2, by omega, by omega, this, c7⟩
  · obtain ⟨-, rfl⟩ := engineAccess_eq_next.1 h
    obtain ⟨c1, c2, c3, c4, c5, c6⟩ := hc
    have ha : (advance s.eng.w 1).toNat = s.eng.w.toNat + 1 := advance_toNat (by omega)
    exact cursorsOk_loopTest fun hr => ⟨c1, c2, by simp only [ha]; omega, hr⟩
  · obtain ⟨-, rfl⟩ := engineAccess_eq_next.1 h
    exact cursorsOk_goto hc
  · obtain ⟨-, rfl⟩ := engineAccess_eq_next.1 h
    obtain ⟨c1, c2, c3, c4, c5, c6⟩ := hc
    have ha : (advance s.eng.w 2).toNat = s.eng.w.toNat + 2 := advance_toNat (by omega)
    exact cursorsOk_loopTest fun hr => ⟨c1, c2, by simp only [ha]; omega, hr⟩
  · obtain ⟨-, rfl⟩ := engineAccess_eq_next.1 h
    obtain ⟨c1, c2, c3, c4⟩ := hc
    exact cursorsOk_checkCapacity fun hw => ⟨c1, c2, c3, hw, ht⟩
  · obtain ⟨-, rfl⟩ := engineAccess_eq_next.1 h
    obtain ⟨c1, c2, c3, c4⟩ := hc
    split
    · rename_i hr
      exact cursorsOk_goto ⟨c1, c2, hr, c4, ht⟩
    · exact cursorsOk_raise _ _ _
  · obtain ⟨-, rfl⟩ := engineAccess_eq_next.1 h
    obtain ⟨c1, c2, c3, c4, c5⟩ := hc
    have ha : (advance s.eng.w 1).toNat = s.eng.w.toNat + 1 := advance_toNat (by omega)
    have hb : (advance s.eng.r 1).toNat = s.eng.r.toNat + 1 := advance_toNat (by omega)
    exact cursorsOk_loopTest fun hr => ⟨c1, c2, hr, by simp [State.emit, ha]; omega⟩
  · obtain ⟨-, rfl⟩ := engineAccess_eq_next.1 h
    obtain ⟨c1, c2, c3, c4, c5⟩ := hc
    split
    · exact cursorsOk_raise _ _ _
    · rename_i hn
      have hn : 2 ≤ (s.mem.read (tokenAddress s 1)).toNat := Nat.not_lt.1 hn
      exact cursorsOk_checkCapacity fun hw => ⟨c1, c2, c3, hw, c5, hn, by simpa using (by omega : 0 < _)⟩
  · obtain ⟨-, rfl⟩ := engineAccess_eq_next.1 h
    obtain ⟨c1, c2, c3, c4, c5, c6, c7⟩ := hc
    have hlen : s.eng.len.toNat < 256 := s.eng.len.isLt
    have ha : (advance s.eng.w 1).toNat = s.eng.w.toNat + 1 := advance_toNat (by omega)
    have hk := byte_succ (b := s.eng.k) (by omega)
    unfold State.nextCopy
    split
    · rename_i hlt
      exact cursorsOk_checkCapacity fun hw => ⟨c1, c2, c3, hw, c5, c6, hk.symm ▸ hlt⟩
    · have hb : (advance s.eng.r 2).toNat = s.eng.r.toNat + 2 := advance_toNat (by omega)
      exact cursorsOk_loopTest fun hr => ⟨c1, c2, hr, by simp [State.emit, ha]; omega⟩

end Sys2Proof.Machine
end

