-- ==== Sys2Proof/Laws/PerInstr.lean ====
section
/-! SUPPORT. The statements made once per instruction: the form of each instruction's encoding. -/

namespace Sys2Proof

/-- Whether a command word starts a command: bit 0 of its row (R91); of a token, whether it has a length byte
(R83). -/
def Instr.lowBit : Instr → Bool
  | .encode _ _ => true
  | .decode _ _ => true
  | .ctrlSet _ _ _ => false
  | .lit _ => false
  | .run _ _ => true

end Sys2Proof

namespace Sys2Proof.Laws.EncodingForm

/-- The encoding of an instruction: a command word has its reserved bits 31:4 zero and START as its row says
(R90, R91); a token is as long as the tag of its first byte says, and its tag is its row's (R81 to R83). -/
def Statement (i : Instr) : Prop :=
  match encode i with
  | .command d => d &&& 0xFFFFFFF0#32 = 0 ∧ d.getLsbD 0 = i.lowBit
  | .token bytes => ∃ b rest, bytes = b :: rest ∧ bytes.length = tokenLength b ∧ tagOf b = i.lowBit

theorem encode (sv dv : Bool) : Statement (.encode sv dv) := by
  cases sv <;> cases dv <;> exact ⟨rfl, rfl⟩

theorem decode (sv dv : Bool) : Statement (.decode sv dv) := by
  cases sv <;> cases dv <;> exact ⟨rfl, rfl⟩

theorem ctrlSet (op sv dv : Bool) : Statement (.ctrlSet op sv dv) := by
  cases op <;> cases sv <;> cases dv <;> exact ⟨rfl, rfl⟩

theorem lit (v : Literal) : Statement (.lit v) :=
  ⟨_, _, rfl, by simp [tokenLength], tagOf_literalByte v⟩

theorem run (v : Literal) (n : Byte) : Statement (.run v n) :=
  ⟨_, _, rfl, by simp [tokenLength], tagOf_headerByte v⟩

end Sys2Proof.Laws.EncodingForm
end

