-- ==== Sys2Proof/Tests/Slice0.lean ====
section
/-! SUPPORT. Tests: the check of WellFormed, words written out from the spec's encodings, single steps of the
spec's examples and vectors (95_test_vectors), and for each obligation with hypotheses a state that meets them,
for each of its clauses. -/

namespace Sys2Proof.Machine.Tests

/-! ### WellFormed: the one ill-formed operand (R82, R86 b) -/

theorem test_wf_refuses_run_of_length_0 : (Instr.run 0x05#7 0x00#8).wf = false := by decide

theorem test_wf_refuses_run_of_length_1 : (Instr.run 0x05#7 0x01#8).wf = false := by decide

theorem test_wf_accepts_the_rest :
    (Instr.run 0x05#7 0x02#8).wf = true ∧ (Instr.run 0x7F#7 0xFF#8).wf = true ∧ (Instr.lit 0x00#7).wf = true ∧
      (Instr.encode false false).wf = true ∧ (Instr.decode true true).wf = true ∧
      (Instr.ctrlSet true false true).wf = true := by decide

/-! ### Decode: words written out from R81, R82, R90 and R91 -/

/-- R91: d[1:0] = 01, SRC_VALID = d[2] = 1, DST_VALID = d[3] = 0. -/
theorem test_decode_word_of_encode :
    decode (.command 0b00000000000000000000000000000101#32) = .ok (.encode true false) [] := by decide

/-- R91: d[1:0] = 11, SRC_VALID = d[2] = 0, DST_VALID = d[3] = 1. -/
theorem test_decode_word_of_decode :
    decode (.command 0b00000000000000000000000000001011#32) = .ok (.decode false true) [] := by decide

/-- R91: d[0] = 0, OP = d[1] = 1, SRC_VALID = d[2] = 0, DST_VALID = d[3] = 1; bits 31:4 are ignored. -/
theorem test_decode_word_of_ctrlSet :
    decode (.command 0b11111111111111111111111111111010#32) = .ok (.ctrlSet true false true) [] := by decide

/-- R81: `0vvvvvvv`; the bytes after it are left. -/
theorem test_decode_byte_of_lit :
    decode (.token [0b01000001#8, 0b10000000#8]) = .ok (.lit 0b1000001#7) [0b10000000#8] := by decide

/-- R82, R83: `1vvvvvvv nnnnnnnn`; a length byte with its bit 7 set is a length. -/
theorem test_decode_bytes_of_run :
    decode (.token [0b10000010#8, 0b10000001#8, 0b00000011#8]) =
      .ok (.run 0b0000010#7 0b10000001#8) [0b00000011#8] := by decide

/-- R86 a: a header with no length byte after it is no token; neither is an empty stream. -/
theorem test_decode_refuses_by_name :
    decode (.token [0x85#8]) = .error .truncatedRun ∧ decode (.token []) = .error .emptyStream := by decide

/-- The rows of opcode_table.json, at the fixed bits of each and with every operand bit set (log 15). -/
theorem test_decodeTableWord :
    decodeTableWord 8 1 = some (.encode false false) ∧ decodeTableWord 8 3 = some (.decode false false) ∧
      decodeTableWord 32 0xE = some (.ctrlSet true true true) ∧ decodeTableWord 8 0x7F = some (.lit 0x7F#7) ∧
      decodeTableWord 16 0xFFFE = some (.run 0x7F#7 0xFE#8) ∧ decodeTableWord 8 0x80 = some (.run 0x00#7 0x00#8) := by
  decide

/-! ### Small states -/

/-- The next state, where there is one. -/
def nextOf : Result → Option State
  | .next t => some t
  | .fault _ => none
  | .refused _ => none

/-- Program 1 and vector S5: the bytes 01 02 02 02 03 at 0x1000. -/
def literals : Memory := [(0x1000, 0x01#8), (0x1001, 0x02#8), (0x1002, 0x02#8), (0x1003, 0x02#8), (0x1004, 0x03#8)]

/-- Vector VD2: the stream 01 82 03 03 at 0x1000. -/
def stream : Memory := [(0x1000, 0x01#8), (0x1001, 0x82#8), (0x1002, 0x03#8), (0x1003, 0x03#8)]

/-- An idle block whose parameters are set, with the turns ts waiting. -/
def idleWith (sl dc : Word) (m : Memory) (ts : List Turn) : State :=
  { State.reset with srcBase := 0x1000, srcLen := sl, dstBase := 0x2000, dstCap := dc, mem := m, inputs := ts }

/-- A block that runs a command with both handles present. -/
def running (op : Bool) (sl dc : Word) (p : Point) (r w : Word) (lit len k : Byte) (m : Memory) (ts : List Turn) :
    State :=
  { idleWith sl dc m ts with
    ctrl := { op := op, srcValid := true, dstValid := true }, status := { busy := true, done := false, err := none },
    eng := {
      phase := .running, pt := p, op := op, sv := true, dv := true, sb := 0x1000, sl := sl, db := 0x2000, dc := dc,
      r := r, w := w, lit := lit, len := len, k := k } }

/-- The same block on a platform that does not back the addresses u and has devices at d. -/
def onPlatform (u d : List Region) (s : State) : State :=
  { s with platform := { s.platform with unbacked := u, devices := d } }

theorem idleWith_inv {sl dc : Word} {m : Memory} (ts : List Turn) (hm : m.wf = true) : (idleWith sl dc m ts).Inv := by
  refine ⟨hm, ?_, (fun h => nomatch h), (fun h => nomatch h), (fun _ h => nomatch h)⟩
  constructor <;> simp [idleWith, State.reset, Eng.reset]

theorem running_inv {op : Bool} {sl dc r w : Word} {p : Point} {lit len k : Byte} {m : Memory} (ts : List Turn)
    (hm : m.wf = true) (hc : (running op sl dc p r w lit len k m ts).eng.CursorsAt p) :
    (running op sl dc p r w lit len k m ts).Inv := by
  refine ⟨hm, ?_, fun _ => ⟨rfl, rfl, rfl, rfl, rfl⟩, fun _ => hc, fun _ h => nomatch h⟩
  constructor <;> simp [running, idleWith, State.reset]

/-- The invariant does not see the platform. -/
theorem onPlatform_inv {s : State} (u d : List Region) (h : s.Inv) : (onPlatform u d s).Inv :=
  ⟨h.mem, ⟨h.flags.1, h.flags.2, h.flags.3, h.flags.4, h.flags.5, h.flags.6⟩,
    fun hp => let l := h.latched hp; ⟨l.1, l.2, l.3, l.4, l.5⟩, h.cursors, h.races⟩

/-- The same state with the addresses as noted as raced. -/
def racing (as : List Nat) (s : State) : State := { s with racedBytes := as }

theorem racing_inv {s : State} {as : List Nat} (h : s.Inv)
    (ha : ∀ a ∈ as, s.eng.phase = .running ∧ a < Config.memBytes ∧ commandRegion s.eng a = true) : (racing as s).Inv :=
  ⟨h.mem, ⟨h.flags.1, h.flags.2, h.flags.3, h.flags.4, h.flags.5, h.flags.6⟩,
    fun hp => let l := h.latched hp; ⟨l.1, l.2, l.3, l.4, l.5⟩, h.cursors, ha⟩

/-- The platform of these states backs every address. -/
theorem ordinaryRegion_here (base len : Word) : ordinaryRegion State.reset.platform base len := by
  intro a ha _
  simp [addressKind, State.reset, inSome, Nat.not_le.2 ha]

/-! ### The meanings, one step each -/

/-- The example of R113: STATUS = 0x2, SRC_BASE = 0x1000, SRC_LEN = 5, `WR CTRL, 0x5`. -/
theorem test_encode_example :
    (nextOf (exec (.encode true false)
      { idleWith 5 0 literals [] with status := { busy := false, done := true, err := none } })).map
        (fun t => (readReg .status t, t.eng.op, t.eng.sb, t.eng.sl, readReg .ctrl t)) =
      some (0x1, false, 0x1000, 5, 0x4) := by decide

/-- Vector VC5: a START while BUSY is ignored. -/
theorem test_encode_while_busy :
    nextOf (exec (.encode true true) (running true 4 5 .decFetch 0 0 0 0 0 stream [])) =
      some (running true 4 5 .decFetch 0 0 0 0 0 stream []) := by decide

/-- Program 2, operation 4: the parameters are latched, STATUS = 1. -/
theorem test_decode_latches :
    (nextOf (exec (.decode true true) (idleWith 4 5 stream []))).map
        (fun t => (readReg .status t, t.eng.op, t.eng.sl, t.eng.db, t.eng.dc, readReg .ctrl t)) =
      some (0x1, true, 4, 0x2000, 5, 0xE) := by decide

/-- Vector VH2 with `WR CTRL, 0x7`: the START is accepted, and its handle check fails with STATUS = 0x12. -/
theorem test_decode_absent_handle :
    (nextOf (exec (.decode true false) (idleWith 1 5 stream []))).bind
        (fun t => (nextOf (step t)).map fun u => (readReg .status t, readReg .status u, u.errPos)) =
      some (0x1, 0x12, 0) := by decide

/-- Vector VC2: `WR CTRL, 0xFFFF_FFFE` reads back 0x0000_000E, and STATUS stays. -/
theorem test_ctrlSet_reads_back :
    (nextOf (step { idleWith 4 5 stream [wr State.reset.platform .ctrl 0xFFFFFFFE] with
      status := { busy := false, done := true, err := some .outOfRangeLiteral } })).map
        (fun t => (readReg .ctrl t, readReg .status t, t.eng.phase)) =
      some (0xE, 0x22, .idle) := by decide

/-- The example of R152: the stream `7F` into a capacity of 1. -/
theorem test_lit_example :
    (nextOf (exec (.lit 0x7F#7) (running true 1 1 .decLit 0 0 0x7F 0 0 [(0x1000, 0x7F#8)] []))).map
        (fun t => (t.mem.read 0x2000, t.resultLen, readReg .status t)) = some (0x7F, 1, 0x2) := by decide

/-- The example of R152: the stream `7F` into a capacity of 0. -/
theorem test_lit_full :
    (nextOf (exec (.lit 0x7F#7) (running true 1 0 .decFetch 0 0 0 0 0 [(0x1000, 0x7F#8)] []))).map
        (fun t => (t.mem, readReg .status t, t.resultLen, t.errPos)) =
      some ([(0x1000, 0x7F#8)], 0x42, 0, 0) := by decide

/-- Vector VD4: the last write of `8A 03` completes with RESULT_LEN = 3. -/
theorem test_run_last_copy :
    (nextOf (exec (.run 0x0A#7 0x03#8) (running true 2 3 .decRun 0 2 0x8A 3 2 [(0x1000, 0x8A#8), (0x1001, 0x03#8)] []))).map
        (fun t => (t.mem.read 0x2002, t.resultLen, readReg .status t)) = some (0x0A, 3, 0x2) := by decide

/-- Vector VD9: `85` into a capacity of 0: MalformedStream, not DestinationOverflow. -/
theorem test_run_truncated :
    (nextOf (step (running true 1 0 .decFetch 0 0 0 0 0 [(0x1000, 0x85#8)] []))).map
        (fun t => (readReg .status t, t.errPos)) = some (0x32, 0) := by decide

/-! ### Steps of the engine and of the host -/

/-- Program 1, step 7: the peek of the byte that ends the run moves the read cursor past it. -/
theorem test_encode_peek_ends_run :
    (nextOf (step (running false 5 0 .encPeek 1 1 0x02 3 0 literals []))).map (fun t => (t.eng.r, t.eng.pt)) =
      some (4, .encHeader) := by decide

/-- Program 1, step 11: the last write completes with RESULT_LEN = 4. -/
theorem test_encode_last_write :
    (nextOf (step (running false 5 0 .encLit 5 3 0x03 1 0 literals []))).map
        (fun t => (t.mem.read 0x1003, t.mem.read 0x1004, t.resultLen, readReg .status t)) =
      some (0x03, 0x03, 4, 0x2) := by decide

/-- The cap of 255: after 254 equal bytes one more ends the scan, though a 256th follows (R131). -/
theorem test_encode_cap :
    (nextOf (step (running false 300 0 .encPeek 0 0 0x00 254 0 [] []))).map (fun t => (t.eng.r, t.eng.len, t.eng.pt)) =
      some (255, 0xFF, .encHeader) := by decide

/-- R205: a foreign write to the source of a running command is noted, and the command runs on. -/
theorem test_race_is_noted :
    (nextOf (step (running true 4 5 .decFetch 0 0 0 0 0 stream [.host (.memWrite 0x1003 7)]))).map
        (fun t => (t.racedBytes, t.eng.pt, readReg .status t)) = some ([0x1003], .decFetch, 0x1) := by decide

/-- Vector VC7: a 16-bit read of STATUS and a misaligned 32-bit read are refused. -/
theorem test_host_access_refused :
    step (idleWith 4 5 stream [.host (.read 4 16)]) = .refused .accessNotAdmitted ∧
      step (idleWith 4 5 stream [.host (.read 2 32)]) = .refused .accessNotAdmitted := ⟨rfl, rfl⟩

/-- Each row placed by withFetchWord is what the next step runs (log 16). -/
theorem test_withFetchWord :
    nextOf (step (State.reset.withFetchWord 8 1)) = nextOf (exec (.encode false false) State.reset) ∧
      nextOf (step (State.reset.withFetchWord 8 3)) = nextOf (exec (.decode false false) State.reset) ∧
      nextOf (step (State.reset.withFetchWord 32 0xE)) = nextOf (exec (.ctrlSet true true true) State.reset) := by
  decide

/-- The tokens: the step after placing is their read, and the engine then stands at their next access. -/
theorem test_withFetchWord_tokens :
    (nextOf (step (State.reset.withFetchWord 8 0x41))).map (fun t => (t.eng.pt, t.eng.lit)) = some (.decLit, 0x41) ∧
      (nextOf (step (State.reset.withFetchWord 16 0x8A03))).map (fun t => (t.eng.pt, t.eng.lit)) =
        some (.decLength, 0x8A) := by decide

/-! ### Witnesses: for each obligation with hypotheses, states that meet them, clause by clause -/

/-- A step that answers, with what holds of the next state. -/
theorem next_of {r : Result} (p : State → Bool) (h : (nextOf r).any p = true) : ∃ t, r = .next t ∧ p t = true := by
  cases r <;> simp_all [nextOf]

/-- A step that answers. -/
theorem answers {r : Result} (h : (nextOf r).isSome = true) : ∃ t, r = .next t := by
  cases r <;> simp_all [nextOf]

/-- The same running block with other handle bits. -/
def withHandles (sv dv : Bool) (s : State) : State := { s with eng := { s.eng with sv := sv, dv := dv } }

theorem witness_ResetInputClearsRegisters :
    (∃ (s : State) (rest : List Turn), s.inputs = .host .reset :: rest ∧ s.eng.phase = .idle ∧ s.srcBase ≠ 0) ∧
      ∃ (s : State) (rest : List Turn), s.inputs = .host .reset :: rest ∧ s.eng.phase = .running :=
  ⟨⟨idleWith 4 5 stream [.host .reset, .engine], _, rfl, rfl, by decide⟩,
    ⟨running true 4 5 .decFetch 0 0 0 0 0 stream [.host .reset], _, rfl, rfl⟩⟩

/-- A DECODE at a write: the first and last bytes of its destination, the byte after it, and a byte of its source. -/
theorem witness_ResetAbandonsRunningCommand_decode :
    let s := running true 4 5 .decLit 0 0 0x01 0 0 stream [.host .reset];
    s.Inv ∧ s.eng.phase = .running ∧ s.inputs = .host .reset :: [] ∧ handlesOk s.eng = true ∧ s.eng.op = true ∧
      inRegion s.eng.db s.eng.dc 0x2000 = true ∧ inRegion s.eng.db s.eng.dc 0x2004 = true ∧
      inRegion s.eng.db s.eng.dc 0x2005 = false ∧ inRegion s.eng.sb s.eng.sl 0x1003 = true :=
  ⟨running_inv _ (by decide) (by simp only [Eng.CursorsAt]; decide), rfl, rfl, by decide, rfl, by decide, by decide,
    by decide, by decide⟩

/-- An ENCODE at a write: the first and last bytes of its source, and the byte after it. -/
theorem witness_ResetAbandonsRunningCommand_encode :
    let s := running false 5 0 .encHeader 4 1 0x02 3 0 literals [.host .reset];
    s.Inv ∧ s.eng.phase = .running ∧ s.inputs = .host .reset :: [] ∧ handlesOk s.eng = true ∧ s.eng.op = false ∧
      inRegion s.eng.sb s.eng.sl 0x1000 = true ∧ inRegion s.eng.sb s.eng.sl 0x1004 = true ∧
      inRegion s.eng.sb s.eng.sl 0x1005 = false :=
  ⟨running_inv _ (by decide) (by simp only [Eng.CursorsAt]; decide), rfl, rfl, by decide, rfl, by decide, by decide,
    by decide⟩

theorem witness_RegisterReadReturnsValue :
    let s := running true 4 5 .decFetch 0 0 0 0 0 stream [rd State.reset.platform .status];
    s.inputs = rd s.platform .status :: [] ∧ s.Inv ∧ s.status.busy = true :=
  ⟨rfl, running_inv _ (by decide) (by simp only [Eng.CursorsAt]; decide), rfl⟩

/-- Both ends of the window, and just past each edge: the next address, a misaligned one, a narrow access. -/
theorem witness_OnlyAlignedWordAccessesAdmitted :
    (∀ o : Nat × Nat, o = (0, 32) ∨ o = (0x1C, 32) →
      let s := idleWith 4 5 stream [.host (.read o.1 o.2), .host (.write o.1 o.2 0)];
      s.inputs = .host (.read o.1 o.2) :: [.host (.write o.1 o.2 0)] ∧ s.platform.regBase ≤ o.1 ∧
        o.1 < s.platform.regBase + 0x20 ∧ (o.1 - s.platform.regBase) % 4 = 0 ∧ o.2 = 32) ∧
      ∀ o : Nat × Nat, o = (0x20, 32) ∨ o = (0x1D, 32) ∨ o = (0x1C, 16) →
        let s := idleWith 4 5 stream [.host (.write o.1 o.2 0)];
        s.inputs = .host (.write o.1 o.2 0) :: [] ∧ ¬ (s.platform.regBase ≤ o.1 ∧
          o.1 < s.platform.regBase + 0x20 ∧ (o.1 - s.platform.regBase) % 4 = 0 ∧ o.2 = 32) := by
  constructor
  · rintro _ (rfl | rfl) <;> exact ⟨rfl, by decide, by decide, by decide, rfl⟩
  · rintro _ (rfl | rfl | rfl) <;> exact ⟨rfl, by decide⟩

/-- Every register and word; the CTRL word 0x2 has START = 0. -/
theorem witness_IdleRegisterWrites :
    (∀ g d, let s := idleWith 4 5 stream [wr State.reset.platform g d];
      s.inputs = wr s.platform g d :: [] ∧ s.status.busy = false) ∧
      Reg.srcBase ≠ Reg.ctrl ∧ ¬ (Reg.ctrl = Reg.ctrl ∧ (0x2 : Word).getLsbD 0 = true) :=
  ⟨fun _ _ => ⟨rfl, rfl⟩, by decide, by decide⟩

theorem witness_StartLatchesTheParameters :
    let s := idleWith 4 5 stream [wr State.reset.platform .ctrl 0xF];
    s.inputs = wr s.platform .ctrl 0xF :: [] ∧ s.status.busy = false ∧ (0xF : Word).getLsbD 0 = true :=
  ⟨rfl, rfl, rfl⟩

theorem witness_EncodeAndDecodeStart : (idleWith 4 5 stream []).status.busy = false := rfl

theorem witness_CtrlSetStoresItsFields : (idleWith 0xFFFFFFFF 0xFFFFFFFF stream []).status.busy = false := rfl

theorem witness_WritesWhileBusyIgnored :
    let s := running true 4 5 .decFetch 0 0 0 0 0 stream [wr State.reset.platform .ctrl 0x7];
    s.inputs = wr s.platform .ctrl 0x7 :: [] ∧ s.status.busy = true := ⟨rfl, rfl⟩

theorem witness_StatusReadsOneOfSevenValues :
    State.reset.Inv ∧ (running true 4 5 .decFetch 0 0 0 0 0 stream []).Inv :=
  ⟨⟨rfl, by constructor <;> decide, (fun h => nomatch h), (fun h => nomatch h), (fun _ h => nomatch h)⟩,
    running_inv _ (by decide) (by simp only [Eng.CursorsAt]; decide)⟩

/-- A START, a success, an error and a reset each change the flags. -/
theorem witness_OnlyFourWritersOfTheFlags :
    (∃ t, step (idleWith 4 5 stream [wr State.reset.platform .ctrl 0xF]) = .next t ∧ t.status.busy = true) ∧
      (∃ t, step (running true 1 1 .decLit 0 0 0x01 0 0 stream []) = .next t ∧ t.status.done = true) ∧
      (∃ t, step (running true 1 0 .decFetch 0 0 0 0 0 stream []) = .next t ∧
        (t.status.err = some .destinationOverflow : Bool) = true) ∧
      (∃ t, step (running true 4 5 .decFetch 0 0 0 0 0 stream [.host .reset]) = .next t ∧ (!t.status.busy) = true) ∧
      EngineMoves (running true 1 1 .decLit 0 0 0x01 0 0 stream []) :=
  ⟨next_of (·.status.busy) (by decide), next_of (·.status.done) (by decide),
    next_of (fun t => t.status.err = some .destinationOverflow) (by decide), next_of (!·.status.busy) (by decide),
    rfl, rfl, rfl⟩

/-- Clause 1 at a STATUS read, clause 2 at a START. -/
theorem witness_ResultsStayUntilNextStart :
    (let s := idleWith 4 5 stream [rd State.reset.platform .status];
      s.FlagsAgree ∧ s.status.busy = false ∧ (∃ t, step s = .next t) ∧
        (¬ ∃ d rest, s.inputs = wr s.platform .ctrl d :: rest ∧ d.getLsbD 0 = true) ∧
        ¬ ∃ rest, s.inputs = .host .reset :: rest) ∧
      let s := idleWith 4 5 stream [wr State.reset.platform .ctrl 0x1];
      s.FlagsAgree ∧ s.status.busy = false ∧ (∃ t, step s = .next t) ∧
        ∃ d rest, s.inputs = wr s.platform .ctrl d :: rest ∧ d.getLsbD 0 = true :=
  ⟨⟨(idleWith_inv _ (by decide)).flags, rfl, answers (by decide), by simp [idleWith, rd, wr], by simp [idleWith, rd]⟩,
    (idleWith_inv _ (by decide)).flags, rfl, answers (by decide), 0x1, [], rfl, rfl⟩

/-- The last address of the space, and, while a command runs, the byte after its source. -/
theorem witness_HostMemoryWriteIsReadBack :
    (let s := idleWith 4 5 stream [.host (.memWrite 0xFFFFFFFF 7), .host (.memRead 0xFFFFFFFF)];
      s.mem.wf = true ∧ addressKind s.platform (0xFFFFFFFF : Word).toNat = .ordinary ∧ raced 0xFFFFFFFF s = false) ∧
      let s := running true 4 5 .decFetch 0 0 0 0 0 stream [.host (.memWrite 0x1004 7), .host (.memRead 0x1004)];
      s.mem.wf = true ∧ addressKind s.platform (0x1004 : Word).toNat = .ordinary ∧ raced 0x1004 s = false ∧
        s.inputs = .host (.memWrite 0x1004 7) :: .host (.memRead 0x1004) :: [] := by
  decide

/-- The last byte of the source and of the destination; an address not backed, and a device. -/
theorem witness_ForeignAccessToBusyRegion :
    (let s := running true 4 5 .decFetch 0 0 0 0 0 stream [.host (.memWrite 0x1003 7)];
      addressKind s.platform (0x1003 : Word).toNat = .ordinary ∧ s.status.busy = true ∧
        inRegion s.eng.sb s.eng.sl (0x1003 : Word).toNat = true ∧ s.inputs = .host (.memWrite 0x1003 7) :: []) ∧
      (let s := running true 4 5 .decFetch 0 0 0 0 0 stream [.host (.memRead 0x2004)];
        addressKind s.platform (0x2004 : Word).toNat = .ordinary ∧ s.status.busy = true ∧ s.eng.op = true ∧
          inRegion s.eng.db s.eng.dc (0x2004 : Word).toNat = true ∧ s.inputs = .host (.memRead 0x2004) :: []) ∧
      let s := onPlatform [⟨0x3000, 1⟩] [⟨0x4000, 1⟩]
        (idleWith 4 5 stream [.host (.memRead 0x3000), .host (.memWrite 0x4000 1)]);
      s.inputs = .host (.memRead 0x3000) :: [.host (.memWrite 0x4000 1)] ∧
        addressKind s.platform (0x3000 : Word).toNat = .unbacked ∧
        addressKind s.platform (0x4000 : Word).toNat = .device := by
  decide

/-- A step that reads a raced byte, whatever the byte: the peek after a run of one, which the command survives. -/
theorem witness_ForeignAccessToBusyRegion_read :
    let s := racing [0x1001] (running false 5 0 .encPeek 0 0 0x01 1 0 literals []);
    s.Inv ∧ s.inputs = [] ∧ s.eng.phase = .running ∧ 0x1001 ∈ s.racedBytes ∧ nextAccess s = some (.read 0x1001) ∧
      ∃ t, step { s with
        mem := s.mem.write 0x1001 (Config.freeByte s.fresh), fresh := s.fresh + 1, racedBytes := [] } = .next t ∧
        t.eng.phase = .running := by
  refine ⟨racing_inv (running_inv _ (by decide) (by simp only [Eng.CursorsAt]; decide)) (by decide), rfl, rfl,
    by decide, rfl, ?_⟩
  rw [step_engine ⟨rfl, rfl, rfl⟩]
  change ∃ t, stepEncPeek _ = .next t ∧ _
  refine ⟨_, engineAccess_ordinary _ (by decide), ?_⟩
  split
  · rcases scanTest_cases _ with ⟨-, -, h⟩ | ⟨-, h⟩ <;> rw [h] <;> rfl
  · rfl

/-- A step that reads no raced byte, and a last write at a raced byte. -/
theorem witness_ForeignAccessToBusyRegion_end :
    (let s := racing [0x2000] (running true 4 5 .decLit 0 0 1 0 0 stream []);
      s.Inv ∧ s.inputs = [] ∧ s.eng.phase = .running ∧ (∀ a ∈ s.racedBytes, nextAccess s ≠ some (.read a)) ∧
        ∃ t, step { s with racedBytes := [] } = .next t ∧ decide (t.eng.phase = .running) = true) ∧
      let s := racing [0x2000] (running true 1 1 .decLit 0 0 1 0 0 stream []);
      s.Inv ∧ s.inputs = [] ∧ s.racedBytes ≠ [] ∧ handlesOk s.eng = true ∧
        ∃ t, step s = .next t ∧ decide (t.eng.phase = .idle) = true :=
  ⟨⟨racing_inv (running_inv _ (by decide) (by simp only [Eng.CursorsAt]; decide)) (by decide), rfl, rfl, by decide,
      next_of (fun t => decide (t.eng.phase = .running)) (by decide)⟩,
    racing_inv (running_inv _ (by decide) (by simp only [Eng.CursorsAt]; decide)) (by decide), rfl, by decide, by decide,
    next_of (fun t => decide (t.eng.phase = .idle)) (by decide)⟩

/-- A raced command whose regions overlap. -/
theorem witness_ForeignAccessToBusyRegion_invalid :
    let s := racing [0x2000] (running true 0x1001 1 .handleCheck 0 0 0 0 0 stream []);
    s.Inv ∧ s.racedBytes ≠ [] ∧ s.inputs = [] ∧ s.eng.phase = .running ∧ s.eng.pt = .handleCheck ∧
      handlesOk s.eng = false :=
  ⟨racing_inv (running_inv _ (by decide) trivial) (by decide), by decide, rfl, rfl, rfl, by decide⟩

/-- R205, 93 U8: the end of a raced DECODE leaves any value in a byte that the engine wrote and no one raced. -/
theorem test_raced_end_frees_the_output :
    let s := racing [0x1003] (running true 4 3 .decRun 1 2 0x82 3 1 (stream ++ [(0x2000, 0x01#8), (0x2001, 0x02#8)]) []);
    ∃ i, (s.raceEnd s.eng).mem.read 0x2001 = Config.freeByte i := by
  intro s
  have h := raceEnd_read (e := s.eng) (s := s) (by decide) (by decide) (by decide) 0x2001
  rw [if_pos (by decide)] at h
  exact ⟨h.choose, h.choose_spec.1⟩

/-- A read and a write at an address not backed, with no turn waiting and with two engine turns; a device. -/
theorem witness_UnbackedAccessIsStuck :
    (let s := onPlatform [⟨0x1000, 4⟩] [] (running true 4 5 .decFetch 0 0 0 0 0 stream []);
      s.Inv ∧ s.eng.phase = .running ∧ nextAccess s = some (.read 0x1000) ∧
        addressKind s.platform 0x1000 = .unbacked ∧ s.inputs = []) ∧
      (let s := onPlatform [⟨0x2000, 1⟩] [] (running true 4 5 .decLit 0 0 1 0 0 stream [.engine, .engine]);
        s.Inv ∧ s.eng.phase = .running ∧ nextAccess s = some (.write 0x2000) ∧
          addressKind s.platform 0x2000 = .unbacked ∧ s.inputs = List.replicate 2 .engine ++ []) ∧
      let s := onPlatform [] [⟨0x1003, 1⟩] (running true 4 5 .decFetch 3 4 0 0 0 stream []);
      s.Inv ∧ s.eng.phase = .running ∧ nextAccess s = some (.read 0x1003) ∧
        addressKind s.platform 0x1003 = .device ∧ s.inputs = [] :=
  ⟨⟨onPlatform_inv _ _ (running_inv _ (by decide) (by simp only [Eng.CursorsAt]; decide)), rfl, rfl, by decide, rfl⟩,
    ⟨onPlatform_inv _ _ (running_inv _ (by decide) (by simp only [Eng.CursorsAt]; decide)), rfl, rfl, by decide, rfl⟩,
    onPlatform_inv _ _ (running_inv _ (by decide) (by simp only [Eng.CursorsAt]; decide)), rfl, rfl, by decide, rfl⟩

/-- A reading step, with an address that is not written, and a writing step. -/
theorem witness_EngineStepMakesItsOneAccess :
    (let s := running true 4 5 .decFetch 0 0 0 0 0 stream [];
      s.Inv ∧ EngineMoves s ∧ (∃ t, step s = .next t) ∧ nextAccess s = some (.read 0x1000) ∧
        nextAccess s ≠ some (.write 0x1000)) ∧
      let s := running true 4 5 .decLit 0 0 1 0 0 stream [];
      s.Inv ∧ EngineMoves s ∧ (∃ t, step s = .next t) ∧ nextAccess s = some (.write 0x2000) ∧
        nextAccess s ≠ some (.write 0x2001) :=
  ⟨⟨running_inv _ (by decide) (by simp only [Eng.CursorsAt]; decide), ⟨rfl, rfl, rfl⟩, answers (by decide), rfl, by decide⟩,
    running_inv _ (by decide) (by simp only [Eng.CursorsAt]; decide), ⟨rfl, rfl, rfl⟩, answers (by decide), rfl, by decide⟩

/-- A memory that differs in the byte after the one read. -/
theorem witness_EngineStepReadsOnlyItsByte :
    let s := running true 4 5 .decFetch 0 0 0 0 0 stream [];
    s.Inv ∧ EngineMoves s ∧ (∃ t, step s = .next t) ∧
      (∀ a, nextAccess s = some (.read a) → Memory.read [(0x1000, 0x01#8), (0x1001, 0x33#8)] a = s.mem.read a) ∧
      s.mem ≠ [(0x1000, 0x01#8), (0x1001, 0x33#8)] := by
  refine ⟨running_inv _ (by decide) (by simp only [Eng.CursorsAt]; decide), ⟨rfl, rfl, rfl⟩, answers (by decide), ?_,
    by decide⟩
  intro a h
  have h : some (Access.read 0x1000) = some (.read a) := h
  simp only [Option.some.injEq, Access.read.injEq] at h
  subst h
  decide

/-- A read and a write of each command at the ends of its regions, and the handle check. -/
theorem witness_AccessesStayInTheRegions :
    (let s := running false 5 0 .encPeek 3 1 0x02 1 0 literals [];
      s.Inv ∧ s.eng.phase = .running ∧ nextAccess s = some (.read 0x1004)) ∧
      (let s := running false 5 0 .encLit 5 3 0x03 1 0 literals [];
        s.Inv ∧ s.eng.phase = .running ∧ nextAccess s = some (.write 0x1003) ∧ s.eng.op = false) ∧
      (let s := running true 4 5 .decFetch 3 4 0 0 0 stream [];
        s.Inv ∧ s.eng.phase = .running ∧ nextAccess s = some (.read 0x1003)) ∧
      (let s := running true 4 5 .decLit 3 4 3 0 0 stream [];
        s.Inv ∧ s.eng.phase = .running ∧ nextAccess s = some (.write 0x2004) ∧ s.eng.op = true) ∧
      let s := running true 4 5 .handleCheck 0 0 0 0 0 stream [];
      s.Inv ∧ s.eng.phase = .running ∧ s.eng.pt = .handleCheck :=
  ⟨⟨running_inv _ (by decide) (by simp only [Eng.CursorsAt]; decide), rfl, rfl⟩,
    ⟨running_inv _ (by decide) (by simp only [Eng.CursorsAt]; decide), rfl, rfl, rfl⟩,
    ⟨running_inv _ (by decide) (by simp only [Eng.CursorsAt]; decide), rfl, rfl⟩,
    ⟨running_inv _ (by decide) (by simp only [Eng.CursorsAt]; decide), rfl, rfl, rfl⟩,
    running_inv _ (by decide) trivial, rfl, rfl⟩

theorem witness_IdleEngineDoesNothing :
    (idleWith 4 5 stream []).eng.phase = .idle ∧ (idleWith 4 5 stream []).inputs = [] ∧
      (idleWith 4 5 stream [.engine]).eng.phase = .idle ∧ (idleWith 4 5 stream [.engine]).inputs = .engine :: [] :=
  ⟨rfl, rfl, rfl, rfl⟩

theorem witness_PlatformNeverChanges :
    ∃ t, step (onPlatform [⟨0x3000, 1⟩] [] (running true 4 5 .decFetch 0 0 0 0 0 stream [])) = .next t :=
  answers (by decide)

/-- A region that ends at 2^32, one byte more, and the empty one; a source and a destination one byte too long. -/
theorem witness_RegionValidity :
    (inRange 0xFFFFFFFF 1 = true ∧ 0 < (1 : Word).toNat ∧ inRange 0xFFFFFFFF 0 = true) ∧
      (let s := running false 0xFFFFF001 0 .handleCheck 0 0 0 0 0 [] [];
        EngineMoves s ∧ s.eng.pt = .handleCheck ∧ 2 ^ 32 < s.eng.sb.toNat + s.eng.sl.toNat) ∧
      let s := running true 4 0xFFFFE001 .handleCheck 0 0 0 0 0 stream [];
      EngineMoves s ∧ s.eng.pt = .handleCheck ∧ s.eng.op = true ∧ 2 ^ 32 < s.eng.db.toNat + s.eng.dc.toNat :=
  ⟨by decide, ⟨⟨rfl, rfl, rfl⟩, rfl, by decide⟩, ⟨rfl, rfl, rfl⟩, rfl, rfl, by decide⟩

/-- An absent source; a source one byte too long; the longest one; an empty one. -/
theorem witness_EncodeHandleCheck :
    (let s := withHandles false false (running false 5 0 .handleCheck 0 0 0 0 0 literals []);
      EngineMoves s ∧ s.eng.pt = .handleCheck ∧ s.eng.op = false ∧ s.eng.sv = false) ∧
      (let s := running false 0xFFFFF001 0 .handleCheck 0 0 0 0 0 literals [];
        EngineMoves s ∧ s.eng.pt = .handleCheck ∧ s.eng.op = false ∧ 2 ^ 32 < s.eng.sb.toNat + s.eng.sl.toNat) ∧
      (let s := withHandles true false (running false 0xFFFFF000 0 .handleCheck 0 0 0 0 0 literals []);
        EngineMoves s ∧ s.eng.pt = .handleCheck ∧ s.eng.op = false ∧ s.eng.sv = true ∧
          s.eng.sb.toNat + s.eng.sl.toNat ≤ 2 ^ 32 ∧ 0 < s.eng.sl.toNat) ∧
      let s := running false 0 0 .handleCheck 0 0 0 0 0 literals [];
      EngineMoves s ∧ s.eng.pt = .handleCheck ∧ s.eng.op = false ∧ s.eng.sv = true ∧ s.eng.sl = 0 :=
  ⟨⟨⟨rfl, rfl, rfl⟩, rfl, rfl, rfl⟩, ⟨⟨rfl, rfl, rfl⟩, rfl, rfl, by decide⟩, ⟨⟨rfl, rfl, rfl⟩, rfl, rfl, rfl, by decide, by decide⟩,
    ⟨rfl, rfl, rfl⟩, rfl, rfl, rfl, rfl⟩

/-- The ways to fail: an absent handle, a region one byte too long, an overlap of one byte. -/
theorem witness_DecodeHandleCheck_fails :
    (∀ s, s = withHandles false true (running true 4 5 .handleCheck 0 0 0 0 0 stream []) ∨
        s = withHandles true false (running true 4 5 .handleCheck 0 0 0 0 0 stream []) ∨
        s = running true 0xFFFFF001 5 .handleCheck 0 0 0 0 0 stream [] ∨
        s = running true 4 0xFFFFE001 .handleCheck 0 0 0 0 0 stream [] ∨
        s = running true 0x1001 1 .handleCheck 0 0 0 0 0 stream [] →
      EngineMoves s ∧ s.eng.pt = .handleCheck ∧ s.eng.op = true ∧
        (s.eng.sv = false ∨ s.eng.dv = false ∨ 2 ^ 32 < s.eng.sb.toNat + s.eng.sl.toNat ∨
          2 ^ 32 < s.eng.db.toNat + s.eng.dc.toNat ∨
          (0 < s.eng.sl.toNat ∧ 0 < s.eng.dc.toNat ∧ s.eng.sb.toNat < s.eng.db.toNat + s.eng.dc.toNat ∧
            s.eng.db.toNat < s.eng.sb.toNat + s.eng.sl.toNat))) := by
  rintro _ (rfl | rfl | rfl | rfl | rfl) <;> exact ⟨⟨rfl, rfl, rfl⟩, rfl, rfl, by decide⟩

/-- The ways to pass: regions that touch, and an empty source. -/
theorem witness_DecodeHandleCheck_passes :
    ∀ s, s = running true 0x1000 0xFFFFE000 .handleCheck 0 0 0 0 0 stream [] ∨
        s = running true 0 5 .handleCheck 0 0 0 0 0 stream [] →
      EngineMoves s ∧ s.eng.pt = .handleCheck ∧ s.eng.op = true ∧ s.eng.sv = true ∧ s.eng.dv = true ∧
        s.eng.sb.toNat + s.eng.sl.toNat ≤ 2 ^ 32 ∧ s.eng.db.toNat + s.eng.dc.toNat ≤ 2 ^ 32 ∧
        ¬ (0 < s.eng.sl.toNat ∧ 0 < s.eng.dc.toNat ∧ s.eng.sb.toNat < s.eng.db.toNat + s.eng.dc.toNat ∧
          s.eng.db.toNat < s.eng.sb.toNat + s.eng.sl.toNat) ∧
        (0 < s.eng.sl.toNat ∨ s.eng.sl = 0) := by
  rintro _ (rfl | rfl) <;> exact ⟨⟨rfl, rfl, rfl⟩, rfl, rfl, rfl, rfl, by decide, by decide, by decide, by decide⟩

theorem witness_DispatchAfterHandleCheck :
    ∀ s, s = running true 4 5 .handleCheck 0 0 0 0 0 stream [] ∨ s = running false 5 0 .handleCheck 0 0 0 0 0 literals [] ∨
        s = running true 0 5 .handleCheck 0 0 0 0 0 stream [] ∨ s = running false 0 0 .handleCheck 0 0 0 0 0 literals [] →
      EngineMoves s ∧ s.eng.pt = .handleCheck ∧ handlesOk s.eng = true ∧ (0 < s.eng.sl.toNat ∨ s.eng.sl = 0) := by
  rintro _ (rfl | rfl | rfl | rfl) <;> exact ⟨⟨rfl, rfl, rfl⟩, rfl, by decide, by decide⟩

/-- A last write, and each of the error kinds. -/
theorem witness_CompletionIsSuccessOrError :
    ∀ s, s = running true 1 1 .decLit 0 0 0x01 0 0 stream [] ∨ s = running true 1 0 .decFetch 0 0 0 0 0 stream [] ∨
        s = running true 2 5 .decFetch 1 1 0 0 0 stream [] ∨
        s = running false 1 0 .encLoad 0 0 0 0 0 [(0x1000, 0x80#8)] [] ∨
        s = running true 0x1001 1 .handleCheck 0 0 0 0 0 stream [] →
      s.Inv ∧ EngineMoves s ∧ ∃ t, step s = .next t ∧ (!t.status.busy) = true := by
  rintro _ (rfl | rfl | rfl | rfl | rfl) <;>
    exact ⟨running_inv _ (by decide) (by trivial), ⟨rfl, rfl, rfl⟩,
      next_of (!·.status.busy) (by decide)⟩

/-- A first byte out of range; a literal with a byte after it; a literal that is the last byte. -/
theorem witness_EncoderScanStep_load :
    (let s := running false 2 0 .encLoad 1 1 0 0 0 [(0x1000, 0x01#8), (0x1001, 0x80#8)] [];
      s.Inv ∧ EngineMoves s ∧ addressKind s.platform (s.eng.sb.toNat + s.eng.r.toNat) = .ordinary ∧
        tagOf (s.mem.read (s.eng.sb.toNat + s.eng.r.toNat)) = true) ∧
      (let s := running false 5 0 .encLoad 0 0 0 0 0 literals [];
        s.Inv ∧ EngineMoves s ∧ addressKind s.platform (s.eng.sb.toNat + s.eng.r.toNat) = .ordinary ∧
          tagOf (s.mem.read (s.eng.sb.toNat + s.eng.r.toNat)) = false ∧ s.eng.r.toNat + 1 < s.eng.sl.toNat) ∧
      let s := running false 5 0 .encLoad 4 3 0 0 0 literals [];
      s.Inv ∧ EngineMoves s ∧ addressKind s.platform (s.eng.sb.toNat + s.eng.r.toNat) = .ordinary ∧
        tagOf (s.mem.read (s.eng.sb.toNat + s.eng.r.toNat)) = false ∧ s.eng.r.toNat + 1 = s.eng.sl.toNat :=
  ⟨⟨running_inv _ (by decide) (by simp only [Eng.CursorsAt]; decide), ⟨rfl, rfl, rfl⟩, by decide, by decide⟩,
    ⟨running_inv _ (by decide) (by simp only [Eng.CursorsAt]; decide), ⟨rfl, rfl, rfl⟩, by decide, by decide, by decide⟩,
    running_inv _ (by decide) (by simp only [Eng.CursorsAt]; decide), ⟨rfl, rfl, rfl⟩, by decide, by decide, by decide⟩

/-- An equal byte in the middle, at the end of the source, and at the cap; another byte after one and after two. -/
theorem witness_EncoderScanStep_peek :
    ∀ s : State,
      s = running false 5 0 .encPeek 1 1 0x02 1 0 literals [] ∨ s = running false 4 0 .encPeek 1 1 0x02 2 0 literals [] ∨
        s = running false 300 0 .encPeek 0 0 0x00 254 0 [] [] ∨ s = running false 5 0 .encPeek 0 0 0x01 1 0 literals [] ∨
        s = running false 5 0 .encPeek 1 1 0x02 3 0 literals [] →
      s.Inv ∧ EngineMoves s ∧ s.eng.pt = .encPeek ∧
        addressKind s.platform (s.eng.sb.toNat + (s.eng.r.toNat + s.eng.len.toNat)) = .ordinary ∧
        (let c := s.mem.read (s.eng.sb.toNat + (s.eng.r.toNat + s.eng.len.toNat));
          (c = s.eng.lit ∧ s.eng.r.toNat + s.eng.len.toNat + 1 < s.eng.sl.toNat ∧ s.eng.len.toNat + 1 < 255) ∨
          (c = s.eng.lit ∧ s.eng.r.toNat + s.eng.len.toNat + 1 = s.eng.sl.toNat) ∨
          (c = s.eng.lit ∧ s.eng.len.toNat + 1 = 255) ∨ (c ≠ s.eng.lit ∧ s.eng.len = 1) ∨
          (c ≠ s.eng.lit ∧ s.eng.len ≠ 1)) := by
  rintro _ (rfl | rfl | rfl | rfl | rfl) <;>
    exact ⟨running_inv _ (by decide) (by simp only [Eng.CursorsAt]; decide), ⟨rfl, rfl, rfl⟩, rfl, by decide, by decide⟩

/-- Each write of a token, in the middle and at the end of the source. -/
theorem witness_EncoderEmitsTokens :
    ∀ s : State,
      s = running false 5 0 .encLit 1 0 0x01 1 0 literals [] ∨ s = running false 5 0 .encLit 5 3 0x03 1 0 literals [] ∨
        s = running false 5 0 .encHeader 4 1 0x02 3 0 literals [] ∨
        s = running false 5 0 .encLength 4 1 0x02 3 0 literals [] ∨
        s = running false 4 0 .encLength 4 1 0x02 3 0 literals [] →
      s.Inv ∧ EngineMoves s ∧ (s.eng.pt = .encLit ∨ s.eng.pt = .encHeader ∨ s.eng.pt = .encLength) ∧
        addressKind s.platform (s.eng.sb.toNat + s.eng.w.toNat) = .ordinary ∧
        addressKind s.platform (s.eng.sb.toNat + (s.eng.w.toNat + 1)) = .ordinary ∧
        (s.eng.r.toNat < s.eng.sl.toNat ∨ s.eng.r = s.eng.sl) := by
  rintro _ (rfl | rfl | rfl | rfl | rfl) <;>
    exact ⟨running_inv _ (by decide) (by simp only [Eng.CursorsAt]; decide), ⟨rfl, rfl, rfl⟩, by decide, by decide,
      by decide, by decide⟩

theorem witness_ScanTakesTheLongestRun :
    let s := running false 5 0 .encLoad 1 1 0 0 0 literals [];
    s.Inv ∧ EngineMoves s ∧ s.eng.pt = .encLoad ∧ ordinaryRegion s.platform s.eng.sb s.eng.sl ∧
      [0x02#8, 0x02#8, 0x02#8, 0x03#8] =
        s.mem.slice (s.eng.sb.toNat + s.eng.r.toNat) (s.eng.sl.toNat - s.eng.r.toNat) ∧
      tagOf ([0x02#8, 0x02#8, 0x02#8, 0x03#8].headD 0) = false :=
  ⟨running_inv _ (by decide) (by simp only [Eng.CursorsAt]; decide), ⟨rfl, rfl, rfl⟩, rfl, ordinaryRegion_here _ _,
    by decide, rfl⟩

/-- A read that leaves the command running, and a write. -/
theorem witness_InPlaceSafety :
    (let s := running false 5 0 .encPeek 1 1 0x02 3 0 literals [];
      s.Inv ∧ EngineMoves s ∧ s.eng.op = false ∧ s.eng.pt ≠ .handleCheck ∧ nextAccess s = some (.read 0x1004) ∧
        ∃ t, step s = .next t ∧ decide (t.eng.phase = .running) = true) ∧
      let s := running false 5 0 .encLit 5 3 0x03 1 0 literals [];
      s.Inv ∧ EngineMoves s ∧ s.eng.op = false ∧ nextAccess s = some (.write 0x1003) ∧ ∃ t, step s = .next t :=
  ⟨⟨running_inv _ (by decide) (by simp only [Eng.CursorsAt]; decide), ⟨rfl, rfl, rfl⟩, rfl, by decide, rfl,
      next_of (fun t => decide (t.eng.phase = .running)) (by decide)⟩,
    running_inv _ (by decide) (by simp only [Eng.CursorsAt]; decide), ⟨rfl, rfl, rfl⟩, rfl, rfl, answers (by decide)⟩

/-- Vector S5, and the empty source. -/
theorem witness_EncodeCompressesInPlace :
    ∀ sl : Word, sl = 5 ∨ sl = 0 →
      let s := idleWith sl 0 literals [];
      s.Inv ∧ s.status.busy = false ∧ s.inputs = [] ∧ s.srcBase.toNat + s.srcLen.toNat ≤ 2 ^ 32 ∧
        ordinaryRegion s.platform s.srcBase s.srcLen ∧ validInput (regionBytes s.mem s.srcBase s.srcLen) = true := by
  rintro _ (rfl | rfl) <;>
    exact ⟨idleWith_inv _ (by decide), rfl, rfl, by decide, ordinaryRegion_here _ _, by decide⟩

theorem witness_EncodeRejectsOutOfRange :
    let s := idleWith 2 0 [(0x1000, 0x01#8), (0x1001, 0x80#8)] [];
    s.Inv ∧ s.status.busy = false ∧ s.inputs = [] ∧ s.srcBase.toNat + s.srcLen.toNat ≤ 2 ^ 32 ∧
      ordinaryRegion s.platform s.srcBase s.srcLen ∧ [0x01#8, 0x80#8] = regionBytes s.mem s.srcBase s.srcLen ∧
      validInput [0x01#8, 0x80#8] = false :=
  ⟨idleWith_inv _ (by decide), rfl, rfl, by decide, ordinaryRegion_here _ _, by decide, by decide⟩

/-- The read with room and with none; the write with a token after it and at the end of the stream. -/
theorem witness_LitWritesItsValue :
    ∀ s : State,
      s = running true 4 1 .decFetch 0 0 0 0 0 stream [] ∨ s = running true 4 0 .decFetch 0 0 0 0 0 stream [] ∨
        s = running true 4 5 .decLit 0 0 1 0 0 stream [] ∨ s = running true 4 5 .decLit 3 4 3 0 0 stream [] →
      s.Inv ∧ s.eng.phase = .running ∧
        addressKind s.platform (s.eng.sb.toNat + s.eng.r.toNat) = .ordinary ∧
        addressKind s.platform (s.eng.db.toNat + s.eng.w.toNat) = .ordinary ∧
        ((s.eng.pt = .decFetch ∧ s.eng.w.toNat < s.eng.dc.toNat) ∨ (s.eng.pt = .decFetch ∧ s.eng.dc.toNat ≤ s.eng.w.toNat) ∨
          (s.eng.pt = .decLit ∧ s.eng.r.toNat + 1 < s.eng.sl.toNat) ∨
          (s.eng.pt = .decLit ∧ s.eng.r.toNat + 1 = s.eng.sl.toNat)) := by
  rintro _ (rfl | rfl | rfl | rfl) <;>
    exact ⟨running_inv _ (by decide) (by simp only [Eng.CursorsAt]; decide), rfl, by decide, by decide, by decide⟩

/-- The header with and without a length byte after it; the length byte, for the lengths 1 and 2, with room and with
none. -/
theorem witness_RunWritesItsCopies_reads :
    ∀ s : State,
      s = running true 3 5 .decFetch 1 1 0 0 0 stream [] ∨ s = running true 2 5 .decFetch 1 1 0 0 0 stream [] ∨
        s = running true 4 5 .decLength 1 4 0x82 0 0 stream [] ∨ s = running true 4 5 .decLength 1 5 0x82 0 0 stream [] →
      s.Inv ∧ s.eng.phase = .running ∧
        addressKind s.platform (s.eng.sb.toNat + s.eng.r.toNat) = .ordinary ∧
        addressKind s.platform (s.eng.sb.toNat + (s.eng.r.toNat + 1)) = .ordinary ∧
        ((s.eng.pt = .decFetch ∧ s.eng.r.toNat + 1 < s.eng.sl.toNat) ∨
          (s.eng.pt = .decFetch ∧ s.eng.sl.toNat ≤ s.eng.r.toNat + 1) ∨
          (s.eng.pt = .decLength ∧ s.eng.w.toNat < s.eng.dc.toNat) ∨
          (s.eng.pt = .decLength ∧ s.eng.dc.toNat ≤ s.eng.w.toNat)) ∧
        (1#8).toNat < 2 ∧ 2 ≤ (2#8).toNat := by
  rintro _ (rfl | rfl | rfl | rfl) <;>
    exact ⟨running_inv _ (by decide) (by simp only [Eng.CursorsAt]; decide), rfl, by decide, by decide, by decide,
      by decide, by decide⟩

/-- A write with another after it, with room and with none; the last write, mid-stream and at its end. -/
theorem witness_RunWritesItsCopies_writes :
    ∀ s : State,
      s = running true 4 5 .decRun 1 1 0x82 3 0 stream [] ∨ s = running true 4 2 .decRun 1 1 0x82 3 0 stream [] ∨
        s = running true 4 5 .decRun 1 3 0x82 3 2 stream [] ∨ s = running true 3 4 .decRun 1 3 0x82 3 2 stream [] →
      s.Inv ∧ s.eng.phase = .running ∧ s.eng.pt = .decRun ∧ s.eng.len = 3 ∧
        addressKind s.platform (s.eng.db.toNat + s.eng.w.toNat) = .ordinary ∧
        ((s.eng.k.toNat + 1 < (3#8).toNat ∧ s.eng.w.toNat + 1 < s.eng.dc.toNat) ∨
          (s.eng.k.toNat + 1 < (3#8).toNat ∧ s.eng.w.toNat + 1 = s.eng.dc.toNat) ∨
          (s.eng.k.toNat + 1 = (3#8).toNat ∧ s.eng.r.toNat + 2 < s.eng.sl.toNat) ∨
          (s.eng.k.toNat + 1 = (3#8).toNat ∧ s.eng.r.toNat + 2 = s.eng.sl.toNat)) := by
  rintro _ (rfl | rfl | rfl | rfl) <;>
    exact ⟨running_inv _ (by decide) (by simp only [Eng.CursorsAt]; decide), rfl, rfl, rfl, by decide, by decide⟩

/-- A LIT and a RUN, each with a token after it and at the end of the stream, into exactly enough room. -/
theorem witness_WholeTokenExpands :
    (∀ s : State,
      s = running true 4 1 .decFetch 0 0 0 0 0 stream [] ∨ s = running true 4 5 .decFetch 3 4 0 0 0 stream [] →
      s.Inv ∧ EngineMoves s ∧ s.eng.pt = .decFetch ∧ ordinaryRegion s.platform s.eng.sb s.eng.sl ∧
        ordinaryRegion s.platform s.eng.db s.eng.dc ∧ s.eng.w.toNat + 1 ≤ s.eng.dc.toNat ∧
        ∃ v rest, decode (.token (s.mem.slice (s.eng.sb.toNat + s.eng.r.toNat) (s.eng.sl.toNat - s.eng.r.toNat))) =
          .ok (.lit v) rest) ∧
      ∀ s : State,
      s = running true 4 4 .decFetch 1 1 0 0 0 stream [] ∨ s = running true 3 4 .decFetch 1 1 0 0 0 stream [] →
      s.Inv ∧ EngineMoves s ∧ s.eng.pt = .decFetch ∧ ordinaryRegion s.platform s.eng.sb s.eng.sl ∧
        ordinaryRegion s.platform s.eng.db s.eng.dc ∧ s.eng.w.toNat + (3#8).toNat ≤ s.eng.dc.toNat ∧
        ∃ v rest, decode (.token (s.mem.slice (s.eng.sb.toNat + s.eng.r.toNat) (s.eng.sl.toNat - s.eng.r.toNat))) =
          .ok (.run v 3#8) rest := by
  constructor
  · rintro _ (rfl | rfl) <;>
      exact ⟨running_inv _ (by decide) (by simp only [Eng.CursorsAt]; decide), ⟨rfl, rfl, rfl⟩, rfl, ordinaryRegion_here _ _,
        ordinaryRegion_here _ _, by decide, _, _, rfl⟩
  · rintro _ (rfl | rfl) <;>
      exact ⟨running_inv _ (by decide) (by simp only [Eng.CursorsAt]; decide), ⟨rfl, rfl, rfl⟩, rfl, ordinaryRegion_here _ _,
        ordinaryRegion_here _ _, by decide, _, _, rfl⟩

theorem witness_TruncatedRunIsMalformed :
    let s := running true 2 5 .decFetch 1 1 0 0 0 stream [];
    s.Inv ∧ EngineMoves s ∧ s.eng.pt = .decFetch ∧
      addressKind s.platform (s.eng.sb.toNat + s.eng.r.toNat) = .ordinary ∧
      tagOf (s.mem.read (s.eng.sb.toNat + s.eng.r.toNat)) = true ∧ s.eng.r.toNat + 1 = s.eng.sl.toNat :=
  ⟨running_inv _ (by decide) (by simp only [Eng.CursorsAt]; decide), ⟨rfl, rfl, rfl⟩, rfl, by decide, by decide, by decide⟩

theorem witness_RunLengthBelowTwoIsMalformed :
    ∀ n : Byte, n = 0 ∨ n = 1 →
      let s := running true 2 5 .decLength 0 0 0x85 0 0 (Memory.write [(0x1000, 0x85#8)] 0x1001 n) [];
      s.Inv ∧ EngineMoves s ∧ s.eng.pt = .decLength ∧
        addressKind s.platform (s.eng.sb.toNat + s.eng.r.toNat + 1) = .ordinary ∧
        (s.mem.read (s.eng.sb.toNat + s.eng.r.toNat + 1) = 0 ∨ s.mem.read (s.eng.sb.toNat + s.eng.r.toNat + 1) = 1) := by
  rintro _ (rfl | rfl) <;>
    exact ⟨running_inv _ (by decide) (by simp only [Eng.CursorsAt]; decide), ⟨rfl, rfl, rfl⟩, rfl, by decide, by decide⟩

/-- A write to the last free byte, and the three places where a full destination is found. -/
theorem witness_CapacityCheckedBeforeEveryWrite :
    (let s := running true 4 5 .decLit 3 4 3 0 0 stream [];
      s.Inv ∧ EngineMoves s ∧ s.eng.op = true ∧ nextAccess s = some (.write 0x2004) ∧
        inRegion s.eng.db s.eng.dc 0x2005 = false ∧ ∃ t, step s = .next t) ∧
      ∀ s : State,
        s = running true 4 0 .decFetch 0 0 0 0 0 stream [] ∨ s = running true 4 1 .decLength 1 1 0x82 0 0 stream [] ∨
          s = running true 4 2 .decRun 1 1 0x82 3 0 stream [] →
        s.Inv ∧ EngineMoves s ∧ s.eng.op = true ∧ (∃ t, step s = .next t) ∧
          ((s.eng.pt = .decFetch ∧ tagOf (s.mem.read (s.eng.sb.toNat + s.eng.r.toNat)) = false ∧ s.eng.w = s.eng.dc) ∨
            (s.eng.pt = .decLength ∧ 2 ≤ (s.mem.read (s.eng.sb.toNat + s.eng.r.toNat + 1)).toNat ∧ s.eng.w = s.eng.dc) ∨
            (s.eng.pt = .decRun ∧ s.eng.k.toNat + 1 < s.eng.len.toNat ∧ s.eng.w.toNat + 1 = s.eng.dc.toNat)) := by
  refine ⟨⟨running_inv _ (by decide) (by simp only [Eng.CursorsAt]; decide), ⟨rfl, rfl, rfl⟩, rfl, rfl, by decide,
    answers (by decide)⟩, ?_⟩
  rintro _ (rfl | rfl | rfl) <;>
    exact ⟨running_inv _ (by decide) (by simp only [Eng.CursorsAt]; decide), ⟨rfl, rfl, rfl⟩, rfl, answers (by decide),
      by decide⟩

/-- Into a full destination: a truncated run, a length byte of 1, and one of 3. -/
theorem witness_MalformedBeatsOverflow :
    ∀ s : State,
      s = running true 2 1 .decFetch 1 1 0 0 0 stream [] ∨
        s = running true 2 0 .decLength 0 0 0x85 0 0 [(0x1000, 0x85#8), (0x1001, 0x01#8)] [] ∨
        s = running true 4 1 .decLength 1 1 0x82 0 0 stream [] →
      s.Inv ∧ EngineMoves s ∧ s.eng.w = s.eng.dc ∧ addressKind s.platform (tokenAddress s 0) = .ordinary ∧
        addressKind s.platform (tokenAddress s 1) = .ordinary ∧
        ((s.eng.pt = .decFetch ∧ tagOf (s.mem.read (tokenAddress s 0)) = true ∧ s.eng.r.toNat + 1 = s.eng.sl.toNat) ∨
          (s.eng.pt = .decLength ∧ (s.mem.read (tokenAddress s 1)).toNat < 2) ∨
          (s.eng.pt = .decLength ∧ 2 ≤ (s.mem.read (tokenAddress s 1)).toNat)) := by
  rintro _ (rfl | rfl | rfl) <;>
    exact ⟨running_inv _ (by decide) (by simp only [Eng.CursorsAt]; decide), ⟨rfl, rfl, rfl⟩, rfl, by decide, by decide,
      by decide⟩

theorem witness_DecodeKeepsItsSource :
    let s := running true 4 5 .decFetch 0 0 0 0 0 stream [];
    s.Inv ∧ EngineMoves s ∧ s.eng.op = true ∧ (∃ t, Runs 2 s t) ∧ inRegion s.eng.sb s.eng.sl 0x1003 = true ∧
      inRegion s.eng.db s.eng.dc 0x2005 = false :=
  ⟨running_inv _ (by decide) (by simp only [Eng.CursorsAt]; decide), ⟨rfl, rfl, rfl⟩, rfl, ⟨_, rfl⟩, by decide, by decide⟩

/-- The stream of VD2 into enough room and into too little; a truncated stream; an empty one. -/
theorem witness_DecodeEndsAsDec :
    ∀ s : State, s = idleWith 4 5 stream [] ∨ s = idleWith 4 4 stream [] ∨ s = idleWith 2 5 stream [] ∨
        s = idleWith 0 5 stream [] →
      s.Inv ∧ s.status.busy = false ∧ s.inputs = [] ∧ s.srcBase.toNat + s.srcLen.toNat ≤ 2 ^ 32 ∧
        s.dstBase.toNat + s.dstCap.toNat ≤ 2 ^ 32 ∧ overlap s.srcBase s.srcLen s.dstBase s.dstCap = false ∧
        ordinaryRegion s.platform s.srcBase s.srcLen ∧ ordinaryRegion s.platform s.dstBase s.dstCap := by
  rintro _ (rfl | rfl | rfl | rfl) <;>
    exact ⟨idleWith_inv _ (by decide), rfl, rfl, by decide, by decide, by decide, ordinaryRegion_here _ _,
      ordinaryRegion_here _ _⟩

theorem witness_CommandsEndWithinTheStepBound :
    let s := idleWith 4 5 stream [];
    s.Inv ∧ s.status.busy = false ∧ s.inputs = [] ∧ ordinaryRegion s.platform s.srcBase s.srcLen ∧
      ordinaryRegion s.platform s.dstBase s.dstCap :=
  ⟨idleWith_inv _ (by decide), rfl, rfl, ordinaryRegion_here _ _, ordinaryRegion_here _ _⟩

/-- Program 1 for the ENCODE, program 2 for the DECODE. -/
theorem witness_CommandAccessCounts :
    (let s := idleWith 5 0 literals [];
      s.Inv ∧ s.status.busy = false ∧ s.inputs = [] ∧ s.srcBase.toNat + s.srcLen.toNat ≤ 2 ^ 32 ∧
        ordinaryRegion s.platform s.srcBase s.srcLen ∧ validInput (regionBytes s.mem s.srcBase s.srcLen) = true ∧
        1 ≤ s.srcLen.toNat) ∧
      let s := idleWith 4 5 stream [];
      s.Inv ∧ s.status.busy = false ∧ s.inputs = [] ∧ s.srcBase.toNat + s.srcLen.toNat ≤ 2 ^ 32 ∧
        ordinaryRegion s.platform s.srcBase s.srcLen ∧ s.dstBase.toNat + s.dstCap.toNat ≤ 2 ^ 32 ∧
        overlap s.srcBase s.srcLen s.dstBase s.dstCap = false ∧ ordinaryRegion s.platform s.dstBase s.dstCap ∧
        Dec (regionBytes s.mem s.srcBase s.srcLen) = .ok [0x01, 0x02, 0x02, 0x02, 0x03] ∧
        [0x01#8, 0x02, 0x02, 0x02, 0x03].length ≤ s.dstCap.toNat :=
  ⟨⟨idleWith_inv _ (by decide), rfl, rfl, by decide, ordinaryRegion_here _ _, by decide, by decide⟩,
    idleWith_inv _ (by decide), rfl, rfl, by decide, ordinaryRegion_here _ _, by decide, by decide,
    ordinaryRegion_here _ _, by decide, by decide⟩

theorem witness_PseudoInstructionsRunTheirCommands :
    (let s := idleWith 0 0 literals (encodeProgram State.reset.platform 0x1000 5);
      s.Inv ∧ s.status.busy = false ∧ (0x1000 : Word).toNat + (5 : Word).toNat ≤ 2 ^ 32 ∧
        ordinaryRegion s.platform 0x1000 5 ∧ s.inputs = encodeProgram s.platform 0x1000 5) ∧
      let s := idleWith 0 0 stream (decodeProgram State.reset.platform 0x1000 4 0x2000 5);
      s.Inv ∧ s.status.busy = false ∧ (0x1000 : Word).toNat + (4 : Word).toNat ≤ 2 ^ 32 ∧
        ordinaryRegion s.platform 0x1000 4 ∧ (0x2000 : Word).toNat + (5 : Word).toNat ≤ 2 ^ 32 ∧
        ordinaryRegion s.platform 0x2000 5 ∧ overlap 0x1000 4 0x2000 5 = false ∧
        s.inputs = decodeProgram s.platform 0x1000 4 0x2000 5 :=
  ⟨⟨idleWith_inv _ (by decide), rfl, by decide, ordinaryRegion_here _ _, rfl⟩,
    idleWith_inv _ (by decide), rfl, by decide, ordinaryRegion_here _ _, by decide, ordinaryRegion_here _ _, by decide,
    rfl⟩

/-- Two states with the same stream and capacity, and another byte at the end of the destination: all hypotheses but the
one of the last clause. -/
theorem witness_CommandsAreDeterministic_other_destination :
    let s := idleWith 4 6 stream [];
    let s' := idleWith 4 6 (stream ++ [(0x2005, 0x07#8)]) [];
    s.Inv ∧ s'.Inv ∧ regionBytes s.mem s.srcBase s.srcLen = regionBytes s'.mem s'.srcBase s'.srcLen ∧
      s.dstBase.toNat + s.dstCap.toNat ≤ 2 ^ 32 ∧ overlap s.srcBase s.srcLen s.dstBase s.dstCap = false ∧
      s.dstCap = s'.dstCap ∧
      regionBytes s.mem s.dstBase s.dstCap ≠ regionBytes s'.mem s'.dstBase s'.dstCap :=
  ⟨idleWith_inv _ (by decide), idleWith_inv _ (by decide), by decide, by decide, by decide, rfl, by decide⟩

/-- Two states with the same stream and destination bytes, and another byte elsewhere. -/
theorem witness_CommandsAreDeterministic :
    let s := idleWith 4 5 stream [];
    let s' := idleWith 4 5 (stream ++ [(0x5000, 0x07#8)]) [];
    s.Inv ∧ s'.Inv ∧ s.status.busy = false ∧ s'.status.busy = false ∧ s.inputs = [] ∧ s'.inputs = [] ∧
      ordinaryRegion s.platform s.srcBase s.srcLen ∧ ordinaryRegion s'.platform s'.srcBase s'.srcLen ∧
      s.srcBase.toNat + s.srcLen.toNat ≤ 2 ^ 32 ∧ s'.srcBase.toNat + s'.srcLen.toNat ≤ 2 ^ 32 ∧ s.srcLen = s'.srcLen ∧
      regionBytes s.mem s.srcBase s.srcLen = regionBytes s'.mem s'.srcBase s'.srcLen ∧
      ordinaryRegion s.platform s.dstBase s.dstCap ∧ ordinaryRegion s'.platform s'.dstBase s'.dstCap ∧
      s.dstBase.toNat + s.dstCap.toNat ≤ 2 ^ 32 ∧ s'.dstBase.toNat + s'.dstCap.toNat ≤ 2 ^ 32 ∧
      overlap s.srcBase s.srcLen s.dstBase s.dstCap = false ∧
      overlap s'.srcBase s'.srcLen s'.dstBase s'.dstCap = false ∧ s.dstCap = s'.dstCap ∧
      regionBytes s.mem s.dstBase s.dstCap = regionBytes s'.mem s'.dstBase s'.dstCap ∧ s.mem ≠ s'.mem :=
  ⟨idleWith_inv _ (by decide), idleWith_inv _ (by decide), rfl, rfl, rfl, rfl, ordinaryRegion_here _ _,
    ordinaryRegion_here _ _, by decide, by decide, rfl, by decide, ordinaryRegion_here _ _, ordinaryRegion_here _ _,
    by decide, by decide, by decide, by decide, rfl, by decide, by decide⟩

theorem witness_LeftoverEngineRegistersAreNotRead :
    (idleWith 4 5 stream []).inputs = [] ∧ ∃ t, Runs 3 ((idleWith 4 5 stream []).start true true true) t :=
  ⟨rfl, _, rfl⟩

/-- Program 2's stream is Enc of its output; capacities 5 and 4. -/
theorem witness_RoundTrip :
    validInput [0x01, 0x02, 0x02, 0x02, 0x03] = true ∧
      ∀ s : State, s = idleWith 4 5 stream [] ∨ s = idleWith 4 4 stream [] →
        s.Inv ∧ s.status.busy = false ∧ s.inputs = [] ∧ s.srcBase.toNat + s.srcLen.toNat ≤ 2 ^ 32 ∧
          s.dstBase.toNat + s.dstCap.toNat ≤ 2 ^ 32 ∧ overlap s.srcBase s.srcLen s.dstBase s.dstCap = false ∧
          ordinaryRegion s.platform s.srcBase s.srcLen ∧ ordinaryRegion s.platform s.dstBase s.dstCap ∧
          regionBytes s.mem s.srcBase s.srcLen = Enc [0x01, 0x02, 0x02, 0x02, 0x03] ∧
          (5 ≤ s.dstCap.toNat ∨ s.dstCap.toNat < 5) := by
  refine ⟨by decide, ?_⟩
  rintro _ (rfl | rfl) <;>
    exact ⟨idleWith_inv _ (by decide), rfl, rfl, by decide, by decide, by decide, ordinaryRegion_here _ _,
      ordinaryRegion_here _ _, by decide, by decide⟩

/-- An ENCODE of five bytes, then a DECODE to the byte after the four of its output, into five bytes and into four. -/
theorem witness_RoundTrip_of_an_encode :
    ∀ dc : Word, dc = 5 ∨ dc = 4 →
      let s := idleWith 5 0 literals [];
      s.Inv ∧ s.status.busy = false ∧ s.inputs = [] ∧ s.srcBase.toNat + s.srcLen.toNat ≤ 2 ^ 32 ∧
        (0x1004 : Word).toNat + dc.toNat ≤ 2 ^ 32 ∧
        [0x01, 0x02, 0x02, 0x02, 0x03] = regionBytes s.mem s.srcBase s.srcLen ∧
        validInput [0x01, 0x02, 0x02, 0x02, 0x03] = true ∧
        overlap s.srcBase (BitVec.ofNat 32 (Enc [0x01, 0x02, 0x02, 0x02, 0x03]).length) 0x1004 dc = false ∧
        ordinaryRegion s.platform s.srcBase s.srcLen ∧ ordinaryRegion s.platform 0x1004 dc := by
  rintro _ (rfl | rfl) <;>
    exact ⟨idleWith_inv _ (by decide), rfl, rfl, by decide, by decide, by decide, by decide, by decide,
      ordinaryRegion_here _ _, ordinaryRegion_here _ _⟩

/-- A valid input with a run, and it as the source of an ENCODE. -/
theorem witness_EncodingNeverExpands :
    validInput [0x01, 0x02, 0x02, 0x02, 0x03] = true ∧
      let s := idleWith 5 0 literals [];
      s.Inv ∧ s.status.busy = false ∧ s.inputs = [] ∧ s.srcBase.toNat + s.srcLen.toNat ≤ 2 ^ 32 ∧
        ordinaryRegion s.platform s.srcBase s.srcLen :=
  ⟨by decide, idleWith_inv _ (by decide), rfl, rfl, by decide, ordinaryRegion_here _ _⟩

/-- A run after other bytes and before others, and one alone. -/
theorem witness_LongRunsSplitAtTheCap :
    (tagOf 0x02 = false ∧ 1 ≤ 300 ∧ [(0x02 : Byte), 0x01].getLast? ≠ some 0x02 ∧
      [(0x03 : Byte), 0x02].head? ≠ some 0x02) ∧
      tagOf 0x7F = false ∧ ([] : List Byte).getLast? ≠ some 0x7F ∧ ([] : List Byte).head? ≠ some 0x7F := by decide

/-- Two neighbour tokens of the encoding, of one value: the literal 0x05 three hundred times. -/
theorem witness_EncodingIsCanonical :
    validInput (List.replicate 300 0x05#8) = true ∧
      ∃ is : List Instr, is = [.run 0x05#7 0xFF#8, .run 0x05#7 0x2D#8] ∧
        is[0]? = some (.run 0x05#7 0xFF#8) ∧ is[0 + 1]? = some (.run 0x05#7 0x2D#8) ∧
        tokenValue (.run 0x05#7 0xFF#8) = tokenValue (.run 0x05#7 0x2D#8) :=
  ⟨List.all_eq_true.2 fun c hc => by rw [List.eq_of_mem_replicate hc]; rfl, _, rfl, rfl, rfl, rfl⟩

/-- Program 2's stream into exactly enough room. -/
theorem witness_EncodingIsWellFormed :
    let s := idleWith 4 5 stream [];
    validInput [0x01, 0x02, 0x02, 0x02, 0x03] = true ∧ [(0x01 : Byte), 0x02, 0x02, 0x02, 0x03].length ≤ s.dstCap.toNat ∧
      s.Inv ∧ s.status.busy = false ∧ s.inputs = [] ∧ s.srcBase.toNat + s.srcLen.toNat ≤ 2 ^ 32 ∧
      s.dstBase.toNat + s.dstCap.toNat ≤ 2 ^ 32 ∧ overlap s.srcBase s.srcLen s.dstBase s.dstCap = false ∧
      ordinaryRegion s.platform s.srcBase s.srcLen ∧ ordinaryRegion s.platform s.dstBase s.dstCap ∧
      regionBytes s.mem s.srcBase s.srcLen = Enc [0x01, 0x02, 0x02, 0x02, 0x03] :=
  ⟨by decide, by decide, idleWith_inv _ (by decide), rfl, rfl, by decide, by decide, by decide,
    ordinaryRegion_here _ _, ordinaryRegion_here _ _, by decide⟩

/-- A stream that decodes; a DECODE of four bytes with just the capacity that always holds what four bytes give. -/
theorem witness_DecoderExpansionBound :
    Dec [0x85, 0x03] = .ok [0x05, 0x05, 0x05] ∧
      let s := idleWith 4 510 stream [];
      s.Inv ∧ s.status.busy = false ∧ s.inputs = [] ∧ s.srcBase.toNat + s.srcLen.toNat ≤ 2 ^ 32 ∧
        s.dstBase.toNat + s.dstCap.toNat ≤ 2 ^ 32 ∧ overlap s.srcBase s.srcLen s.dstBase s.dstCap = false ∧
        ordinaryRegion s.platform s.srcBase s.srcLen ∧ ordinaryRegion s.platform s.dstBase s.dstCap ∧
        255 * (s.srcLen.toNat / 2) + s.srcLen.toNat % 2 ≤ s.dstCap.toNat :=
  ⟨by decide, idleWith_inv _ (by decide), rfl, rfl, by decide, by decide, by decide, ordinaryRegion_here _ _,
    ordinaryRegion_here _ _, by decide⟩

theorem witness_CommandWordDecodesByLowBits :
    (0x1 : Word).getLsbD 0 = true ∧ (0x1 : Word).getLsbD 1 = false ∧ (0xFFFFFFFF : Word).getLsbD 1 = true ∧
      (0xFFFFFFFE : Word).getLsbD 0 = false := by decide

/-- The shortest and the longest RUN, with bytes after it. -/
theorem witness_DecodeOfEncodeIsTheInstruction :
    (Instr.run 0x7F#7 0x02#8).wf = true ∧ (Instr.run 0x00#7 0xFF#8).wf = true ∧
      encode (.run 0x7F#7 0x02#8) = .token [0xFF, 0x02] ∧
      decode (.token [0x82, 0x01, 0x05]) = .ok (.run 0x02#7 0x01#8) [0x05] := by decide

theorem witness_TokenStreamIsReadBack :
    ∀ i ∈ [Instr.lit 0x01#7, .run 0x02#7 0x03#8], i.wf = true ∧ ((∃ v, i = .lit v) ∨ ∃ v n, i = .run v n) := by
  simp [Instr.wf, Config.minRunToken]

/-- A CTRL write; a token read with bytes after it; a LIT and a RUN at their later points; a scheduled turn. -/
theorem witness_StepRunsTheDecodedInstruction :
    (let s := idleWith 4 5 stream [wr State.reset.platform .ctrl 0xF];
      s.inputs = wr s.platform .ctrl 0xF :: [] ∧ decode (.command 0xF) = .ok (.decode true true) []) ∧
      (let s := running true 4 5 .decFetch 1 1 0 0 0 stream [];
        EngineMoves s ∧ s.eng.pt = .decFetch ∧ s.eng.r.toNat < s.eng.sl.toNat ∧
          decode (.token (s.mem.slice (s.eng.sb.toNat + s.eng.r.toNat) (s.eng.sl.toNat - s.eng.r.toNat))) =
            .ok (.run 0x02#7 0x03#8) [0x03]) ∧
      (∀ s : State, s = running true 4 5 .decLit 0 0 1 0 0 stream [] ∨ s = running true 4 5 .decLength 1 1 0x82 0 0 stream [] ∨
          s = running true 4 5 .decRun 1 1 0x82 3 0 stream [] →
        EngineMoves s ∧ (s.eng.pt = .decLit ∨ s.eng.pt = .decLength ∨ s.eng.pt = .decRun) ∧
          ∃ i after, decode (.token (tokenBytes s)) = .ok i after) ∧
      let s := running true 4 5 .decFetch 0 0 0 0 0 stream [.engine, .host .poll];
      s.inputs = .engine :: [.host .poll] ∧ s.eng.phase = .running ∧ ∃ t, step { s with inputs := [] } = .next t := by
  refine ⟨⟨rfl, rfl⟩, ⟨⟨rfl, rfl, rfl⟩, rfl, by decide, by decide⟩, ?_, rfl, rfl, answers (by decide)⟩
  rintro _ (rfl | rfl | rfl) <;> exact ⟨⟨rfl, rfl, rfl⟩, by decide, _, _, rfl⟩

/-- A step of each command and one that ends it. -/
theorem witness_InvariantKeptByEveryStep :
    ∀ s : State, s = running true 4 5 .decRun 1 1 0x82 3 0 stream [] ∨
        s = running false 5 0 .encPeek 1 1 0x02 3 0 literals [] ∨ s = running true 1 1 .decLit 0 0 0x01 0 0 stream [] →
      s.Inv ∧ ∃ t, step s = .next t := by
  rintro _ (rfl | rfl | rfl) <;>
    exact ⟨running_inv _ (by decide) (by simp only [Eng.CursorsAt]; decide), answers (by decide)⟩

end Sys2Proof.Machine.Tests
end

/-! The OPEN parameters are fixed (R6, R35): neither an engine turn nor a host operation changes the platform. -/

namespace Sys2Proof.Machine

/-! ### Each agent keeps the platform -/

/-- The engine's own step stays in its frame, and neither the redrawn byte before it nor the new end of a raced
command after it touches the platform (R205). -/
theorem engineTurn_keeps_platform {s t : State} (hp : s.eng.phase = .running) (h : engineTurn s = .next t) :
    t.platform = s.platform := by
  obtain ⟨u, hu, hend⟩ := engineTurn_eq_next hp h
  have hstep : u.platform = s.platform := by simpa using (engineStep_frame hu).outside.platform
  rcases hend with ⟨rfl, -⟩ | ⟨rfl, -, -⟩
  · exact hstep
  · exact (raceEnd_frame s.eng u).platform.trans hstep

@[simp] theorem setReg_platform (g : Reg) (d : Word) (s : State) : (setReg g d s).platform = s.platform := by
  cases g <;> rfl

theorem writeReg_keeps_platform {g : Reg} {d : Word} {s t : State} (h : writeReg g d s = .next t) :
    t.platform = s.platform := by
  rcases writeReg_cases h with ⟨-, rfl⟩ | ⟨-, -, rfl⟩ | ⟨-, -, -, rfl⟩ | ⟨-, -, -, rfl⟩
  · rfl
  · exact setReg_platform g d s
  · exact State.start_platform s _ _ _
  · rfl

theorem hostStep_keeps_platform {op : HostOp} {s t : State} (h : hostStep op s = .next t) :
    t.platform = s.platform := by
  cases op with
  | read addr width =>
    obtain ⟨g, -, rfl⟩ := hostRead_eq_next h
    rfl
  | write addr width d =>
    obtain ⟨g, -, hw⟩ := hostWrite_eq_next h
    exact writeReg_keeps_platform hw
  | poll =>
    obtain rfl := Host.Outcome.next.inj h
    rfl
  | memRead a =>
    rw [hostMemRead_eq_next h]
  | memWrite a v =>
    rcases hostMemWrite_eq_next h with ⟨-, rfl⟩ | ⟨-, rfl⟩
    · rfl
    · exact State.noteRace_platform s _
  | reset =>
    obtain rfl := Host.Outcome.next.inj h
    exact State.resetEvent_platform s

/-! ### The step -/

/-- Settles O21, by whose turn the step is: the running engine's, one that passes, or the host's. -/
theorem platformNeverChanges : Obligations.PlatformNeverChanges := by
  intro s t h
  rcases step_cases h with ⟨-, hp, he⟩ | ⟨-, rfl⟩ | ⟨op, rest, -, hh⟩
  · exact engineTurn_keeps_platform (s := { s with inputs := s.inputs.tail }) hp he
  · rfl
  · exact hostStep_keeps_platform (s := { s with inputs := rest }) hh

end Sys2Proof.Machine

/-! The engine registers that a command finds are not read (R31, R119, U11). At each point of the pseudocode some of the
registers r, w, lit, len and k are written before their next read. Two states that differ in those alone make the same
step, up to the registers that are written before their next read at the point the step goes on to. -/

namespace Sys2Proof.Machine

/-! ### The registers that are still read -/

/-- The engine with every register that a command at point p can read before it writes it (R130 to R132, R150 to
R153); registers that it writes first stand at 0. -/
def Eng.liveAt (p : Point) (e : Eng) : Eng :=
  match p with
  | .handleCheck => { e with r := 0, w := 0, lit := 0, len := 0, k := 0 }
  | .encLoad | .decFetch => { e with lit := 0, len := 0, k := 0 }
  | .encPeek | .encLit | .encHeader | .encLength => { e with k := 0 }
  | .decLit | .decLength => { e with len := 0, k := 0 }
  | .decRun => e

/-- The state with the engine registers that a command at point p writes before it reads them at 0. -/
def State.liveAt (p : Point) (s : State) : State := { s with eng := s.eng.liveAt p }

/-- The state with the engine registers that its own command writes before it reads them at 0. -/
def State.live (s : State) : State := s.liveAt s.eng.pt

/-- The outcome of a step, its state up to the registers that are written before they are read. -/
def liveOutcome : Result → Result
  | .next t => .next t.live
  | .fault r => .fault r
  | .refused r => .refused r

@[simp] theorem liveAt_phase (p : Point) (s : State) : (s.liveAt p).eng.phase = s.eng.phase := by cases p <;> rfl

@[simp] theorem liveAt_pt (p : Point) (s : State) : (s.liveAt p).eng.pt = s.eng.pt := by cases p <;> rfl

@[simp] theorem liveAt_sl (p : Point) (s : State) : (s.liveAt p).eng.sl = s.eng.sl := by cases p <;> rfl

@[simp] theorem liveAt_dc (p : Point) (s : State) : (s.liveAt p).eng.dc = s.eng.dc := by cases p <;> rfl

@[simp] theorem live_phase (s : State) : s.live.eng.phase = s.eng.phase := liveAt_phase _ s

@[simp] theorem live_live (s : State) : s.live.live = s.live := by
  unfold State.live
  rw [liveAt_pt]
  cases s.eng.pt <;> rfl

theorem live_at {s : State} {p : Point} (h : s.eng.pt = p) : s.live = s.liveAt p := by rw [State.live, h]

/-- The next access is told by the registers that are still read. -/
@[simp] theorem nextAccess_live (s : State) : nextAccess s.live = nextAccess s := by
  unfold nextAccess State.live
  rw [liveAt_phase, liveAt_pt]
  cases s.eng.phase with
  | idle => rfl
  | running => cases s.eng.pt <;> rfl

/-! ### The ends of a step -/

theorem live_ite_congr {c : Prop} [Decidable c] {a a' b b' : State} (ha : a'.live = a.live) (hb : b'.live = b.live) :
    (if c then a' else b').live = (if c then a else b).live := by
  split <;> assumption

theorem goto_live (s : State) (p : Point) : (s.goto p).live = (s.liveAt p).goto p := by cases p <;> rfl

section
variable {s s' : State} {p : Point} (h : s'.liveAt p = s.liveAt p)
include h

theorem goto_live_congr : (s'.goto p).live = (s.goto p).live := by
  rw [goto_live, goto_live, h]

/-- A success completion overwrites every engine register (R185). -/
theorem complete_congr (len : Word) : s'.complete len = s.complete len := by
  simpa only [State.complete, State.liveAt] using congrArg (State.complete len) h

/-- An error completion overwrites every engine register (R186). -/
theorem raise_congr (e : ErrorKind) (pos : Word) : s'.raise e pos = s.raise e pos := by
  simpa only [State.raise, State.liveAt] using congrArg (State.raise e pos) h

/-- Past the handle check both cursors are still read (R130, R150). -/
theorem cursors_congr (hp : p ≠ .handleCheck) : s'.eng.r = s.eng.r ∧ s'.eng.w = s.eng.w := by
  have hr := congrArg (·.eng.r) h
  have hw := congrArg (·.eng.w) h
  cases p
  case handleCheck => exact absurd rfl hp
  all_goals exact ⟨hr, hw⟩

theorem loopTest_live (hp : p ≠ .handleCheck) : (s'.loopTest p).live = (s.loopTest p).live := by
  obtain ⟨hr, hw⟩ := cursors_congr h hp
  have hsl : s'.eng.sl = s.eng.sl := by simpa using congrArg (·.eng.sl) h
  unfold State.loopTest
  rw [hr, hw, hsl]
  exact live_ite_congr (goto_live_congr h) (by rw [complete_congr h])

theorem checkCapacity_live (hp : p ≠ .handleCheck) : (s'.checkCapacity p).live = (s.checkCapacity p).live := by
  obtain ⟨hr, hw⟩ := cursors_congr h hp
  have hdc : s'.eng.dc = s.eng.dc := by simpa using congrArg (·.eng.dc) h
  unfold State.checkCapacity
  rw [hr, hw, hdc]
  exact live_ite_congr (goto_live_congr h) (by rw [raise_congr h])

end

/-- The end of a scan moves the read cursor and goes on at the write of the run's token (R131, R132). -/
theorem endScan_eq_goto (s : State) :
    s.endScan = State.goto (if s.eng.len = 1 then .encLit else .encHeader)
      { s with eng := { s.eng with r := advance s.eng.r s.eng.len.toNat } } := rfl

theorem endScan_live (s : State) : (s.liveAt .encPeek).endScan.live = s.endScan.live := by
  rw [endScan_eq_goto, endScan_eq_goto]
  refine goto_live_congr ?_
  split <;> rfl

theorem scanTest_live (s : State) : (s.liveAt .encPeek).scanTest.live = s.scanTest.live := by
  rcases scanTest_cases s with ⟨hr, hl, h⟩ | ⟨hn, h⟩ <;> rw [h]
  · rw [scanTest_more (s := s.liveAt .encPeek) hr hl]
    rfl
  · rw [scanTest_end (s := s.liveAt .encPeek) hn]
    exact endScan_live s

theorem scanTest_live_congr {s s' : State} (h : s'.liveAt .encPeek = s.liveAt .encPeek) :
    s'.scanTest.live = s.scanTest.live := by
  rw [← scanTest_live, h, scanTest_live]

/-- The entry to the loop sets both cursors, and no other leftover register is read by the loop test (R120). -/
theorem enterLoop_live (s : State) : (s.liveAt .handleCheck).enterLoop.live = s.enterLoop.live := by
  have hop : (s.liveAt .handleCheck).eng.op = s.eng.op := rfl
  unfold State.enterLoop
  rw [hop]
  cases s.eng.op with
  | false => exact loopTest_live rfl (by decide)
  | true => exact loopTest_live rfl (by decide)

/-- An access is made or not by the platform alone. -/
theorem engineAccess_live {s s' t t' : State} {a : Nat} (hp : s'.platform = s.platform) (h : t'.live = t.live) :
    liveOutcome (engineAccess a s' t') = liveOutcome (engineAccess a s t) := by
  unfold engineAccess
  rw [hp]
  split
  · exact congrArg Host.Outcome.next h
  all_goals rfl

/-! ### The steps -/

theorem stepHandleCheck_live (s : State) :
    liveOutcome (stepHandleCheck (s.liveAt .handleCheck)) = liveOutcome (stepHandleCheck s) :=
  congrArg Host.Outcome.next (live_ite_congr (enterLoop_live s) rfl)

theorem stepEncLoad_live (s : State) :
    liveOutcome (stepEncLoad (s.liveAt .encLoad)) = liveOutcome (stepEncLoad s) :=
  engineAccess_live rfl (live_ite_congr rfl (scanTest_live_congr rfl))

theorem stepEncPeek_live (s : State) :
    liveOutcome (stepEncPeek (s.liveAt .encPeek)) = liveOutcome (stepEncPeek s) :=
  engineAccess_live rfl (live_ite_congr (scanTest_live_congr rfl) (endScan_live s))

theorem stepEncLit_live (s : State) : liveOutcome (stepEncLit (s.liveAt .encLit)) = liveOutcome (stepEncLit s) :=
  engineAccess_live rfl (loopTest_live rfl (by decide))

theorem stepEncHeader_live (s : State) :
    liveOutcome (stepEncHeader (s.liveAt .encHeader)) = liveOutcome (stepEncHeader s) :=
  engineAccess_live rfl rfl

theorem stepEncLength_live (s : State) :
    liveOutcome (stepEncLength (s.liveAt .encLength)) = liveOutcome (stepEncLength s) :=
  engineAccess_live rfl (loopTest_live rfl (by decide))

theorem fetchLit_live (b : Byte) (s : State) :
    liveOutcome (fetchLit b (s.liveAt .decFetch)) = liveOutcome (fetchLit b s) :=
  engineAccess_live rfl (checkCapacity_live rfl (by decide))

theorem fetchHeader_live (b : Byte) (s : State) :
    liveOutcome (fetchHeader b (s.liveAt .decFetch)) = liveOutcome (fetchHeader b s) :=
  engineAccess_live rfl (live_ite_congr rfl rfl)

theorem writeLit_live (b : Byte) (s : State) :
    liveOutcome (writeLit b (s.liveAt .decLit)) = liveOutcome (writeLit b s) :=
  engineAccess_live rfl (loopTest_live rfl (by decide))

theorem fetchLength_live (n : Byte) (s : State) :
    liveOutcome (fetchLength n (s.liveAt .decLength)) = liveOutcome (fetchLength n s) :=
  engineAccess_live rfl (live_ite_congr rfl (checkCapacity_live rfl (by decide)))

theorem execLit_live (v : Literal) (s : State) : liveOutcome (execLit v s.live) = liveOutcome (execLit v s) := by
  unfold execLit State.live
  rw [liveAt_phase, liveAt_pt]
  split
  · rename_i hpt; rw [hpt]; exact fetchLit_live _ s
  · rename_i hpt; rw [hpt]; exact writeLit_live _ s
  · rfl

theorem execRun_live (v : Literal) (n : Byte) (s : State) :
    liveOutcome (execRun v n s.live) = liveOutcome (execRun v n s) := by
  unfold execRun State.live
  rw [liveAt_phase, liveAt_pt]
  split
  · rename_i hpt; rw [hpt]; exact fetchHeader_live _ s
  · rename_i hpt; rw [hpt]; exact fetchLength_live _ s
  · rename_i hpt; rw [hpt]; rfl
  · rfl

section
variable {s : State}
  (hpt : s.eng.pt = .decFetch ∨ s.eng.pt = .decLit ∨ s.eng.pt = .decLength ∨ s.eng.pt = .decRun)
include hpt

/-- The bytes of the current token are told by the registers that are still read. -/
theorem tokenBytes_live : tokenBytes s.live = tokenBytes s := by
  unfold tokenBytes State.live
  rw [liveAt_pt]
  rcases hpt with h | h | h | h <;> rw [h] <;> rfl

theorem stepToken_live : liveOutcome (stepToken s.live) = liveOutcome (stepToken s) := by
  have hfetch : s.live.liveAt .decFetch = s.liveAt .decFetch := by
    rcases hpt with h | h | h | h <;> rw [live_at h] <;> rfl
  have haddr : tokenAddress s.live 0 = tokenAddress s 0 := by
    simpa only [tokenAddress, State.liveAt, Eng.liveAt] using congrArg (tokenAddress · 0) hfetch
  unfold stepToken decode
  rw [tokenBytes_live hpt]
  split
  · rename_i i rest hd
    rcases decodeToken_eq_ok hd with ⟨v, rfl, -⟩ | ⟨v, n, rfl, -⟩
    · exact execLit_live v s
    · exact execRun_live v n s
  · rw [haddr, ← fetchHeader_live _ s.live, hfetch]
    exact fetchHeader_live _ s
  · rfl

end

theorem engineStep_live (s : State) : liveOutcome (engineStep s.live) = liveOutcome (engineStep s) := by
  unfold engineStep
  rw [State.live, liveAt_pt]
  split <;> rename_i hpt
  · rw [hpt]; exact stepHandleCheck_live s
  · rw [hpt]; exact stepEncLoad_live s
  · rw [hpt]; exact stepEncPeek_live s
  · rw [hpt]; exact stepEncLit_live s
  · rw [hpt]; exact stepEncHeader_live s
  · rw [hpt]; exact stepEncLength_live s
  · exact stepToken_live (.inl hpt)
  · exact stepToken_live (.inr (.inl hpt))
  · exact stepToken_live (.inr (.inr (.inl hpt)))
  · exact stepToken_live (.inr (.inr (.inr hpt)))

/-! ### The run -/

/-- With no turn waiting and no byte raced, a step depends on the registers still read alone. -/
theorem step_live {s : State} (hi : s.inputs = []) (hr : s.racedBytes = []) :
    liveOutcome (step s.live) = liveOutcome (step s) := by
  cases hp : s.eng.phase with
  | idle =>
    rw [step_idle hi hp, step_idle (s := s.live) hi (by simpa using hp)]
    exact congrArg Host.Outcome.next (live_live s)
  | running =>
    rw [step_engine ⟨hi, hp, hr⟩, step_engine (s := s.live) ⟨hi, by simpa using hp, hr⟩]
    exact engineStep_live s

theorem liveOutcome_eq_next {o : Result} {t : State} (h : liveOutcome o = liveOutcome (.next t)) :
    ∃ t', o = .next t' ∧ t'.live = t.live := by
  cases o with
  | next t' => exact ⟨t', rfl, Host.Outcome.next.inj h⟩
  | fault r => cases h
  | refused r => cases h

/-- An engine's turn, with none other waiting and no byte raced, keeps it so. -/
theorem step_stays_alone {s t : State} (hi : s.inputs = []) (hr : s.racedBytes = []) (h : step s = .next t) :
    t.inputs = [] ∧ t.racedBytes = [] := by
  cases hp : s.eng.phase with
  | idle =>
    rw [step_idle hi hp] at h
    obtain rfl := Host.Outcome.next.inj h
    exact ⟨hi, hr⟩
  | running =>
    rw [step_engine ⟨hi, hp, hr⟩] at h
    have ho := (engineStep_frame h).outside
    exact ⟨ho.inputs.trans hi, ho.racedBytes.trans hr⟩

theorem runs_live {k : Nat} {s s' t : State} (hi : s.inputs = []) (hr : s.racedBytes = []) (hl : s'.live = s.live)
    (h : Runs k s t) : ∃ t', Runs k s' t' ∧ t'.live = t.live := by
  induction k generalizing s s' with
  | zero =>
    obtain rfl := runs_zero_iff.1 h
    exact ⟨s', runs_zero s', hl⟩
  | succ k ih =>
    obtain ⟨u, hu, hrun⟩ := runs_succ_iff.1 h
    have hi' : s'.inputs = [] := (congrArg State.inputs hl).trans hi
    have hr' : s'.racedBytes = [] := (congrArg State.racedBytes hl).trans hr
    have hstep : liveOutcome (step s') = liveOutcome (.next u) := by
      rw [← step_live hi' hr', hl, step_live hi hr, hu]
    obtain ⟨u', hu', hlu⟩ := liveOutcome_eq_next hstep
    obtain ⟨hiu, hru⟩ := step_stays_alone hi hr hu
    obtain ⟨t', hrun', hlt⟩ := ih hiu hru hlu hrun
    exact ⟨t', runs_succ hu' hrun', hlt⟩

/-- States that agree on the registers still read show the same to the outside. -/
theorem visible_of_live {t t' : State} (h : t'.live = t.live) :
    t'.status = t.status ∧ t'.resultLen = t.resultLen ∧ t'.errPos = t.errPos ∧ t'.mem = t.mem ∧
      t'.eng.phase = t.eng.phase ∧ nextAccess t' = nextAccess t := by
  have hstatus := congrArg State.status h
  have hlen := congrArg State.resultLen h
  have hpos := congrArg State.errPos h
  have hmem := congrArg State.mem h
  have hphase := congrArg (·.eng.phase) h
  have haccess := congrArg nextAccess h
  exact ⟨hstatus, hlen, hpos, hmem, by simpa using hphase, by simpa using haccess⟩

/-- Settles O46: a START leaves the handle check next, at which no leftover register is still read, and every step
keeps the two runs alike in the registers that are. -/
theorem leftoverEngineRegistersAreNotRead : Obligations.LeftoverEngineRegistersAreNotRead := by
  intro s e op sv dv k t hi h
  have hl : (({ s with eng := e } : State).start op sv dv).live = (s.start op sv dv).live := rfl
  obtain ⟨t', hrun, hl'⟩ := runs_live (s := s.start op sv dv) hi rfl hl h
  exact ⟨t', hrun, visible_of_live hl'⟩

end Sys2Proof.Machine

/-! Every step keeps the invariant: the engine's turn, raced or not, and each operation of the host. -/

namespace Sys2Proof.Machine

/-! ### The invariant after a change of some fields -/

/-- The flags and the results agree by the four fields they speak of. -/
theorem flagsAgree_congr {s t : State} (hs : s.FlagsAgree) (hst : t.status = s.status)
    (hlen : t.resultLen = s.resultLen) (hpos : t.errPos = s.errPos) (hp : t.eng.phase = s.eng.phase) :
    t.FlagsAgree := by
  obtain ⟨h1, h2, h3, h4, h5, h6⟩ := hs
  constructor <;> simpa only [hst, hlen, hpos, hp]

/-- Nothing else of the invariant speaks of memory, the waiting turns, the bus, the free-value index and the note of
raced bytes. -/
theorem inv_with {s : State} {m : Memory} {rs : List Nat} (hs : s.Inv) (hm : m.wf = true)
    (hr : ∀ a ∈ rs, s.eng.phase = .running ∧ a < Config.memBytes ∧ commandRegion s.eng a = true)
    (is : List Turn) (b : Word) (n : Nat) :
    ({ s with mem := m, inputs := is, bus := b, fresh := n, racedBytes := rs } : State).Inv where
  mem := hm
  flags := flagsAgree_congr hs.flags rfl rfl rfl rfl
  latched hp :=
    have hl := hs.latched hp
    ⟨hl.ctrl, hl.srcBase, hl.srcLen, hl.dstBase, hl.dstCap⟩
  cursors := hs.cursors
  races := hr

/-- In an idle block nothing is latched, no cursor stands anywhere and no byte is raced. -/
theorem inv_of_idle {s : State} (hm : s.mem.wf = true) (hf : s.FlagsAgree) (hp : s.eng.phase = .idle)
    (hr : s.racedBytes = []) : s.Inv where
  mem := hm
  flags := hf
  latched := by simp [hp]
  cursors := by simp [hp]
  races := by simp [hr]

theorem phase_idle_of_not_busy {s : State} (hs : s.FlagsAgree) (hb : s.status.busy = false) :
    s.eng.phase = .idle := by
  cases hp : s.eng.phase with
  | idle => rfl
  | running => simp [hs.busy_iff.2 hp] at hb

theorem racedBytes_of_idle {s : State} (hs : s.Inv) (hp : s.eng.phase = .idle) : s.racedBytes = [] :=
  List.eq_nil_iff_forall_not_mem.2 fun a ha => by simpa [hp] using (hs.races a ha).1

/-- While idle the parameters' registers hold any value. -/
theorem inv_idle_registers {s : State} (hs : s.Inv) (hp : s.eng.phase = .idle) (c : Ctrl) (sb sl db dc : Word) :
    ({ s with ctrl := c, srcBase := sb, srcLen := sl, dstBase := db, dstCap := dc } : State).Inv :=
  have hr := racedBytes_of_idle hs hp
  inv_of_idle hs.mem (flagsAgree_congr hs.flags rfl rfl rfl rfl) hp hr

/-! ### The engine's turn -/

/-- A command that has ended leaves flags and results in agreement (R185, R186). -/
theorem flagsAgree_of_ends {s t : State} (h : Ends s t) : t.FlagsAgree := by
  obtain ⟨⟨hst, hpos⟩ | ⟨e, hst, hlen⟩, heng, -⟩ := h
  · constructor <;> simp [hst, heng, hpos]
  · constructor <;> simp [hst, heng, hlen]

theorem flagsAgree_of_frame {s t : State} (hs : s.FlagsAgree) (h : EngineFrame s t) : t.FlagsAgree :=
  h.inside.elim (fun hgo => flagsAgree_congr hs hgo.status hgo.resultLen hgo.errPos hgo.phase) flagsAgree_of_ends

/-- The new end of a raced command has flags and results in agreement (R205). -/
theorem flagsAgree_raceEnd (e : Eng) {s : State} (hs : s.FlagsAgree) (hp : s.eng.phase = .idle) :
    (s.raceEnd e).FlagsAgree := by
  have heng := (raceEnd_frame e s).eng
  rcases raceEnd_status e s with ⟨hst, hlen, hpos⟩ | ⟨n, hn, hst, hlen, hpos⟩
  · exact flagsAgree_congr hs hst hlen hpos (by rw [heng])
  · constructor
    case err_len =>
      intro herr
      rw [hst] at herr
      rw [hlen, hn.err_len herr]
      rfl
    case noErr_pos =>
      intro herr
      rw [hst] at herr
      rw [hpos, hn.noErr_pos herr]
      rfl
    all_goals simp [hst, heng, hp]

/-- While a command goes on its parameters stay latched (R111). -/
theorem parametersLatched_of_goesOn {s t : State} (hs : s.ParametersLatched) (ho : SameOutside s t) (h : GoesOn s t) :
    t.ParametersLatched where
  ctrl := by rw [ho.ctrl, h.op, h.sv, h.dv, hs.ctrl]
  srcBase := by rw [ho.srcBase, h.sb, hs.srcBase]
  srcLen := by rw [ho.srcLen, h.sl, hs.srcLen]
  dstBase := by rw [ho.dstBase, h.db, hs.dstBase]
  dstCap := by rw [ho.dstCap, h.dc, hs.dstCap]

theorem commandRegion_of_goesOn {s t : State} (h : GoesOn s t) (a : Nat) :
    commandRegion t.eng a = commandRegion s.eng a := by
  simp only [commandRegion, h.op, h.sb, h.sl, h.db, h.dc]

/-- The byte redrawn before an engine's step keeps the invariant (R205). -/
theorem redraw_inv {s : State} (hs : s.Inv) : s.redraw.Inv := by
  rcases redraw_cases s with h | ⟨a, ha, -, h⟩ <;> rw [h]
  · exact hs
  · obtain ⟨-, hlt, -⟩ := hs.races a ha
    exact inv_with hs (Memory.write_wf _ hs.mem hlt) hs.races s.inputs s.bus (s.fresh + 1)

/-- An engine step that goes on keeps the invariant, and so does one that ends a command of which no byte is raced. -/
theorem engineStep_inv {s t : State} (hs : s.Inv) (hp : s.eng.phase = .running) (h : engineStep s = .next t)
    (hr : s.racedBytes = [] ∨ t.eng.phase = .running) : t.Inv := by
  have hframe := engineStep_frame h
  have hraced := hframe.outside.racedBytes
  have hwf := engineStep_wf hp (hs.cursors hp) hs.mem h
  have hflags := flagsAgree_of_frame hs.flags hframe
  rcases hframe.inside with hgo | hend
  · refine ⟨hwf, hflags, fun _ => parametersLatched_of_goesOn (hs.latched hp) hframe.outside hgo,
      engineStep_cursors hp (hs.cursors hp) h, fun a ha => ?_⟩
    obtain ⟨-, hlt, hreg⟩ := hs.races a (hraced ▸ ha)
    exact ⟨hgo.phase.trans hp, hlt, (commandRegion_of_goesOn hgo a).trans hreg⟩
  · have hidle : t.eng.phase = .idle := by rw [hend.eng, Eng.unspecified_phase]
    exact inv_of_idle hwf hflags hidle (hraced.trans (hr.resolve_right (by simp [hidle])))

/-- The new end of a raced command leaves an idle block in the invariant (R205). -/
theorem raceEnd_inv {s t : State} (e : Eng) (hs : s.Inv) (hp : s.eng.phase = .running) (h : engineStep s = .next t)
    (hidle : t.eng.phase = .idle) : (t.raceEnd e).Inv := by
  have hframe := engineStep_frame h
  have hend := raceEnd_frame e t
  have hwf := engineStep_wf hp (hs.cursors hp) hs.mem h
  have hlt : ∀ a ∈ t.racedBytes, a < Config.memBytes := fun a ha =>
    (hs.races a (hframe.outside.racedBytes ▸ ha)).2.1
  exact inv_of_idle (raceEnd_wf e hwf hlt) (flagsAgree_raceEnd e (flagsAgree_of_frame hs.flags hframe) hidle)
    (by rw [hend.eng, hidle]) hend.racedBytes

theorem engineTurn_inv {s t : State} (hs : s.Inv) (hp : s.eng.phase = .running) (h : engineTurn s = .next t) :
    t.Inv := by
  have hs' := redraw_inv hs
  have hp' : s.redraw.eng.phase = .running := by simpa using hp
  obtain ⟨u, hu, ⟨rfl, hr⟩ | ⟨rfl, -, hidle⟩⟩ := engineTurn_eq_next hp h
  · exact engineStep_inv hs' hp' hu (by rwa [(redraw_outside s).racedBytes])
  · exact raceEnd_inv s.eng hs' hp' hu hidle

/-! ### The host's turn -/

theorem setReg_inv {s : State} (g : Reg) (d : Word) (hs : s.Inv) (hp : s.eng.phase = .idle) : (setReg g d s).Inv := by
  cases g
  case srcBase => exact inv_idle_registers hs hp s.ctrl d s.srcLen s.dstBase s.dstCap
  case srcLen => exact inv_idle_registers hs hp s.ctrl s.srcBase d s.dstBase s.dstCap
  case dstBase => exact inv_idle_registers hs hp s.ctrl s.srcBase s.srcLen d s.dstCap
  case dstCap => exact inv_idle_registers hs hp s.ctrl s.srcBase s.srcLen s.dstBase d
  all_goals exact hs

/-- START establishes the latched parameters, and leaves the cursors free at the handle check (R113). -/
theorem start_inv {s : State} (hm : s.mem.wf = true) (op sv dv : Bool) : (s.start op sv dv).Inv where
  mem := hm
  flags := by constructor <;> simp
  latched _ := ⟨rfl, rfl, rfl, rfl, rfl⟩
  cursors _ := trivial
  races := by simp

theorem writeReg_inv {g : Reg} {d : Word} {s t : State} (hs : s.Inv) (h : writeReg g d s = .next t) : t.Inv := by
  rcases writeReg_cases h with ⟨-, rfl⟩ | ⟨hb, -, rfl⟩ | ⟨-, -, -, rfl⟩ | ⟨hb, -, -, rfl⟩
  · exact hs
  · exact setReg_inv g d hs (phase_idle_of_not_busy hs.flags hb)
  · exact start_inv hs.mem _ _ _
  · exact inv_idle_registers hs (phase_idle_of_not_busy hs.flags hb) _ s.srcBase s.srcLen s.dstBase s.dstCap

/-- Another agent's write keeps the invariant: in a running command's region it is noted as a race (R62, R205). -/
theorem hostMemWrite_inv {a : Word} {v : Byte} {s t : State} (hs : s.Inv) (h : hostMemWrite a v s = .next t) :
    t.Inv := by
  have hlt : a.toNat < Config.memBytes := a.isLt
  rcases hostMemWrite_eq_next h with ⟨-, rfl⟩ | ⟨hraced, rfl⟩
  · exact inv_with hs (Memory.write_wf v hs.mem hlt) hs.races s.inputs s.bus s.fresh
  · obtain ⟨hbusy, hreg⟩ : s.status.busy = true ∧ commandRegion s.eng a.toNat = true := by
      simpa [raced] using hraced
    refine inv_with hs (Memory.write_wf _ hs.mem hlt) (fun b hb => ?_) s.inputs s.bus (s.fresh + 1)
    rcases List.mem_insert_iff.1 hb with rfl | hb
    · exact ⟨hs.flags.busy_iff.1 hbusy, hlt, hreg⟩
    · exact hs.races b hb

/-- What an abandoned command could write is in range (R116, R201). -/
theorem abandoned_inRange (s : State) : s.abandoned.1 + s.abandoned.2 ≤ Config.memBytes := by
  unfold State.abandoned
  split
  · rename_i hk
    exact output_inRange hk.2
  · exact Nat.zero_le _

theorem resetEvent_inv {s : State} (hm : s.mem.wf = true) : s.resetEvent.Inv :=
  inv_of_idle (Memory.scramble_wf _ hm (abandoned_inRange s)) (by constructor <;> simp) rfl rfl

theorem hostStep_inv {op : HostOp} {s t : State} (hs : s.Inv) (h : hostStep op s = .next t) : t.Inv := by
  cases op with
  | read addr width =>
    obtain ⟨g, -, rfl⟩ := hostRead_eq_next h
    exact inv_with hs hs.mem hs.races s.inputs _ s.fresh
  | write addr width d =>
    obtain ⟨g, -, hw⟩ := hostWrite_eq_next h
    exact writeReg_inv hs hw
  | poll =>
    obtain rfl := Host.Outcome.next.inj h
    exact inv_with hs hs.mem hs.races _ _ s.fresh
  | memRead a =>
    rw [hostMemRead_eq_next h]
    exact inv_with hs hs.mem hs.races s.inputs _ _
  | memWrite a v => exact hostMemWrite_inv hs h
  | reset =>
    obtain rfl := Host.Outcome.next.inj h
    exact resetEvent_inv hs.mem

/-! ### The step -/

/-- Settles O60, by whose turn the step is. -/
theorem invariantKeptByEveryStep : Obligations.InvariantKeptByEveryStep := by
  intro s t hs h
  have hrest (rest : List Turn) : ({ s with inputs := rest } : State).Inv :=
    inv_with hs hs.mem hs.races rest s.bus s.fresh
  rcases step_cases h with ⟨-, hp, he⟩ | ⟨-, rfl⟩ | ⟨op, rest, -, hh⟩
  · exact engineTurn_inv (hrest s.inputs.tail) hp he
  · exact hrest s.inputs.tail
  · exact hostStep_inv (hrest rest) hh

end Sys2Proof.Machine

/-! The flags have four writers, each with its own values, and the engine reads none of them (R33). -/

namespace Sys2Proof.Machine

/-! ### The writers -/

/-- A turn of the running engine leaves the flags alone, or is a success or an error completion (R185, R186, R205). -/
theorem engineTurn_status {s t : State} (hp : s.eng.phase = .running) (h : engineTurn s = .next t) :
    t.status = s.status ∨ t.status = flagsComplete ∨ ∃ e, t.status = flagsError e := by
  obtain ⟨u, hu, hend⟩ := engineTurn_eq_next hp h
  have hstep : u.status = s.status ∨ u.status = flagsComplete ∨ ∃ e, u.status = flagsError e := by
    rcases (engineStep_frame hu).inside with hgo | ⟨⟨hst, -⟩ | ⟨e, hst, -⟩, -, -⟩
    · exact .inl (by simpa using hgo.status)
    · exact .inr (.inl hst)
    · exact .inr (.inr ⟨e, hst⟩)
  rcases hend with ⟨rfl, -⟩ | ⟨rfl, -, -⟩
  · exact hstep
  · rcases raceEnd_status s.eng u with ⟨hst, -, -⟩ | ⟨n, -, hst, -, -⟩
    · rwa [hst]
    · cases hn : n.err with
      | none => exact .inr (.inl (by rw [hst, hn]; rfl))
      | some e => exact .inr (.inr ⟨e, by rw [hst, hn]; rfl⟩)

@[simp] theorem setReg_status (g : Reg) (d : Word) (s : State) : (setReg g d s).status = s.status := by
  cases g <;> rfl

/-- A host operation leaves the flags alone, or is a START that takes effect or a reset (R113, R200). -/
theorem hostStep_status {op : HostOp} {s t : State} (h : hostStep op s = .next t) :
    t.status = s.status ∨
      (s.status.busy = false ∧ t.status = flagsStarted ∧
        ∃ d, op = .write (s.platform.regBase + Reg.ctrl.offset) Config.hostWidth d ∧ d.getLsbD 0 = true) ∨
      (op = .reset ∧ t.status = flagsReset) := by
  cases op with
  | read addr width =>
    obtain ⟨g, -, rfl⟩ := hostRead_eq_next h
    exact .inl rfl
  | write addr width d =>
    obtain ⟨g, ha, hw⟩ := hostWrite_eq_next h
    rcases writeReg_cases hw with ⟨-, rfl⟩ | ⟨-, -, rfl⟩ | ⟨hb, rfl, hd, rfl⟩ | ⟨-, -, -, rfl⟩
    · exact .inl rfl
    · exact .inl (setReg_status g d s)
    · obtain ⟨rfl, rfl⟩ := admit_eq_some ha
      exact .inr (.inl ⟨hb, rfl, d, rfl, hd⟩)
    · exact .inl rfl
  | poll =>
    obtain rfl := Host.Outcome.next.inj h
    exact .inl rfl
  | memRead a =>
    rw [hostMemRead_eq_next h]
    exact .inl rfl
  | memWrite a v =>
    rcases hostMemWrite_eq_next h with ⟨-, rfl⟩ | ⟨-, rfl⟩ <;> exact .inl rfl
  | reset =>
    obtain rfl := Host.Outcome.next.inj h
    exact .inr (.inr ⟨rfl, rfl⟩)

/-! ### The engine reads no flag -/

/-- Two states alike inside, with the same results but any flags, leave the same results. -/
theorem engineStep_results_congr {s s' t t' : State} (he : SameEnd t t') (h : engineStep s = .next t)
    (h' : engineStep s' = .next t') (hlen : s'.resultLen = s.resultLen) (hpos : s'.errPos = s.errPos) :
    t'.resultLen = t.resultLen ∧ t'.errPos = t.errPos := by
  rcases (engineStep_frame h).inside with hgo | hend
  · rcases (engineStep_frame h').inside with hgo' | hend'
    · exact ⟨by rw [hgo'.resultLen, hlen, hgo.resultLen], by rw [hgo'.errPos, hpos, hgo.errPos]⟩
    · exact (he.ended (by rw [← he.inside.eng, hend'.eng, Eng.unspecified_phase])).2
  · exact (he.ended (by rw [hend.eng, Eng.unspecified_phase])).2

theorem step_ignores_status {s t : State} (st : Status) (hs : EngineMoves s) (h : step s = .next t) :
    ∃ t', step { s with status := st } = .next t' ∧ t'.eng = t.eng ∧ t'.mem = t.mem ∧ t'.errPos = t.errPos ∧
      t'.resultLen = t.resultLen := by
  have hs' : EngineMoves { s with status := st } := ⟨hs.inputs, hs.phase, hs.unraced⟩
  have halike : SameInside s { s with status := st } := ⟨rfl, rfl, rfl, rfl⟩
  rw [step_engine hs] at h
  rw [step_engine hs']
  obtain ⟨t', ht', he⟩ := halike.engineStep hs.phase h
  obtain ⟨hlen, hpos⟩ := engineStep_results_congr he h ht' rfl rfl
  exact ⟨t', ht', he.inside.eng, he.inside.mem, hpos, hlen⟩

/-- Settles O12: a step that changes the flags is a turn of the running engine or a host operation, and each of the two
has two writers. -/
theorem onlyFourWritersOfTheFlags : Obligations.OnlyFourWritersOfTheFlags := by
  refine ⟨fun s t h hne => ?_, fun s t st hs h => step_ignores_status st hs h⟩
  rcases step_cases h with ⟨hturn, hp, he⟩ | ⟨-, rfl⟩ | ⟨op, rest, hi, hh⟩
  · have hst := engineTurn_status (s := { s with inputs := s.inputs.tail }) hp he
    exact .inr (.inl ⟨hp, hturn, hst.resolve_left hne⟩)
  · exact absurd rfl hne
  · rcases hostStep_status hh with hst | ⟨hb, hst, d, rfl, hd⟩ | ⟨rfl, hst⟩
    · exact absurd hst hne
    · exact .inl ⟨hb, ⟨d, rest, hi, hd⟩, hst⟩
    · exact .inr (.inr ⟨⟨rest, hi⟩, hst⟩)

end Sys2Proof.Machine

/-! The engine memory space (20_memory): a running engine makes the access its point names, inside its command's
regions, and only where the platform backs the address; its step depends on memory through the one byte it reads; and
outside a command's regions the host reads back what it wrote. -/

namespace Sys2Proof.Machine

/-! ### The step as its one access -/

theorem engineAccess_device {a : Nat} {s : State} (t : State) (h : addressKind s.platform a = .device) :
    engineAccess a s t = .refused .deviceRegion := by
  simp [engineAccess, h]

/-- Where the engine's point names an access, the engine's step is that access (R52, R61). -/
theorem engineStep_eq_access {s : State} {a : Nat} (hp : s.eng.phase = .running) (hc : s.eng.CursorsAt s.eng.pt)
    (ha : nextAccess s = some (.read a) ∨ nextAccess s = some (.write a)) :
    ∃ t, engineStep s = engineAccess a s t := by
  rcases engineStep_cases hp hc with ⟨hpt, he⟩ | ⟨hpt, he⟩ | ⟨hpt, he⟩ | ⟨hpt, he⟩ | ⟨hpt, he⟩ | ⟨hpt, he⟩ |
    ⟨hpt, -, he⟩ | ⟨hpt, -, he⟩ | ⟨hpt, he⟩ | ⟨hpt, he⟩ | ⟨hpt, he⟩ <;> simp [nextAccess, hp, hpt] at ha
  all_goals
    subst ha
    exact ⟨_, he⟩

/-! ### An access that the platform does not answer -/

section
variable {s : State} {a : Nat} (hs : s.Inv) (hp : s.eng.phase = .running)
  (ha : nextAccess s = some (.read a) ∨ nextAccess s = some (.write a))
include hs hp ha

/-- The engine's turn is its one access, raced or not, up to the end of a raced command. -/
theorem engineTurn_eq_access : ∃ t, engineTurn s = settleRace s (engineAccess a s.redraw t) := by
  have hs' := redraw_inv hs
  have hp' : s.redraw.eng.phase = .running := by simpa using hp
  obtain ⟨t, ht⟩ := engineStep_eq_access hp' (hs'.cursors hp') (by simpa using ha)
  exact ⟨t, by rw [engineTurn_running hp, ht]⟩

theorem engineTurn_unbacked (hk : addressKind s.platform a = .unbacked) : engineTurn s = .fault .stuckUnbacked := by
  obtain ⟨t, ht⟩ := engineTurn_eq_access hs hp ha
  rw [ht, engineAccess_unbacked t (by simpa using hk), settleRace_fault]

/-- A stuck engine lets its turn pass (log 6). -/
theorem scheduledEngineTurn_unbacked (hk : addressKind s.platform a = .unbacked) :
    scheduledEngineTurn s = .next s := by
  rw [scheduledEngineTurn, engineTurn_unbacked hs hp ha hk]

theorem engineTurn_device (hk : addressKind s.platform a = .device) : engineTurn s = .refused .deviceRegion := by
  obtain ⟨t, ht⟩ := engineTurn_eq_access hs hp ha
  rw [ht, engineAccess_device t (by simpa using hk), settleRace_refused]

theorem scheduledEngineTurn_device (hk : addressKind s.platform a = .device) :
    scheduledEngineTurn s = .refused .deviceRegion := by
  rw [scheduledEngineTurn, engineTurn_device hs hp ha hk]

end

theorem inv_inputs {s : State} (hs : s.Inv) (rest : List Turn) : ({ s with inputs := rest } : State).Inv :=
  inv_with hs hs.mem hs.races rest s.bus s.fresh

/-- Any number of turns given to an engine that is stuck pass, and nothing else changes (R69, log 6). -/
theorem runs_unbacked {s : State} {a n : Nat} {rest : List Turn} (hs : s.Inv) (hp : s.eng.phase = .running)
    (ha : nextAccess s = some (.read a) ∨ nextAccess s = some (.write a))
    (hk : addressKind s.platform a = .unbacked) (hi : s.inputs = List.replicate n .engine ++ rest) :
    Runs n s { s with inputs := rest } := by
  induction n generalizing s with
  | zero =>
    obtain rfl : s.inputs = rest := hi
    exact runs_zero s
  | succ n ih =>
    have hs' := inv_inputs hs (List.replicate n .engine ++ rest)
    have hstep := (step_scheduled hi).trans (scheduledEngineTurn_unbacked hs' hp ha hk)
    exact runs_succ hstep (ih hs' hp ha hk rfl)

/-- Settles O16: the engine's turn is its one access, which the platform answers with a fault that a waiting turn
passes over, or with a refusal. -/
theorem unbackedAccessIsStuck : Obligations.UnbackedAccessIsStuck := by
  intro s a hs hp ha
  refine ⟨fun hk => ⟨fun hi => ?_, fun n rest hi => ?_⟩, fun hk hi => ?_⟩
  · rw [step_turn hi, engineTurn_unbacked hs hp ha hk]
  · exact ⟨runs_unbacked hs hp ha hk hi, hs.flags.busy_iff.2 hp⟩
  · rcases hi with hi | ⟨rest, hi⟩
    · rw [step_turn hi, engineTurn_device hs hp ha hk]
    · exact (step_scheduled hi).trans (scheduledEngineTurn_device (inv_inputs hs rest) hp ha hk)

/-- Settles O17: memory after the step is memory before it, or that with the one byte written. -/
theorem engineStepMakesItsOneAccess : Obligations.EngineStepMakesItsOneAccess := by
  intro s t hs hm h
  rw [step_engine hm] at h
  obtain ⟨hk, hmem⟩ := engineStep_mem hm.phase (hs.cursors hm.phase) h
  refine ⟨hk, fun x hx => ?_⟩
  rcases hmem with ⟨a, v, ha, ht⟩ | ⟨-, ht⟩ <;> rw [ht]
  exact Memory.read_write_other v hs.mem fun hxa => hx (hxa ▸ ha)

/-! ### The step on another memory -/

/-- The state with another memory. -/
def State.withMem (m : Memory) (s : State) : State := { s with mem := m }

/-- The outcome of a step without the memory it leaves. -/
def forgetMem : Result → Result
  | .next t => .next (t.withMem [])
  | .fault r => .fault r
  | .refused r => .refused r

@[simp] theorem withMem_eng (m : Memory) (s : State) : (s.withMem m).eng = s.eng := rfl

theorem forgetMem_eq_next {o : Result} {t : State} (h : forgetMem o = forgetMem (.next t)) :
    ∃ t', o = .next t' ∧ t'.withMem t.mem = t := by
  cases o with
  | next t' =>
    have hsame : t'.withMem [] = t.withMem [] := Host.Outcome.next.inj h
    exact ⟨t', rfl, (congrArg (State.withMem t.mem) hsame :)⟩
  | fault r => cases h
  | refused r => cases h

theorem withMem_ite_congr {c : Prop} [Decidable c] {a a' b b' : State} (ha : a'.withMem [] = a.withMem [])
    (hb : b'.withMem [] = b.withMem []) :
    (if c then a' else b').withMem [] = (if c then a else b).withMem [] := by
  split <;> assumption

section
variable {s s' : State} (h : s'.withMem [] = s.withMem [])
include h

theorem goto_withMem_congr {p : Point} : (s'.goto p).withMem [] = (s.goto p).withMem [] := congrArg (State.goto p) h

theorem complete_withMem_congr {len : Word} : (s'.complete len).withMem [] = (s.complete len).withMem [] :=
  congrArg (State.complete len) h

theorem raise_withMem_congr {e : ErrorKind} {pos : Word} : (s'.raise e pos).withMem [] = (s.raise e pos).withMem [] :=
  congrArg (State.raise e pos) h

theorem endScan_withMem_congr : s'.endScan.withMem [] = s.endScan.withMem [] := congrArg State.endScan h

theorem eng_eq_of_withMem : s'.eng = s.eng := congrArg (·.eng) h

theorem loopTest_withMem_congr {p : Point} : (s'.loopTest p).withMem [] = (s.loopTest p).withMem [] := by
  unfold State.loopTest
  rw [eng_eq_of_withMem h]
  exact withMem_ite_congr (goto_withMem_congr h) (complete_withMem_congr h)

theorem checkCapacity_withMem_congr {p : Point} : (s'.checkCapacity p).withMem [] = (s.checkCapacity p).withMem [] := by
  unfold State.checkCapacity
  rw [eng_eq_of_withMem h]
  exact withMem_ite_congr (goto_withMem_congr h) (raise_withMem_congr h)

theorem scanTest_withMem_congr : s'.scanTest.withMem [] = s.scanTest.withMem [] := by
  unfold State.scanTest
  rw [eng_eq_of_withMem h]
  exact withMem_ite_congr (goto_withMem_congr h) (endScan_withMem_congr h)

end

/-- Whether an access is answered is told by the platform alone. -/
theorem engineAccess_forgetMem {s t t' : State} {a : Nat} (m : Memory) (h : t'.withMem [] = t.withMem []) :
    forgetMem (engineAccess a (s.withMem m) t') = forgetMem (engineAccess a s t) := by
  unfold engineAccess
  rw [show (s.withMem m).platform = s.platform from rfl]
  split
  · exact congrArg Host.Outcome.next h
  all_goals rfl

section
variable {s : State} {m : Memory}

theorem enterLoop_withMem : (s.withMem m).enterLoop.withMem [] = s.enterLoop.withMem [] :=
  loopTest_withMem_congr (by rfl)

theorem stepHandleCheck_forgetMem : forgetMem (stepHandleCheck (s.withMem m)) = forgetMem (stepHandleCheck s) :=
  congrArg Host.Outcome.next (withMem_ite_congr enterLoop_withMem rfl)

theorem stepEncLoad_forgetMem
    (h : m.read (sourceAddress s s.eng.r.toNat) = s.mem.read (sourceAddress s s.eng.r.toNat)) :
    forgetMem (stepEncLoad (s.withMem m)) = forgetMem (stepEncLoad s) := by
  have hb : (s.withMem m).mem.read (sourceAddress (s.withMem m) (s.withMem m).eng.r.toNat) =
      s.mem.read (sourceAddress s s.eng.r.toNat) := h
  refine engineAccess_forgetMem m ?_
  rw [hb]
  exact withMem_ite_congr rfl (scanTest_withMem_congr (by rfl))

theorem stepEncPeek_forgetMem
    (h : m.read (sourceAddress s (s.eng.r.toNat + s.eng.len.toNat)) =
      s.mem.read (sourceAddress s (s.eng.r.toNat + s.eng.len.toNat))) :
    forgetMem (stepEncPeek (s.withMem m)) = forgetMem (stepEncPeek s) := by
  have hb : (s.withMem m).mem.read
      (sourceAddress (s.withMem m) ((s.withMem m).eng.r.toNat + (s.withMem m).eng.len.toNat)) =
      s.mem.read (sourceAddress s (s.eng.r.toNat + s.eng.len.toNat)) := h
  refine engineAccess_forgetMem m ?_
  rw [hb]
  exact withMem_ite_congr (scanTest_withMem_congr (by rfl)) rfl

theorem stepEncLit_forgetMem : forgetMem (stepEncLit (s.withMem m)) = forgetMem (stepEncLit s) :=
  engineAccess_forgetMem m (loopTest_withMem_congr (by rfl))

theorem stepEncHeader_forgetMem : forgetMem (stepEncHeader (s.withMem m)) = forgetMem (stepEncHeader s) :=
  engineAccess_forgetMem m rfl

theorem stepEncLength_forgetMem : forgetMem (stepEncLength (s.withMem m)) = forgetMem (stepEncLength s) :=
  engineAccess_forgetMem m (loopTest_withMem_congr (by rfl))

theorem fetchLit_forgetMem (b : Byte) : forgetMem (fetchLit b (s.withMem m)) = forgetMem (fetchLit b s) :=
  engineAccess_forgetMem m (checkCapacity_withMem_congr (by rfl))

theorem writeLit_forgetMem (b : Byte) : forgetMem (writeLit b (s.withMem m)) = forgetMem (writeLit b s) :=
  engineAccess_forgetMem m (loopTest_withMem_congr (by rfl))

theorem fetchHeader_forgetMem (b : Byte) : forgetMem (fetchHeader b (s.withMem m)) = forgetMem (fetchHeader b s) :=
  engineAccess_forgetMem m (withMem_ite_congr rfl rfl)

theorem fetchLength_forgetMem (n : Byte) : forgetMem (fetchLength n (s.withMem m)) = forgetMem (fetchLength n s) :=
  engineAccess_forgetMem m (withMem_ite_congr rfl (checkCapacity_withMem_congr (by rfl)))

theorem writeCopy_forgetMem (v n : Byte) : forgetMem (writeCopy v n (s.withMem m)) = forgetMem (writeCopy v n s) :=
  engineAccess_forgetMem m (withMem_ite_congr (checkCapacity_withMem_congr (by rfl)) (loopTest_withMem_congr (by rfl)))

/-- On a memory that agrees at the byte it reads, the engine's step is the same but for memory (R52, R136, R161). -/
theorem engineStep_forgetMem (hp : s.eng.phase = .running) (hc : s.eng.CursorsAt s.eng.pt)
    (hr : ∀ a, nextAccess s = some (.read a) → m.read a = s.mem.read a) :
    forgetMem (engineStep (s.withMem m)) = forgetMem (engineStep s) := by
  cases hpt : s.eng.pt <;> rw [hpt] at hc <;> simp only [nextAccess, hp, hpt] at hr
  case handleCheck => simpa [engineStep, hpt] using stepHandleCheck_forgetMem
  case encLoad => simpa [engineStep, hpt] using stepEncLoad_forgetMem (hr _ rfl)
  case encPeek => simpa [engineStep, hpt] using stepEncPeek_forgetMem (hr _ rfl)
  case encLit => simpa [engineStep, hpt] using stepEncLit_forgetMem
  case encHeader => simpa [engineStep, hpt] using stepEncHeader_forgetMem
  case encLength => simpa [engineStep, hpt] using stepEncLength_forgetMem
  case decFetch =>
    have hb : (s.withMem m).mem.read (tokenAddress (s.withMem m) 0) = s.mem.read (tokenAddress s 0) := hr _ rfl
    cases ht : tagOf (s.mem.read (tokenAddress s 0)) with
    | false =>
      rw [engineStep_decFetch_lit hp hpt ht, engineStep_decFetch_lit (s := s.withMem m) hp hpt (by rw [hb, ht]), hb]
      exact fetchLit_forgetMem _
    | true =>
      rw [engineStep_decFetch_header hp hpt ht,
        engineStep_decFetch_header (s := s.withMem m) hp hpt (by rw [hb, ht]), hb]
      exact fetchHeader_forgetMem _
  case decLit =>
    obtain ⟨-, -, -, -, htag⟩ := hc
    rw [engineStep_decLit hp hpt htag, engineStep_decLit (s := s.withMem m) hp hpt htag]
    exact writeLit_forgetMem _
  case decLength =>
    obtain ⟨-, -, -, -, htag⟩ := hc
    have hb : (s.withMem m).mem.read (tokenAddress (s.withMem m) 1) = s.mem.read (tokenAddress s 1) := hr _ rfl
    rw [engineStep_decLength hp hpt htag, engineStep_decLength (s := s.withMem m) hp hpt htag, hb]
    exact fetchLength_forgetMem _
  case decRun =>
    obtain ⟨-, -, -, -, htag, -, -⟩ := hc
    rw [engineStep_decRun hp hpt htag, engineStep_decRun (s := s.withMem m) hp hpt htag]
    exact writeCopy_forgetMem _ _

end

/-- Settles O18: without memory the two outcomes are the same. -/
theorem engineStepReadsOnlyItsByte : Obligations.EngineStepReadsOnlyItsByte := by
  intro s t m hs hm h hr
  have hm' : EngineMoves (s.withMem m) := ⟨hm.inputs, hm.phase, hm.unraced⟩
  have hsame := engineStep_forgetMem hm.phase (hs.cursors hm.phase) hr
  rw [← step_engine hm, ← step_engine hm', h] at hsame
  exact forgetMem_eq_next hsame

/-! ### The accesses of a running command -/

/-- An offset below a region's length stands in the region (R12). -/
theorem inRegion_addressOf {base len : Word} {i : Nat} (h : i < len.toNat) :
    inRegion base len (addressOf base i) = true := by
  rw [inRegion_iff, addressOf]
  omega

section
variable {s : State} (hp : s.eng.phase = .running) (hc : s.eng.CursorsAt s.eng.pt)
include hp hc

/-- Every read lies in the source region, ENCODE's and DECODE's (R68). -/
theorem nextAccess_read_inRegion {a : Nat} (ha : nextAccess s = some (.read a)) :
    inRegion s.eng.sb s.eng.sl a = true := by
  cases hpt : s.eng.pt <;> rw [hpt] at hc <;> simp [nextAccess, hp, hpt] at ha <;> subst ha <;>
    apply inRegion_addressOf
  case encLoad =>
    obtain ⟨-, -, -, hr⟩ := hc
    exact hr
  case encPeek =>
    obtain ⟨-, -, -, hr, -⟩ := hc
    exact hr
  case decFetch | decLength =>
    obtain ⟨-, -, hr, -⟩ := hc
    exact hr

/-- Every write lies in the region the command writes (R68). -/
theorem nextAccess_write_inRegion {a : Nat} (ha : nextAccess s = some (.write a)) :
    inRegion s.eng.outputBase s.eng.outputLen a = true := by
  unfold Eng.outputBase Eng.outputLen
  cases hpt : s.eng.pt <;> rw [hpt] at hc <;> simp [nextAccess, hp, hpt] at ha <;> subst ha <;>
    obtain ⟨hop, -, hc⟩ := hc <;> simp only [hop] <;> apply inRegion_addressOf
  case encLit | encLength =>
    obtain ⟨hw, hr, -⟩ := hc
    exact Nat.lt_of_lt_of_le hw hr
  case encHeader =>
    obtain ⟨hw, hr, -⟩ := hc
    exact Nat.lt_of_lt_of_le (Nat.lt_of_succ_lt hw) hr
  case decLit | decRun =>
    obtain ⟨-, hw, -⟩ := hc
    exact hw

end

/-- Settles O19, by the bounds of the cursors at the point of the access. -/
theorem accessesStayInTheRegions : Obligations.AccessesStayInTheRegions := by
  intro s hs hp
  have hc := hs.cursors hp
  refine ⟨fun a ha => nextAccess_read_inRegion hp hc ha, fun a ha => ?_, fun hpt => by simp [nextAccess, hp, hpt]⟩
  have hw := nextAccess_write_inRegion hp hc ha
  cases hop : s.eng.op <;> simpa [Eng.outputBase, Eng.outputLen, hop] using hw

/-! ### The host's accesses outside a race -/

section
variable {s : State} {a : Word} {rest : List Turn} (hk : addressKind s.platform a.toNat = .ordinary)
  (hr : raced a s = false)
include hk hr

theorem step_memWrite {v : Byte} (hi : s.inputs = .host (.memWrite a v) :: rest) :
    step s = .next { s with inputs := rest, mem := s.mem.write a.toNat v } :=
  (step_host hi).trans ((foreignAccess_ordinary _ hk).trans (if_neg (ne_true_of_eq_false hr)))

theorem step_memRead (hi : s.inputs = .host (.memRead a) :: rest) :
    step s = .next { s with inputs := rest, bus := (s.mem.read a.toNat).zeroExtend 32 } :=
  (step_host hi).trans ((foreignAccess_ordinary _ hk).trans (if_neg (ne_true_of_eq_false hr)))

end

/-- Settles O14: the write changes its byte alone, and the read after it puts that byte on the bus. -/
theorem hostMemoryWriteIsReadBack : Obligations.HostMemoryWriteIsReadBack := by
  intro s a v rest hm hk hr hi
  have hwrite := step_memWrite hk hr hi
  have hread := step_memRead (s := { s with inputs := .host (.memRead a) :: rest, mem := s.mem.write a.toNat v })
    hk hr rfl
  refine ⟨_, runs_succ hwrite (runs_one hread), ?_, fun x => Memory.read_write a.toNat v x hm, rfl⟩
  exact congrArg (BitVec.zeroExtend 32) (Memory.read_write_same a.toNat v hm)

end Sys2Proof.Machine

/-! The encodings (30_encoding): a command word and a token lose no operand bit, a stream of tokens is read back in
order, a step runs the instruction it decodes, and STATUS reads one of seven words. -/

namespace Sys2Proof.Machine

/-! ### Command words -/

/-- The bits of a word without its reserved bits (R90). -/
theorem getLsbD_and_nibble (d : Word) (i : Nat) : (d &&& 0xF#32).getLsbD i = (d.getLsbD i && decide (i < 4)) := by
  have hmask : (0xF#32).getLsbD i = (decide (i < 32) && decide (i < 4)) := by
    rw [BitVec.getLsbD_ofNat, Nat.testBit_two_pow_sub_one 4]
  rw [BitVec.getLsbD_and, hmask]
  by_cases hi : i < 4
  · simp [hi, Nat.lt_trans hi (by decide : 4 < 32)]
  · simp [hi]

theorem commandWord_and_nibble (start op sv dv : Bool) :
    commandWord start op sv dv &&& 0xF#32 = commandWord start op sv dv := by
  revert start op sv dv
  decide

/-- The four low bits of a word make the command word without its reserved bits (R90). -/
theorem commandWord_of_bits (d : Word) :
    commandWord (d.getLsbD 0) (d.getLsbD 1) (d.getLsbD 2) (d.getLsbD 3) = d &&& 0xF#32 := by
  obtain ⟨h0, h1, h2, h3⟩ := commandWord_bits (d.getLsbD 0) (d.getLsbD 1) (d.getLsbD 2) (d.getLsbD 3)
  apply BitVec.eq_of_getLsbD_eq
  intro i _
  rw [← commandWord_and_nibble, getLsbD_and_nibble, getLsbD_and_nibble]
  match i with
  | 0 => rw [h0]
  | 1 => rw [h1]
  | 2 => rw [h2]
  | 3 => rw [h3]
  | i + 4 => simp

/-- Of a command word the encoder gives back all but the reserved bits (R90, R91). -/
theorem encode_decodeCommand (d : Word) : encode (decodeCommand d) = .command (d &&& 0xF#32) := by
  rw [← commandWord_of_bits d]
  unfold decodeCommand
  cases d.getLsbD 0 with
  | false => rfl
  | true => cases d.getLsbD 1 <;> rfl

/-- Settles O53: the decoder tests the two low bits and takes the next two as they are. -/
theorem commandWordDecodesByLowBits : Obligations.CommandWordDecodesByLowBits := by
  intro d
  refine ⟨fun h0 h1 => ?_, fun h0 h1 => ?_, fun h0 => ?_, ?_⟩
  · rw [decode, decodeCommand, if_pos h0, if_neg (ne_true_of_eq_false h1)]
  · rw [decode, decodeCommand, if_pos h0, if_pos h1]
  · rw [decode, decodeCommand, if_neg (ne_true_of_eq_false h0)]
  · simp [decode, decodeCommand]

/-! ### Tokens -/

/-- Settles O54, by the tag of the first byte. -/
theorem tokenLengthFromTheTag : Obligations.TokenLengthFromTheTag := fun _ _ _ => ⟨rfl, rfl, rfl⟩

/-- Settles O57: each word is decoded by its rule. -/
theorem sampleWordsDecode : Obligations.SampleWordsDecode := by
  unfold Obligations.SampleWordsDecode
  decide

/-- The bytes of an instruction's token are read back as it, whatever follows them (R81 to R83). -/
theorem decodeToken_encode {i : Instr} {bytes : List Byte} (h : encode i = .token bytes) (rest : List Byte) :
    decodeToken (bytes ++ rest) = .ok i rest := by
  cases i with
  | lit v =>
    obtain rfl := Code.token.inj h
    exact decodeToken_lit v rest
  | run v n =>
    obtain rfl := Code.token.inj h
    exact decodeToken_run v n rest
  | encode | decode | ctrlSet => cases h

/-- Settles O55: the commands by the bits of their word, the tokens by the tag and the literal of their first byte. -/
theorem decodeOfEncodeIsTheInstruction : Obligations.DecodeOfEncodeIsTheInstruction := by
  refine ⟨fun i _ => ?_, fun i bytes rest _ hi => decodeToken_encode hi rest, fun i bytes rest h => ?_,
    encode_decodeCommand⟩
  · cases i with
    | lit v => exact decodeToken_lit v []
    | run v n => exact decodeToken_run v n []
    | encode | decode | ctrlSet => simp [encode, decode]
  · rcases decodeToken_eq_ok h with ⟨v, rfl, hb⟩ | ⟨v, n, rfl, hb⟩
    · exact ⟨[literalByte v], rfl, hb⟩
    · exact ⟨[headerByte v, n], rfl, hb⟩

/-- A token at the front of a stream is read first, and then the rest (R83). -/
theorem tokensOf_of_decodeToken {bytes rest : List Byte} {i : Instr} (f : Nat) (h : decodeToken bytes = .ok i rest) :
    tokensOf (f + 1) bytes = (tokensOf f rest).map (i :: ·) := by
  cases bytes with
  | nil => cases h
  | cons b bs => simp only [tokensOf, h]

theorem tokenBytesOf_cons {i : Instr} {bytes : List Byte} (h : encode i = .token bytes) (is : List Instr) :
    tokenBytesOf (i :: is) = bytes ++ tokenBytesOf is := by
  simp [tokenBytesOf, h]

/-- Tokens laid end to end are read back with a unit of fuel for each byte, or more. -/
theorem tokensOf_tokenBytesOf {is : List Instr} {f : Nat} (h : ∀ i ∈ is, ∃ b bs, encode i = .token (b :: bs))
    (hf : (tokenBytesOf is).length ≤ f) : tokensOf f (tokenBytesOf is) = some is := by
  induction is generalizing f with
  | nil => cases f <;> rfl
  | cons i is ih =>
    obtain ⟨⟨b, bs, hi⟩, his⟩ := List.forall_mem_cons.1 h
    rw [tokenBytesOf_cons hi] at hf ⊢
    cases f with
    | zero => simp at hf
    | succ f =>
      have hrest : (tokenBytesOf is).length ≤ f := by
        simp only [List.cons_append, List.length_cons, List.length_append] at hf
        omega
      rw [tokensOf_of_decodeToken f (decodeToken_encode hi _), ih his hrest]
      rfl

/-- Settles O56: the decoder takes the bytes of the first token from the stream and leaves those of the others. -/
theorem tokenStreamIsReadBack : Obligations.TokenStreamIsReadBack := by
  intro is h
  refine tokensOf_tokenBytesOf (fun i hi => ?_) le_rfl
  rcases (h i hi).2 with ⟨v, rfl⟩ | ⟨v, n, rfl⟩
  · exact ⟨literalByte v, [], rfl⟩
  · exact ⟨headerByte v, [n], rfl⟩

/-! ### The step of a decoded instruction -/


/-- The token decoder looks at two bytes (R83). -/
theorem decodeToken_take_two {bytes rest : List Byte} {i : Instr} (h : decodeToken bytes = .ok i rest) :
    ∃ rest', decodeToken (bytes.take 2) = .ok i rest' := by
  rcases decodeToken_eq_ok h with ⟨v, rfl, rfl⟩ | ⟨v, n, rfl, rfl⟩
  · exact ⟨_, decodeToken_lit v _⟩
  · exact ⟨_, decodeToken_run v n _⟩

/-- At a token's first byte the engine has the stream's next two bytes, or its last one (R150). -/
theorem tokenBytes_decFetch {s : State} (hpt : s.eng.pt = .decFetch) (hr : s.eng.r.toNat < s.eng.sl.toNat) :
    tokenBytes s =
      (s.mem.slice (s.eng.sb.toNat + s.eng.r.toNat) (s.eng.sl.toNat - s.eng.r.toNat)).take 2 := by
  obtain ⟨m, hm⟩ : ∃ m, s.eng.sl.toNat - s.eng.r.toNat = m + 1 := Nat.exists_eq_add_one.2 (by omega)
  rw [hm]
  cases m with
  | zero =>
    have hlast : ¬ s.eng.r.toNat + 1 < s.eng.sl.toNat := by omega
    simp [tokenBytes, hpt, Memory.slice, tokenAddress, addressOf, hlast]
  | succ m =>
    have hmore : s.eng.r.toNat + 1 < s.eng.sl.toNat := by omega
    simp [tokenBytes, hpt, Memory.slice, tokenAddress, addressOf, hmore, Nat.add_assoc]

theorem stepToken_of_decode {s : State} {i : Instr} {rest : List Byte} (h : decodeToken (tokenBytes s) = .ok i rest) :
    stepToken s = exec i s := by
  simp only [stepToken, decode, h]

/-- At the four points of a token the engine's step is the token's. -/
theorem step_token {s : State} {i : Instr} {rest : List Byte} (hs : EngineMoves s)
    (hpt : s.eng.pt = .decFetch ∨ s.eng.pt = .decLit ∨ s.eng.pt = .decLength ∨ s.eng.pt = .decRun)
    (h : decodeToken (tokenBytes s) = .ok i rest) : step s = exec i s := by
  rw [step_engine hs, ← stepToken_of_decode h, engineStep]
  rcases hpt with hpt | hpt | hpt | hpt <;> rw [hpt]

/-! ### A turn given to the engine while others wait -/

/-- The byte redrawn does not depend on the waiting turns. -/
theorem redraw_inputs (s : State) (r : List Turn) :
    ({ s with inputs := r } : State).redraw = { s.redraw with inputs := r } := by
  by_cases h : ∃ a ∈ s.racedBytes, nextAccess s = some (.read a)
  · obtain ⟨a, hm, ha⟩ := h
    rw [redraw_raced hm ha]
    exact redraw_raced (s := { s with inputs := r }) hm ha
  · have h' : ∀ a ∈ s.racedBytes, nextAccess s ≠ some (.read a) := fun a hm ha => h ⟨a, hm, ha⟩
    rw [redraw_eq_self h']
    exact redraw_eq_self (s := { s with inputs := r }) h'

theorem raceEnd_inputs (e : Eng) (s : State) (r : List Turn) :
    ({ s with inputs := r } : State).raceEnd e = { s.raceEnd e with inputs := r } := by
  unfold State.raceEnd
  split <;> rfl

/-- The waiting turns pass through an engine turn, raced or not. -/
theorem engineTurn_inputs {s t : State} (r : List Turn) (hp : s.eng.phase = .running) (h : engineTurn s = .next t) :
    engineTurn { s with inputs := r } = .next { t with inputs := r } := by
  obtain ⟨u, hu, hend⟩ := engineTurn_eq_next hp h
  have hstep := engineStep_inputs r (by simpa using hp) hu
  rw [engineTurn_running (s := { s with inputs := r }) hp, redraw_inputs, hstep]
  rcases hend with ⟨rfl, hr | hrun⟩ | ⟨rfl, hr, hidle⟩
  · exact settleRace_unraced _ hr
  · exact settleRace_running hrun
  · rw [← raceEnd_inputs]
    exact settleRace_ended hr hidle

/-- A turn given to the running engine is its step with no turn waiting (log 1). -/
theorem step_scheduled_engine {s t : State} {rest : List Turn} (hi : s.inputs = .engine :: rest)
    (hp : s.eng.phase = .running) (h : step { s with inputs := [] } = .next t) :
    step s = .next { t with inputs := rest } := by
  rw [step_turn rfl] at h
  have hturn := engineTurn_inputs (s := { s with inputs := [] }) rest hp h
  rw [step_scheduled hi, scheduledEngineTurn, hturn]

/-- Settles O58: for each source of an instruction the step unfolds to the decoder's answer, and a scheduled turn is the
step with the other turns put aside. -/
theorem stepRunsTheDecodedInstruction : Obligations.StepRunsTheDecodedInstruction := by
  refine ⟨fun s d i rest hi hd => ?_, fun s i after hs hpt hr hd => ?_, fun s i after hs hpt hd => ?_,
    fun s t rest hi hp h => step_scheduled_engine hi hp h⟩
  · obtain rfl : decodeCommand d = i := by simpa [decode] using hd
    exact step_wr hi
  · obtain ⟨rest', hd'⟩ := decodeToken_take_two hd
    rw [← tokenBytes_decFetch hpt hr] at hd'
    exact step_token hs (.inl hpt) hd'
  · exact step_token hs (.inr hpt) hd

/-! ### The word of STATUS -/

/-- Settles O11: the flags that can stand together, each with its word. -/
theorem statusReadsOneOfSevenValues : Obligations.StatusReadsOneOfSevenValues := by
  intro s hs
  obtain ⟨-, hbd, hed, -, -, -⟩ := hs.flags
  rcases hst : s.status with ⟨busy, done, err⟩
  rw [hst] at hbd hed
  cases busy with
  | true =>
    obtain rfl : done = false := by simpa using hbd
    obtain rfl : err = none := by simpa using hed
    simp [readReg, hst, Status.toWord, errField]
  | false =>
    cases err with
    | none => cases done <;> simp [readReg, hst, Status.toWord, errField]
    | some e =>
      obtain rfl : done = true := by simpa using hed
      cases e <;> simp [readReg, hst, Status.toWord, errField, ErrorKind.code]

end Sys2Proof.Machine

/-! How a command ends, one chunk or one token at a time: `encodeEnding` by the first chunk of the source (R131 to R135)
and `decodeEnding` by the first token of the stream (R150 to R159). -/

namespace Sys2Proof.Machine

/-- The ending of an input of which l bytes that give `out` come before those that end as e. -/
def Ending.after (out : List Byte) (l : Nat) (e : Ending) : Ending where
  err := e.err
  resultLen := if e.err = none then out.length + e.resultLen else 0
  errPos := if e.err = none then 0 else e.errPos + l
  written := out ++ e.written

/-- The ending of a success that writes nothing. -/
def Ending.success : Ending := { err := none, resultLen := 0, errPos := 0, written := [] }

/-- The ending of an error at the first byte. -/
def Ending.failure (e : ErrorKind) : Ending := { err := some e, resultLen := 0, errPos := 0, written := [] }

/-- The ending of a token that does not fit, after as much of it as fits. -/
def Ending.overflow (out : List Byte) : Ending :=
  { err := some .destinationOverflow, resultLen := 0, errPos := 0, written := out }

/-! ### ENCODE: the first chunk -/

@[simp] theorem encodeEnding_nil : encodeEnding [] = .success := rfl

theorem encodeEnding_outOfRange {v : Byte} (xs : List Byte) (h : tagOf v = true) :
    encodeEnding (v :: xs) = .failure .outOfRangeLiteral := by
  simp [encodeEnding, validInput, firstOutOfRange, h, Ending.failure]

/-- Literals at the front are in range. -/
theorem validInput_append {xs ys : List Byte} (h : validInput xs = true) : validInput (xs ++ ys) = validInput ys := by
  rw [validInput] at h
  rw [validInput, List.all_append, h, Bool.true_and]
  rfl

theorem firstOutOfRange_append {xs : List Byte} (ys : List Byte) (h : validInput xs = true) :
    firstOutOfRange (xs ++ ys) = xs.length + firstOutOfRange ys := by
  induction xs with
  | nil => simp
  | cons x xs ih =>
    obtain ⟨hx, hxs⟩ := validInput_cons.1 h
    simp only [List.cons_append, firstOutOfRange, hx, Bool.false_eq_true, if_false, ih hxs, List.length_cons]
    omega

theorem leading_take (v : Byte) (n : Nat) (xs : List Byte) : leading v (xs.take n) = min n (leading v xs) := by
  induction xs generalizing n with
  | nil => simp [leading]
  | cons x xs ih =>
    cases n with
    | zero => simp [leading]
    | succ n =>
      simp only [List.take_succ_cons, leading, ih]
      split <;> omega

/-- What is cut off past the first chunk does not change the chunk. -/
theorem chunkLength_take {v : Byte} {xs : List Byte} (n : Nat) :
    chunkLength ((v :: xs).take (chunkLength (v :: xs) + n)) = chunkLength (v :: xs) := by
  obtain ⟨m, hm⟩ : ∃ m, chunkLength (v :: xs) = m + 1 := Nat.exists_eq_add_one.2 (chunkLength_pos v xs)
  have hL := hm
  simp only [chunkLength] at hL
  rw [hm, Nat.add_right_comm, List.take_succ_cons, chunkLength, leading_take]
  omega

/-- Of an input cut off past its first chunk, `Enc` is the chunk's token and `Enc` of the rest. -/
theorem Enc_take (v : Byte) (xs : List Byte) (n : Nat) :
    Enc ((v :: xs).take (chunkLength (v :: xs) + n)) =
      chunkToken v (chunkLength (v :: xs)) ++ Enc (((v :: xs).drop (chunkLength (v :: xs))).take n) := by
  have hcut := chunkLength_take (v := v) (xs := xs) n
  obtain ⟨m, hm⟩ : ∃ m, chunkLength (v :: xs) = m + 1 := Nat.exists_eq_add_one.2 (chunkLength_pos v xs)
  have htake : (v :: xs).take (chunkLength (v :: xs) + n) = v :: xs.take (m + n) := by
    rw [hm, Nat.add_right_comm, List.take_succ_cons]
  rw [htake] at hcut ⊢
  rw [Enc_cons, hcut, ← htake, List.drop_take, Nat.add_sub_cancel_left]

/-- A chunk of literals, then the ending of the rest (R133, R135). -/
theorem encodeEnding_cons {v : Byte} (xs : List Byte) (h : tagOf v = false) :
    encodeEnding (v :: xs) = (encodeEnding ((v :: xs).drop (chunkLength (v :: xs)))).after
      (chunkToken v (chunkLength (v :: xs))) (chunkLength (v :: xs)) := by
  have hchunk : validInput (List.replicate (chunkLength (v :: xs)) v) = true :=
    List.all_eq_true.2 fun c hc => by rw [List.eq_of_mem_replicate hc, h]; rfl
  have hvalid : validInput (v :: xs) = validInput ((v :: xs).drop (chunkLength (v :: xs))) := by
    conv_lhs => rw [chunk_append v xs]
    exact validInput_append hchunk
  have hfirst : firstOutOfRange (v :: xs) =
      chunkLength (v :: xs) + firstOutOfRange ((v :: xs).drop (chunkLength (v :: xs))) := by
    conv_lhs => rw [chunk_append v xs]
    rw [firstOutOfRange_append _ hchunk, List.length_replicate]
  cases hv : validInput ((v :: xs).drop (chunkLength (v :: xs))) with
  | true => simp [encodeEnding, hvalid, hv, Ending.after, Enc_cons v xs]
  | false => simp [encodeEnding, hvalid, hv, Ending.after, hfirst, Enc_take, Nat.add_comm]

/-! ### DECODE: the first token -/

/-- The bytes tok are a whole token that expands to out: what `Dec` and `tokenHolding` make of it (R159). -/
structure Expands (tok out : List Byte) : Prop where
  dec : ∀ T, Dec (tok ++ T) = (Dec T).after out tok.length
  inside : ∀ T c, c < out.length → tokenHolding c (tok ++ T) = 0
  past : ∀ T c, T ≠ [] → out.length ≤ c →
    tokenHolding c (tok ++ T) = tokenHolding (c - out.length) T + tok.length

theorem expands_lit {b : Byte} (h : tagOf b = false) : Expands [b] [b] where
  dec T := Dec_lit h T
  inside T c hc := by
    obtain rfl : c = 0 := by simpa using hc
    cases T <;> simp [tokenHolding, h]
  past T c hT hc := by
    have hc : c ≠ 0 := Nat.ne_of_gt hc
    cases T with
    | nil => exact absurd rfl hT
    | cons n T => simp [tokenHolding, h, hc]

theorem expands_run {b n : Byte} (h : tagOf b = true) (hn : 2 ≤ n.toNat) :
    Expands [b, n] (List.replicate n.toNat (b &&& 0x7F#8)) where
  dec T := Dec_run h hn T
  inside T c hc := by
    rw [List.length_replicate] at hc
    simp [tokenHolding, h, hc]
  past T c hT hc := by
    rw [List.length_replicate] at hc ⊢
    simp [tokenHolding, h, Nat.not_lt.2 hc]

theorem decodeEnding_of_ok {T ys : List Byte} (cap : Nat) (h : Dec T = .ok ys) :
    decodeEnding T cap =
      boundedEnding T cap ys { err := none, resultLen := ys.length, errPos := 0, written := ys } := by
  simp only [decodeEnding, h]

theorem decodeEnding_of_err {T ys : List Byte} {e : ErrorKind} {t : Nat} (cap : Nat) (h : Dec T = .err e t)
    (h' : Dec (T.take t) = .ok ys) :
    decodeEnding T cap = boundedEnding T cap ys { err := some e, resultLen := 0, errPos := t, written := ys } := by
  simp only [decodeEnding, h, h']

/-- Before an error behind a token stands the token, and what stands before the error in the rest. -/
theorem Expands.dec_eq_err {tok out T : List Byte} {e : ErrorKind} {t : Nat} (hx : Expands tok out)
    (h : Dec (tok ++ T) = .err e t) : ∃ p, Dec T = .err e p ∧ t = p + tok.length := by
  rw [hx.dec] at h
  cases hT : Dec T with
  | ok ys => simp [hT, DecResult.after] at h
  | err e' p =>
    simp only [hT, DecResult.after, DecResult.err.injEq] at h
    obtain ⟨rfl, rfl⟩ := h
    exact ⟨p, rfl, rfl⟩

theorem Expands.dec_take {tok out T ys : List Byte} {p : Nat} (hx : Expands tok out) (h : Dec (T.take p) = .ok ys) :
    Dec ((tok ++ T).take (p + tok.length)) = .ok (out ++ ys) := by
  rw [Nat.add_comm, List.take_length_add_append, hx.dec, h, DecResult.after]

/-- The stream before a malformed token decodes (R159). -/
theorem Dec_take_of_err {T : List Byte} {e : ErrorKind} {t : Nat} (h : Dec T = .err e t) :
    ∃ ys, Dec (T.take t) = .ok ys := by
  induction T using Dec.induct generalizing t with
  | case1 => simp at h
  | case2 b hb =>
    rw [Dec_truncated hb] at h
    obtain ⟨-, rfl⟩ := DecResult.err.inj h
    exact ⟨[], Dec_nil⟩
  | case3 b hb => simp [Dec, hb] at h
  | case4 b n T hb hn =>
    rw [Dec_short hb hn] at h
    obtain ⟨-, rfl⟩ := DecResult.err.inj h
    exact ⟨[], Dec_nil⟩
  | case5 b n T hb hn ih =>
    have hx := expands_run hb (Nat.not_lt.1 hn)
    obtain ⟨p, hT, rfl⟩ := hx.dec_eq_err h
    obtain ⟨ys, hys⟩ := ih hT
    exact ⟨_, hx.dec_take hys⟩
  | case6 b n T hb ih =>
    have hx := expands_lit (Bool.eq_false_iff.2 hb)
    obtain ⟨p, hT, rfl⟩ := hx.dec_eq_err h
    obtain ⟨ys, hys⟩ := ih hT
    exact ⟨_, hx.dec_take hys⟩

@[simp] theorem decodeEnding_nil (cap : Nat) : decodeEnding [] cap = .success := by
  simp [decodeEnding, boundedEnding, Ending.success]

theorem decodeEnding_truncated {b : Byte} (cap : Nat) (h : tagOf b = true) :
    decodeEnding [b] cap = .failure .malformedStream := by
  simp [decodeEnding, boundedEnding, Dec_truncated h, Ending.failure]

theorem decodeEnding_short {b n : Byte} (T : List Byte) (cap : Nat) (h : tagOf b = true) (hn : n.toNat < 2) :
    decodeEnding (b :: n :: T) cap = .failure .malformedStream := by
  simp [decodeEnding, boundedEnding, Dec_short h hn, Ending.failure]

section
variable {tok out : List Byte} (h : Expands tok out)
include h

theorem boundedEnding_append {T ys : List Byte} {cap : Nat} {fits : Ending} (hT : T = [] → ys = [])
    (hc : out.length ≤ cap) :
    boundedEnding (tok ++ T) cap (out ++ ys) (fits.after out tok.length) =
      (boundedEnding T (cap - out.length) ys fits).after out tok.length := by
  unfold boundedEnding
  by_cases hfit : ys.length ≤ cap - out.length
  · rw [if_pos hfit, if_pos (by rw [List.length_append]; omega)]
  · have hne : T ≠ [] := fun h => hfit (by rw [hT h]; exact Nat.zero_le _)
    rw [if_neg hfit, if_neg (by rw [List.length_append]; omega), h.past T cap hne hc, List.take_append,
      List.take_of_length_le hc]
    rfl

theorem boundedEnding_overflow (T ys : List Byte) {cap : Nat} (fits : Ending) (hc : cap < out.length) :
    boundedEnding (tok ++ T) cap (out ++ ys) fits = .overflow (out.take cap) := by
  rw [boundedEnding, if_neg (by rw [List.length_append]; omega), h.inside T cap hc,
    List.take_append_of_le_length (Nat.le_of_lt hc), Ending.overflow]

/-- `decodeEnding` of a stream that starts with a token: a bounded ending of what the token and the rest give. -/
theorem decodeEnding_cases (T : List Byte) :
    ∃ ys fits, (T = [] → ys = []) ∧ (∀ cap, decodeEnding T cap = boundedEnding T cap ys fits) ∧
      ∀ cap, decodeEnding (tok ++ T) cap = boundedEnding (tok ++ T) cap (out ++ ys) (fits.after out tok.length) := by
  have hdec := h.dec T
  cases hT : Dec T with
  | ok ys =>
    rw [hT, DecResult.after] at hdec
    refine ⟨ys, _, ?_, fun cap => decodeEnding_of_ok cap hT, fun cap => ?_⟩
    · rintro rfl
      simpa using hT.symm
    · rw [decodeEnding_of_ok cap hdec]
      simp [Ending.after]
  | err e t =>
    rw [hT, DecResult.after] at hdec
    obtain ⟨ys, hys⟩ := Dec_take_of_err hT
    refine ⟨ys, _, ?_, fun cap => decodeEnding_of_err cap hT hys, fun cap => ?_⟩
    · rintro rfl
      simp at hT
    · rw [decodeEnding_of_err cap hdec (h.dec_take hys)]
      simp [Ending.after]

/-- A token that fits, then the ending of the rest in the capacity that is left (R159). -/
theorem decodeEnding_append (T : List Byte) {cap : Nat} (hc : out.length ≤ cap) :
    decodeEnding (tok ++ T) cap = (decodeEnding T (cap - out.length)).after out tok.length := by
  obtain ⟨ys, fits, hnil, hT, htok⟩ := decodeEnding_cases h T
  rw [htok, hT, boundedEnding_append h hnil hc]

/-- A token that does not fit: DestinationOverflow at it, after as much of it as fits (R154, R159). -/
theorem decodeEnding_overflow (T : List Byte) {cap : Nat} (hc : cap < out.length) :
    decodeEnding (tok ++ T) cap = .overflow (out.take cap) := by
  obtain ⟨ys, fits, -, -, htok⟩ := decodeEnding_cases h T
  rw [htok, boundedEnding_overflow h T ys _ hc]

end

end Sys2Proof.Machine

/-! A command's loop as a whole, the engine alone and on ordinary memory: from the head of its loop it runs to the
ending that `encodeEnding` or `decodeEnding` gives for the rest of the source. Every step of a loop makes one memory
access, so that the reads and the writes of a run are counted with it (R136, R161). -/

namespace Sys2Proof.Machine

/-! ### Runs counted by their accesses -/

/-- From s to t the engine takes nr + nw steps, nr of them reads and nw of them writes. -/
structure Accesses (nr nw : Nat) (s t : State) : Prop where
  runs : Runs (nr + nw) s t
  reads : accessTotal readCount (nr + nw) s = nr
  writes : accessTotal writeCount (nr + nw) s = nw

theorem accesses_zero (s : State) : Accesses 0 0 s s := ⟨runs_zero s, rfl, rfl⟩

theorem Accesses.trans {nr nw nr' nw' : Nat} {s s' t : State} (h : Accesses nr nw s s') (h' : Accesses nr' nw' s' t) :
    Accesses (nr + nr') (nw + nw') s t := by
  have hk : nr + nr' + (nw + nw') = (nr + nw) + (nr' + nw') := by omega
  constructor
  · rw [hk]; exact runs_add h.runs h'.runs
  · rw [hk, accessTotal_add h.runs, h.reads, h'.reads]
  · rw [hk, accessTotal_add h.runs, h.writes, h'.writes]

theorem accesses_read {s t : State} {a : Nat} (h : step s = .next t) (ha : nextAccess s = some (.read a)) :
    Accesses 1 0 s t :=
  ⟨runs_one h, by rw [accessTotal_one h, ha]; rfl, by rw [accessTotal_one h, ha]; rfl⟩

theorem accesses_write {s t : State} {a : Nat} (h : step s = .next t) (ha : nextAccess s = some (.write a)) :
    Accesses 0 1 s t :=
  ⟨runs_one h, by rw [accessTotal_one h, ha]; rfl, by rw [accessTotal_one h, ha]; rfl⟩

/-! ### A command at work -/

/-- A command past its handle check has the machine to itself, and its regions are ordinary memory. -/
structure Working (s : State) : Prop where
  moves : EngineMoves s
  handles : handlesOk s.eng = true
  source : ordinaryRegion s.platform s.eng.sb s.eng.sl
  output : ordinaryRegion s.platform s.eng.outputBase s.eng.outputLen
  mem : s.mem.wf = true

/-- The command's work on memory and on its own cursors and latches keeps it at work. -/
theorem Working.work {s : State} (h : Working s) {m : Memory} (hm : m.wf = true) (p : Point) (r w : Word)
    (lit len k : Byte) :
    Working { s with
      mem := m, eng := { s.eng with pt := p, r := r, w := w, lit := lit, len := len, k := k } } :=
  ⟨⟨h.moves.inputs, h.moves.phase, h.moves.unraced⟩, h.handles, h.source, h.output, hm⟩

theorem Working.goto {s : State} (h : Working s) (p : Point) : Working (s.goto p) := h.work h.mem p _ _ _ _ _

theorem source_inRange {e : Eng} (h : handlesOk e = true) : e.sb.toNat + e.sl.toNat ≤ Config.memBytes := by
  cases hop : e.op with
  | true =>
    rw [handlesOk_decode hop, decodeHandlesOk_iff] at h
    exact h.2.2.1
  | false =>
    rw [handlesOk_encode hop, encodeHandlesOk_iff] at h
    exact h.2

/-- An offset of a region in range, of ordinary memory. -/
theorem addressKind_of_ordinaryRegion {p : Platform} {base len : Word} {i : Nat} (h : ordinaryRegion p base len)
    (hr : base.toNat + len.toNat ≤ Config.memBytes) (hi : i < len.toNat) :
    addressKind p (addressOf base i) = .ordinary :=
  h _ (Nat.lt_of_lt_of_le (Nat.add_lt_add_left hi _) hr) (inRegion_addressOf hi)

section
variable {s t : State} {i : Nat} (h : Working s)
include h

theorem Working.sourceAddress_lt (hi : i < s.eng.sl.toNat) : sourceAddress s i < Config.memBytes :=
  Nat.lt_of_lt_of_le (Nat.add_lt_add_left hi _) (source_inRange h.handles)

/-- A step that reads the source. -/
theorem Working.read_source (hi : i < s.eng.sl.toNat) (ha : nextAccess s = some (.read (sourceAddress s i)))
    (he : engineStep s = engineAccess (sourceAddress s i) s t) : Accesses 1 0 s t :=
  have hk := addressKind_of_ordinaryRegion h.source (source_inRange h.handles) hi
  accesses_read ((step_engine h.moves).trans (he.trans (engineAccess_ordinary t hk))) ha

/-- A step that writes the output. -/
theorem Working.write_output {a : Nat} (hi : i < s.eng.outputLen.toNat) (hadr : addressOf s.eng.outputBase i = a)
    (ha : nextAccess s = some (.write a)) (he : engineStep s = engineAccess a s t) : Accesses 0 1 s t :=
  have hk := hadr ▸ addressKind_of_ordinaryRegion h.output (output_inRange h.handles) hi
  accesses_write ((step_engine h.moves).trans (he.trans (engineAccess_ordinary t hk))) ha

end

/-! ### The rest of the source, and the end of the command -/

/-- The source bytes from the read cursor on. -/
def sourceRest (s : State) : List Byte :=
  s.mem.slice (s.eng.sb.toNat + s.eng.r.toNat) (s.eng.sl.toNat - s.eng.r.toNat)

@[simp] theorem length_sourceRest (s : State) : (sourceRest s).length = s.eng.sl.toNat - s.eng.r.toNat :=
  Memory.length_slice _ _ _

theorem getElem?_sourceRest {s : State} {i : Nat} (h : s.eng.r.toNat + i < s.eng.sl.toNat) :
    (sourceRest s)[i]? = some (s.mem.read (sourceAddress s (s.eng.r.toNat + i))) := by
  rw [sourceRest, Memory.getElem?_slice _ _ _ _ (by omega), sourceAddress, addressOf, Nat.add_assoc]

/-- The command has ended as e says for the rest of the source: the output from the write cursor on, and the offsets
from the cursors on (R185, R186). -/
def State.finish (e : Ending) (s : State) : State :=
  { s with
    status := { busy := false, done := true, err := e.err },
    resultLen := if e.err = none then advance s.eng.w e.resultLen else 0,
    errPos := if e.err = none then 0 else advance s.eng.r e.errPos,
    mem := s.mem.writeAll (addressOf s.eng.outputBase s.eng.w.toNat) e.written,
    eng := Eng.unspecified s.fresh, fresh := s.fresh + engFreeValues }

theorem finish_success (s : State) : s.finish .success = s.complete s.eng.w := by
  simp [State.finish, State.complete, Ending.success, Memory.writeAll, flagsComplete]

theorem finish_failure (s : State) (e : ErrorKind) : s.finish (.failure e) = s.raise e s.eng.r := by
  simp [State.finish, State.raise, Ending.failure, Memory.writeAll, flagsError]

theorem Memory.writeAll_append (m : Memory) (a : Nat) (xs ys : List Byte) :
    m.writeAll a (xs ++ ys) = (m.writeAll a xs).writeAll (a + xs.length) ys := by
  induction xs generalizing m a with
  | nil => rfl
  | cons x xs ih => simp only [List.cons_append, Memory.writeAll, ih, List.length_cons, Nat.add_assoc, Nat.add_comm 1]

/-- The state with the engine at a point and with its latches and counters as given. -/
def State.latch (p : Point) (lit len k : Byte) (s : State) : State :=
  { s with eng := { s.eng with pt := p, lit := lit, len := len, k := k } }

theorem Working.latch {s : State} (h : Working s) (p : Point) (lit len k : Byte) : Working (s.latch p lit len k) :=
  h.work h.mem _ _ _ _ _ _

/-- The state after l source bytes more, which have given the output bytes `out`. -/
def State.pass (out : List Byte) (l : Nat) (s : State) : State :=
  { s with
    mem := s.mem.writeAll (addressOf s.eng.outputBase s.eng.w.toNat) out,
    eng := { s.eng with r := advance s.eng.r l, w := advance s.eng.w out.length } }

section
variable {s : State} {out : List Byte} (l : Nat) (h : s.eng.w.toNat + out.length < 4294967296)
include h

/-- The next output follows on the output so far. -/
theorem address_past_output :
    addressOf s.eng.outputBase (advance s.eng.w out.length).toNat =
      addressOf s.eng.outputBase s.eng.w.toNat + out.length := by
  rw [advance_toNat h, addressOf, addressOf, Nat.add_assoc]

theorem finish_pass (e : Ending) : (s.pass out l).finish e = s.finish (e.after out l) := by
  have ha := address_past_output h
  obtain ⟨err, len, pos, written⟩ := e
  simp only [State.finish, State.pass, Ending.after, Memory.writeAll_append, ← ha, advance_advance, Nat.add_comm l]
  cases err <;> rfl

theorem pass_pass (out' : List Byte) (l' : Nat) :
    (s.pass out l).pass out' l' = s.pass (out ++ out') (l + l') := by
  have ha := address_past_output h
  simp only [State.pass, Memory.writeAll_append, ← ha, advance_advance, List.length_append]
  rfl

end

/-- Past the run, the scan's end has counted its source bytes already. -/
theorem pass_past_run (s : State) (p : Point) (out : List Byte) :
    State.pass out 0 (State.goto p { s with eng := { s.eng with r := advance s.eng.r s.eng.len.toNat } }) =
      State.pass out s.eng.len.toNat (s.goto p) := by
  rw [State.pass, advance_zero]
  rfl

section
variable {s : State} {out : List Byte} {l : Nat} (h : Working s)
  (hout : s.eng.w.toNat + out.length ≤ s.eng.outputLen.toNat)
include h hout

/-- Output that fits its region lies inside the space. -/
theorem output_fits : addressOf s.eng.outputBase s.eng.w.toNat + out.length ≤ Config.memBytes := by
  have hr := output_inRange h.handles
  rw [addressOf]
  omega

theorem Working.pass : Working (s.pass out l) :=
  h.work (Memory.writeAll_wf out h.mem (output_fits h hout)) _ _ _ _ _ _

/-- The output leaves the rest of the source alone, if it lies below that rest or outside the source. -/
theorem sourceRest_pass (hl : s.eng.r.toNat + l ≤ s.eng.sl.toNat)
    (hapart : ∀ i, s.eng.r.toNat + l ≤ i → i < s.eng.sl.toNat →
      ¬ (addressOf s.eng.outputBase s.eng.w.toNat ≤ sourceAddress s i ∧
        sourceAddress s i < addressOf s.eng.outputBase s.eng.w.toNat + out.length)) :
    sourceRest (s.pass out l) = (sourceRest s).drop l := by
  have hr : (advance s.eng.r l).toNat = s.eng.r.toNat + l := advance_toNat (by have := word_lt s.eng.sl; omega)
  rw [sourceRest, sourceRest, Memory.slice_drop]
  simp only [State.pass, hr]
  rw [Nat.sub_add_eq, ← Nat.add_assoc]
  refine Memory.slice_congr fun i hi => ?_
  have haddr : s.eng.sb.toNat + s.eng.r.toNat + l + i = sourceAddress s (s.eng.r.toNat + l + i) := by
    rw [sourceAddress, addressOf]
    omega
  rw [haddr, Memory.read_writeAll out _ h.mem (output_fits h hout), if_neg (hapart _ (by omega) (by omega))]

end

/-! ### ENCODE: the scan -/

/-- How many bytes the scan reads past the first chunk: the one that ends it, if the cap or the end of the source does
not (R131). -/
def readsPast (X : List Byte) : Nat := if chunkLength X < Config.maxRun ∧ chunkLength X < X.length then 1 else 0

theorem readsPast_le (X : List Byte) : readsPast X ≤ min 1 (X.length - chunkLength X) := by
  unfold readsPast
  split <;> omega

section
variable {s : State} (h : Working s) (hr : s.eng.r.toNat + s.eng.len.toNat < s.eng.sl.toNat)
  (hcap : s.eng.len.toNat < Config.maxRun)
include h hr hcap

/-- The scan test goes on to the read of the byte after the run so far (R130, R131). -/
theorem accesses_scanTest_read :
    Accesses 1 0 s.scanTest
      (if s.mem.read (sourceAddress s (s.eng.r.toNat + s.eng.len.toNat)) = s.eng.lit then
        State.scanTest { s with eng := { s.eng with pt := .encPeek, len := s.eng.len + 1 } }
      else s.endScan) := by
  rw [scanTest_more hr hcap]
  exact (h.goto .encPeek).read_source hr (by simp only [nextAccess, State.goto_eng, h.moves.phase]) rfl

theorem accesses_scanTest_same (heq : s.mem.read (sourceAddress s (s.eng.r.toNat + s.eng.len.toNat)) = s.eng.lit) :
    Accesses 1 0 s.scanTest (State.scanTest { s with eng := { s.eng with pt := .encPeek, len := s.eng.len + 1 } }) := by
  simpa only [if_pos heq] using accesses_scanTest_read h hr hcap

theorem accesses_scanTest_other (hne : s.mem.read (sourceAddress s (s.eng.r.toNat + s.eng.len.toNat)) ≠ s.eng.lit) :
    Accesses 1 0 s.scanTest s.endScan := by
  simpa only [if_neg hne] using accesses_scanTest_read h hr hcap

end

theorem endScan_at_chunk {s : State} {L : Nat} (h : s.eng.len.toNat = L) :
    State.endScan { s with eng := { s.eng with len := BitVec.ofNat 8 L } } = s.endScan := by
  have hL : BitVec.ofNat 8 L = s.eng.len := by rw [← h, BitVec.ofNat_toNat, BitVec.setWidth_eq]
  rw [hL]

/-- With d bytes of the chunk not yet counted, the scan reads those d bytes and stands at its end. -/
theorem accesses_scanTest {s : State} {v : Byte} {xs : List Byte} {d : Nat} (h : Working s)
    (hX : sourceRest s = v :: xs) (hlit : s.eng.lit = v) (hd : s.eng.len.toNat + d = chunkLength (v :: xs)) :
    Accesses (d + readsPast (v :: xs)) 0 s.scanTest
      (State.endScan { s with eng := { s.eng with len := BitVec.ofNat 8 (chunkLength (v :: xs)) } }) := by
  have hlen : (v :: xs).length = s.eng.sl.toNat - s.eng.r.toNat := by rw [← hX, length_sourceRest]
  have hbyte (hr : s.eng.r.toNat + s.eng.len.toNat < s.eng.sl.toNat) :
      (v :: xs)[s.eng.len.toNat]? = some (s.mem.read (sourceAddress s (s.eng.r.toNat + s.eng.len.toNat))) :=
    hX ▸ getElem?_sourceRest hr
  have hcap : chunkLength (v :: xs) ≤ Config.maxRun := chunkLength_le_cap _
  have hle := chunkLength_le_length (v :: xs)
  induction d generalizing s with
  | zero =>
    rw [endScan_at_chunk hd]
    by_cases hmore : chunkLength (v :: xs) < Config.maxRun ∧ chunkLength (v :: xs) < (v :: xs).length
    · have hr : s.eng.r.toNat + s.eng.len.toNat < s.eng.sl.toNat := by omega
      rw [readsPast, if_pos hmore]
      exact accesses_scanTest_other h hr (by omega) (hlit ▸ chunkLength_stop hmore.1 (hd ▸ hbyte hr))
    · rw [readsPast, if_neg hmore, scanTest_end (by omega)]
      exact accesses_zero _
  | succ d ih =>
    have hr : s.eng.r.toNat + s.eng.len.toNat < s.eng.sl.toNat := by omega
    have hsame := (hbyte hr).symm.trans (chunkLength_getElem? (by omega))
    have hlen' : (s.eng.len + 1).toNat = s.eng.len.toNat + 1 := byte_succ (by simp [Config.maxRun] at hcap; omega)
    have hrest := ih (s := { s with eng := { s.eng with pt := .encPeek, len := s.eng.len + 1 } })
      (h.work h.mem _ _ _ _ _ _) hX hlit (by rw [hlen']; omega) hlen
      (fun hr' => hX ▸ getElem?_sourceRest hr')
    have hk : d + 1 + readsPast (v :: xs) = 1 + (d + readsPast (v :: xs)) := by omega
    rw [hk]
    exact (accesses_scanTest_same h hr (by omega) (hlit.symm ▸ Option.some.inj hsame)).trans hrest

/-! ### ENCODE: the load, and the token -/

/-- The read of a run's first byte (R130). -/
theorem accesses_encLoad {s : State} (h : Working s) (hr : s.eng.r.toNat < s.eng.sl.toNat) :
    Accesses 1 0 (s.goto .encLoad)
      (if tagOf (s.mem.read (sourceAddress s s.eng.r.toNat)) then s.raise .outOfRangeLiteral s.eng.r
      else State.scanTest (s.latch .encLoad (s.mem.read (sourceAddress s s.eng.r.toNat)) 1 s.eng.k)) :=
  (h.goto .encLoad).read_source hr (by simp only [nextAccess, State.goto_eng, h.moves.phase]) rfl

section
variable {s : State} (hop : s.eng.op = false)
include hop

theorem outputBase_encode (i : Nat) : addressOf s.eng.outputBase i = sourceAddress s i := by
  rw [sourceAddress, Eng.outputBase, hop]
  rfl

theorem outputLen_encode : s.eng.outputLen = s.eng.sl := by
  rw [Eng.outputLen, hop]
  rfl

theorem pass_encode (out : List Byte) (l : Nat) :
    s.pass out l = { s with
      mem := s.mem.writeAll (sourceAddress s s.eng.w.toNat) out,
      eng := { s.eng with r := advance s.eng.r l, w := advance s.eng.w out.length } } := by
  rw [State.pass, outputBase_encode hop]

variable (h : Working s)
include h

/-- The write of a literal token (R132). -/
theorem accesses_encLit (hw : s.eng.w.toNat < s.eng.sl.toNat) :
    Accesses 0 1 (s.goto .encLit) (State.loopTest .encLoad (State.pass [s.eng.lit] 0 (s.goto .encLit))) := by
  rw [pass_encode (s := s.goto .encLit) hop, advance_zero]
  refine (h.goto .encLit).write_output (i := s.eng.w.toNat) ?_ (outputBase_encode (s := s.goto .encLit) hop _) ?_ rfl
  · rwa [outputLen_encode (s := s.goto .encLit) hop]
  · simp only [nextAccess, State.goto_eng, h.moves.phase]

/-- The write of a run header (R132). -/
theorem accesses_encHeader (hw : s.eng.w.toNat < s.eng.sl.toNat) :
    Accesses 0 1 (s.goto .encHeader) { s with
      mem := s.mem.write (sourceAddress s s.eng.w.toNat) (s.eng.lit ||| 0x80#8),
      eng := { s.eng with pt := .encLength } } := by
  refine (h.goto .encHeader).write_output (i := s.eng.w.toNat) ?_ (outputBase_encode (s := s.goto .encHeader) hop _) ?_
    rfl
  · rwa [outputLen_encode (s := s.goto .encHeader) hop]
  · simp only [nextAccess, State.goto_eng, h.moves.phase]

/-- The write of a length byte (R132). -/
theorem accesses_encLength (hpt : s.eng.pt = .encLength) (hw : s.eng.w.toNat + 1 < s.eng.sl.toNat) :
    Accesses 0 1 s (State.loopTest .encLoad { s with
      mem := s.mem.write (sourceAddress s (s.eng.w.toNat + 1)) s.eng.len,
      eng := { s.eng with w := advance s.eng.w 2 } }) := by
  refine h.write_output (i := s.eng.w.toNat + 1) (by rwa [outputLen_encode hop]) (outputBase_encode hop _) ?_ ?_
  · simp only [nextAccess, h.moves.phase, hpt]
  · simp only [engineStep, hpt, stepEncLength]

/-- The token of a run (R132). -/
theorem accesses_encRun (hw : s.eng.w.toNat + 1 < s.eng.sl.toNat) :
    Accesses 0 2 (s.goto .encHeader)
      (State.loopTest .encLoad (State.pass [s.eng.lit ||| 0x80#8, s.eng.len] 0 (s.goto .encLength))) := by
  have hlt := h.sourceAddress_lt (Nat.lt_of_succ_lt hw)
  have hsnd := accesses_encLength
    (s := { s with
      mem := s.mem.write (sourceAddress s s.eng.w.toNat) (s.eng.lit ||| 0x80#8),
      eng := { s.eng with pt := .encLength } })
    hop (h.work (Memory.write_wf _ h.mem hlt) _ _ _ _ _ _) rfl hw
  rw [pass_encode (s := s.goto .encLength) hop, advance_zero]
  exact (accesses_encHeader hop h (Nat.lt_of_succ_lt hw)).trans hsnd

/-- From the end of the scan the token of the run is written (R132). -/
theorem accesses_token (hw : s.eng.w.toNat + (chunkToken s.eng.lit s.eng.len.toNat).length ≤ s.eng.sl.toNat) :
    ∃ p, Accesses 0 (chunkToken s.eng.lit s.eng.len.toNat).length s.endScan
      (State.loopTest .encLoad (State.pass (chunkToken s.eng.lit s.eng.len.toNat) s.eng.len.toNat (s.goto p))) := by
  have hu : Working { s with eng := { s.eng with r := advance s.eng.r s.eng.len.toNat } } :=
    h.work h.mem _ _ _ _ _ _
  by_cases hL : s.eng.len = 1
  · have htok : chunkToken s.eng.lit s.eng.len.toNat = [s.eng.lit] := if_pos (by rw [hL]; rfl)
    rw [htok] at hw ⊢
    refine ⟨.encLit, ?_⟩
    rw [← pass_past_run, endScan_eq_goto, if_pos hL]
    exact accesses_encLit hop hu hw
  · have htok : chunkToken s.eng.lit s.eng.len.toNat = [s.eng.lit ||| 0x80#8, s.eng.len] := by
      rw [chunkToken, if_neg fun h1 : s.eng.len.toNat = 1 => hL (BitVec.eq_of_toNat_eq h1), BitVec.ofNat_toNat,
        BitVec.setWidth_eq]
    rw [htok] at hw ⊢
    refine ⟨.encLength, ?_⟩
    rw [← pass_past_run, endScan_eq_goto, if_neg hL]
    exact accesses_encRun hop hu hw

end

/-! ### ENCODE: a chunk, and the loop -/

theorem chunkToken_length_le {v : Byte} {L : Nat} (h : 1 ≤ L) : (chunkToken v L).length ≤ L := by
  unfold chunkToken
  split <;> simp only [List.length_cons, List.length_nil] <;> omega

/-- Where source is left, the byte at the read cursor is its first (R130, R150). -/
theorem sourceRest_head {s : State} {v : Byte} {xs : List Byte} (hX : sourceRest s = v :: xs) :
    s.eng.r.toNat < s.eng.sl.toNat ∧ s.mem.read (sourceAddress s s.eng.r.toNat) = v := by
  have hlen : (v :: xs).length = s.eng.sl.toNat - s.eng.r.toNat := by rw [← hX, length_sourceRest]
  rw [List.length_cons] at hlen
  have hr : s.eng.r.toNat + 0 < s.eng.sl.toNat := by omega
  have hhead := getElem?_sourceRest hr
  rw [hX] at hhead
  exact ⟨hr, (Option.some.inj hhead).symm⟩

/-- One chunk of literals: its bytes are read, and its token is written (R131, R132). -/
theorem accesses_chunk {s : State} {v : Byte} {xs : List Byte} {L : Nat} (h : Working s) (hop : s.eng.op = false)
    (hX : sourceRest s = v :: xs) (hv : tagOf v = false) (hL : L = chunkLength (v :: xs))
    (hw : s.eng.w.toNat ≤ s.eng.r.toNat) :
    ∃ p, Accesses (L + readsPast (v :: xs)) (chunkToken v L).length (s.goto .encLoad)
      (State.loopTest .encLoad (State.pass (chunkToken v L) L (s.latch p v (BitVec.ofNat 8 L) s.eng.k))) := by
  obtain ⟨hr, hread⟩ := sourceRest_head hX
  have hload := accesses_encLoad h hr
  simp only [hread, hv, Bool.false_eq_true, if_false] at hload
  have h1 : 1 ≤ L := hL ▸ chunkLength_pos v xs
  have hcap : L ≤ 255 := hL ▸ chunkLength_le_cap (v :: xs)
  have hle : L ≤ s.eng.sl.toNat - s.eng.r.toNat := by
    rw [hL, ← length_sourceRest s, hX]
    exact chunkLength_le_length _
  have hscan := accesses_scanTest (s := s.latch .encLoad v 1 s.eng.k) (d := L - 1) (h.latch _ _ _ _) hX rfl
    ((Nat.add_sub_cancel' h1).trans hL)
  have hbyte : (BitVec.ofNat 8 L).toNat = L := Nat.mod_eq_of_lt (by omega : L < 2 ^ 8)
  have hfit := chunkToken_length_le (v := v) h1
  obtain ⟨p, htoken⟩ := accesses_token (s := s.latch .encLoad v (BitVec.ofNat 8 L) s.eng.k) hop (h.latch _ _ _ _)
    (by simp only [State.latch, hbyte]; omega)
  simp only [State.latch, hbyte] at htoken
  refine ⟨p, ?_⟩
  have hk : L + readsPast (v :: xs) = 1 + (L - 1 + readsPast (v :: xs)) + 0 := by omega
  rw [hk, ← Nat.zero_add (chunkToken v L).length]
  rw [← hL] at hscan
  exact (hload.trans hscan).trans htoken

/-- After a chunk the loop goes on as before, on the source past the chunk. -/
theorem pass_chunk {s : State} {out : List Byte} {l : Nat} (h : Working s) (hop : s.eng.op = false)
    (hw : s.eng.w.toNat ≤ s.eng.r.toNat) (hl : s.eng.r.toNat + l ≤ s.eng.sl.toNat) (hout : out.length ≤ l) :
    Working (s.pass out l) ∧ sourceRest (s.pass out l) = (sourceRest s).drop l ∧
      (s.pass out l).eng.w.toNat ≤ (s.pass out l).eng.r.toNat := by
  have hfit : s.eng.w.toNat + out.length ≤ s.eng.outputLen.toNat := by
    rw [outputLen_encode hop]
    omega
  have hlt := word_lt s.eng.sl
  have hr : (advance s.eng.r l).toNat = s.eng.r.toNat + l := advance_toNat (by omega)
  have hw' : (advance s.eng.w out.length).toNat = s.eng.w.toNat + out.length := advance_toNat (by omega)
  refine ⟨h.pass hfit, sourceRest_pass h hfit hl fun i hi _ hin => ?_, ?_⟩
  · rw [outputBase_encode hop, sourceAddress, sourceAddress, addressOf, addressOf] at hin
    omega
  · simp only [State.pass, hr, hw']
    omega

/-- From the head of its loop at s an ENCODE ends as `encodeEnding` says of the rest of the source (R133, R135). It
writes each output byte once, and of N source bytes it makes at most 2N - 1 reads, at least N if it succeeds (R136). -/
def EncoderRuns (s : State) : Prop :=
  ∃ nr, Accesses nr (encodeEnding (sourceRest s)).written.length (s.loopTest .encLoad)
      (s.finish (encodeEnding (sourceRest s))) ∧
    nr ≤ 2 * (sourceRest s).length - 1 ∧ ((encodeEnding (sourceRest s)).err = none → (sourceRest s).length ≤ nr)

/-- With no source left the loop test completes. -/
theorem loopTest_of_sourceRest_nil {s : State} (p : Point) (hX : sourceRest s = []) :
    s.loopTest p = s.finish .success := by
  have hlen := length_sourceRest s
  rw [hX, List.length_nil] at hlen
  rw [loopTest_done p (Nat.sub_eq_zero_iff_le.1 hlen.symm), finish_success]

theorem encoderRuns_nil {s : State} (hX : sourceRest s = []) : EncoderRuns s := by
  rw [EncoderRuns, hX, encodeEnding_nil, loopTest_of_sourceRest_nil .encLoad hX]
  exact ⟨0, accesses_zero _, Nat.le_refl 0, fun _ => Nat.le_refl 0⟩

section
variable {s : State} {v : Byte} {xs : List Byte} (h : Working s) (hX : sourceRest s = v :: xs)
include h hX

theorem encoderRuns_outOfRange (hv : tagOf v = true) : EncoderRuns s := by
  obtain ⟨hr, hread⟩ := sourceRest_head hX
  have hload := accesses_encLoad h hr
  rw [hread, hv, if_pos rfl] at hload
  rw [EncoderRuns, hX, encodeEnding_outOfRange xs hv, finish_failure, loopTest_more _ hr]
  refine ⟨1, hload, ?_, fun he => by cases he⟩
  simp only [List.length_cons]
  omega

/-- A chunk of literals, and then the loop from past it. -/
theorem encoderRuns_chunk (hop : s.eng.op = false) (hw : s.eng.w.toNat ≤ s.eng.r.toNat) (hv : tagOf v = false)
    (ih : ∀ t, Working t → t.eng.op = false → t.eng.w.toNat ≤ t.eng.r.toNat →
      (sourceRest t).length < (sourceRest s).length → EncoderRuns t) : EncoderRuns s := by
  obtain ⟨hr, -⟩ := sourceRest_head hX
  generalize hL : chunkLength (v :: xs) = L
  obtain ⟨p, hchunk⟩ := accesses_chunk h hop hX hv hL.symm hw
  have h1 : 1 ≤ L := hL ▸ chunkLength_pos v xs
  have hle : L ≤ (v :: xs).length := hL ▸ chunkLength_le_length _
  have hlen : (v :: xs).length = s.eng.sl.toNat - s.eng.r.toNat := by rw [← hX, length_sourceRest]
  have htok := chunkToken_length_le (v := v) h1
  have hpast := readsPast_le (v :: xs)
  rw [hL] at hpast
  have hfin (e : Ending) :
      State.finish e (State.pass (chunkToken v L) L (s.latch p v (BitVec.ofNat 8 L) s.eng.k)) =
        s.finish (e.after (chunkToken v L) L) :=
    finish_pass L (by have := word_lt s.eng.sl; show s.eng.w.toNat + _ < _; omega) e
  obtain ⟨hwork, hrest, hw'⟩ := pass_chunk (h.latch p v (BitVec.ofNat 8 L) s.eng.k) hop hw
    (show s.eng.r.toNat + L ≤ s.eng.sl.toNat by omega) htok
  replace hrest := hrest.trans (congrArg (List.drop L) hX)
  obtain ⟨nr, hloop, hmax, hmin⟩ := ih _ hwork hop hw' (by rw [hrest, hX, List.length_drop]; omega)
  rw [hfin, hrest] at hloop
  rw [hrest, List.length_drop] at hmax hmin
  rw [EncoderRuns, hX, encodeEnding_cons xs hv, hL, loopTest_more _ hr]
  refine ⟨L + readsPast (v :: xs) + nr, ?_, by omega, fun he => ?_⟩
  · rw [Ending.after, List.length_append]
    exact hchunk.trans hloop
  · have := hmin he
    omega

end

theorem encoder_runs {s : State} (h : Working s) (hop : s.eng.op = false) (hw : s.eng.w.toNat ≤ s.eng.r.toNat) :
    EncoderRuns s := by
  induction hn : (sourceRest s).length using Nat.strongRecOn generalizing s with
  | _ n ih =>
    cases hX : sourceRest s with
    | nil => exact encoderRuns_nil hX
    | cons v xs =>
      cases hv : tagOf v with
      | true => exact encoderRuns_outOfRange h hX hv
      | false => exact encoderRuns_chunk h hX hop hw hv fun t ht hop' hw' hlt => ih _ (hn ▸ hlt) ht hop' hw' rfl

/-! ### DECODE: the reads of a token -/

section
variable {s : State} (h : Working s) {b : Byte} {T : List Byte} (hX : sourceRest s = b :: T)
include h hX

/-- The read of a token's first byte (R150). -/
theorem accesses_decFetch {t : State}
    (he : engineStep (s.goto .decFetch) = engineAccess (sourceAddress s s.eng.r.toNat) (s.goto .decFetch) t) :
    Accesses 1 0 (s.goto .decFetch) t :=
  (h.goto .decFetch).read_source (sourceRest_head hX).1
    (by simp only [nextAccess, State.goto_eng, h.moves.phase]; rfl) he

/-- The read of a LIT's byte, and the capacity check (R152, R154). -/
theorem accesses_fetchLit (hb : tagOf b = false) :
    Accesses 1 0 (s.goto .decFetch) (State.checkCapacity .decLit (s.latch .decFetch b s.eng.len s.eng.k)) := by
  have hread : (s.goto .decFetch).mem.read (tokenAddress (s.goto .decFetch) 0) = b := (sourceRest_head hX).2
  refine accesses_decFetch h hX ?_
  rw [engineStep_decFetch_lit (s := s.goto .decFetch) h.moves.phase rfl (hread.symm ▸ hb), hread]
  rfl

/-- The read of a run header (R153, R155). -/
theorem accesses_fetchHeader (hb : tagOf b = true) :
    Accesses 1 0 (s.goto .decFetch)
      (if s.eng.r.toNat + 1 < s.eng.sl.toNat then s.latch .decLength b s.eng.len s.eng.k
      else s.raise .malformedStream s.eng.r) := by
  have hread : (s.goto .decFetch).mem.read (tokenAddress (s.goto .decFetch) 0) = b := (sourceRest_head hX).2
  refine accesses_decFetch h hX ?_
  rw [engineStep_decFetch_header (s := s.goto .decFetch) h.moves.phase rfl (hread.symm ▸ hb), hread]
  rfl

end

/-- The read of a length byte (R153, R156). -/
theorem accesses_fetchLength {s : State} {n : Byte} (h : Working s) (hpt : s.eng.pt = .decLength)
    (hb : tagOf s.eng.lit = true) (hr : s.eng.r.toNat + 1 < s.eng.sl.toNat)
    (hread : s.mem.read (sourceAddress s (s.eng.r.toNat + 1)) = n) :
    Accesses 1 0 s
      (if n.toNat < Config.minRunToken then s.raise .malformedStream s.eng.r
      else State.checkCapacity .decRun (s.latch .decLength s.eng.lit n 0)) := by
  refine h.read_source hr ?_ ?_
  · simp only [nextAccess, h.moves.phase, hpt]
    rfl
  · subst hread
    rw [engineStep_decLength h.moves.phase hpt hb, fetchLength, ← hpt]
    rfl

/-! ### DECODE: the writes of a token -/

/-- The state after one more write of a RUN (R153). -/
def State.copied (s : State) : State :=
  State.pass [s.eng.lit &&& 0x7F#8] 0 (s.latch .decRun s.eng.lit s.eng.len (s.eng.k + 1))

section
variable {s : State} (hop : s.eng.op = true)
include hop

theorem outputBase_decode (i : Nat) : addressOf s.eng.outputBase i = addressOf s.eng.db i := by
  rw [Eng.outputBase, hop]
  rfl

theorem outputLen_decode : s.eng.outputLen = s.eng.dc := by
  rw [Eng.outputLen, hop]
  rfl

theorem pass_decode (out : List Byte) (l : Nat) :
    s.pass out l = { s with
      mem := s.mem.writeAll (writeAddress s) out,
      eng := { s.eng with r := advance s.eng.r l, w := advance s.eng.w out.length } } := by
  rw [State.pass, outputBase_decode hop, writeAddress]

variable (h : Working s) (hw : s.eng.w.toNat < s.eng.dc.toNat)
include h hw

/-- The write of a LIT (R152). -/
theorem accesses_writeLit (hpt : s.eng.pt = .decLit) (hb : tagOf s.eng.lit = false) :
    Accesses 0 1 s (State.loopTest .decFetch (s.pass [s.eng.lit] 1)) := by
  rw [pass_decode hop]
  refine h.write_output (i := s.eng.w.toNat) (by rwa [outputLen_decode hop]) (outputBase_decode hop _) ?_ ?_
  · simp only [nextAccess, h.moves.phase, hpt]
    rfl
  · rw [engineStep_decLit h.moves.phase hpt hb, writeLit]
    rfl

/-- With room for it, one write of a RUN (R153, R154). -/
theorem accesses_writeCopy (hb : tagOf s.eng.lit = true) :
    Accesses 0 1 (s.checkCapacity .decRun)
      (if s.eng.k.toNat + 1 < s.eng.len.toNat then s.copied.checkCapacity .decRun
      else State.loopTest .decFetch
        (State.pass [s.eng.lit &&& 0x7F#8] 2 (s.latch .decRun s.eng.lit s.eng.len (s.eng.k + 1)))) := by
  rw [checkCapacity_room _ hw, State.copied, pass_decode (s := s.latch .decRun s.eng.lit s.eng.len (s.eng.k + 1)) hop,
    pass_decode (s := s.latch .decRun s.eng.lit s.eng.len (s.eng.k + 1)) hop, advance_zero]
  refine (h.goto .decRun).write_output (i := s.eng.w.toNat) ?_ (outputBase_decode (s := s.goto .decRun) hop _) ?_ ?_
  · rwa [outputLen_decode (s := s.goto .decRun) hop]
  · simp only [nextAccess, State.goto_eng, h.moves.phase]
    rfl
  · rw [engineStep_decRun (s := s.goto .decRun) h.moves.phase rfl hb]
    rfl

theorem Working.copied : Working s.copied :=
  (h.latch _ _ _ _).pass (by
    rw [outputLen_decode (s := s.latch .decRun s.eng.lit s.eng.len (s.eng.k + 1)) hop]
    exact hw)

omit hop h in
theorem copied_w : s.copied.eng.w.toNat = s.eng.w.toNat + 1 :=
  advance_toNat (Nat.lt_of_le_of_lt hw (word_lt s.eng.dc))

variable (hb : tagOf s.eng.lit = true)
include hb

theorem accesses_copy (hk : s.eng.k.toNat + 1 < s.eng.len.toNat) :
    Accesses 0 1 (s.checkCapacity .decRun) (s.copied.checkCapacity .decRun) := by
  simpa only [if_pos hk] using accesses_writeCopy hop h hw hb

theorem accesses_lastCopy (hk : s.eng.len.toNat ≤ s.eng.k.toNat + 1) :
    Accesses 0 1 (s.checkCapacity .decRun)
      (State.loopTest .decFetch
        (State.pass [s.eng.lit &&& 0x7F#8] 2 (s.latch .decRun s.eng.lit s.eng.len (s.eng.k + 1)))) := by
  simpa only [if_neg (Nat.not_lt.2 hk)] using accesses_writeCopy hop h hw hb

end

/-! ### DECODE: the copies of a RUN -/

/-- The copies after one copy are one more copy. -/
theorem copied_pass {s : State} {m l : Nat} (k : Byte) (hw : s.eng.w.toNat < s.eng.dc.toNat) :
    State.pass (List.replicate m (s.eng.lit &&& 0x7F#8)) l (s.copied.latch .decRun s.eng.lit s.eng.len k) =
      State.pass (List.replicate (m + 1) (s.eng.lit &&& 0x7F#8)) l (s.latch .decRun s.eng.lit s.eng.len k) := by
  have hfit : s.eng.w.toNat + 1 < 4294967296 := Nat.lt_of_le_of_lt hw (word_lt s.eng.dc)
  have := pass_pass (s := s.latch .decRun s.eng.lit s.eng.len k) (out := [s.eng.lit &&& 0x7F#8]) 0 hfit
    (List.replicate m (s.eng.lit &&& 0x7F#8)) l
  rw [Nat.zero_add] at this
  exact this

theorem copied_k {s : State} (hk : s.eng.k.toNat < s.eng.len.toNat) : s.copied.eng.k.toNat = s.eng.k.toNat + 1 :=
  byte_succ (Nat.lt_of_lt_of_le hk (Nat.le_of_lt_succ s.eng.len.isLt))

/-- With d + 1 copies of the RUN to write and room for them, they are written and the token ends. -/
theorem accesses_copies {s : State} {d : Nat} (hop : s.eng.op = true) (h : Working s) (hb : tagOf s.eng.lit = true)
    (hk : s.eng.k.toNat + (d + 1) = s.eng.len.toNat) (hroom : s.eng.w.toNat + (d + 1) ≤ s.eng.dc.toNat) :
    Accesses 0 (d + 1) (s.checkCapacity .decRun)
      (State.loopTest .decFetch (State.pass (List.replicate (d + 1) (s.eng.lit &&& 0x7F#8)) 2
        (s.latch .decRun s.eng.lit s.eng.len s.eng.len))) := by
  have hw : s.eng.w.toNat < s.eng.dc.toNat := by omega
  have hk' := copied_k (s := s) (by omega)
  induction d generalizing s with
  | zero =>
    have hlast : s.eng.k + 1 = s.eng.len := BitVec.eq_of_toNat_eq (hk'.trans hk)
    have hwrite := accesses_lastCopy hop h hw hb (by omega)
    rwa [hlast] at hwrite
  | succ d ih =>
    have hwrite := accesses_copy hop h hw hb (by omega)
    have hw' := copied_w hw
    have hrest := ih (s := s.copied) hop (h.copied hop hw) hb (hk'.symm ▸ (by omega : _ = s.eng.len.toNat))
      (hw'.symm ▸ (by omega : _ ≤ s.eng.dc.toNat)) (hw'.symm ▸ (by omega : _ < s.eng.dc.toNat))
      (copied_k (s := s.copied) (hk'.symm ▸ (by omega : _ < s.eng.len.toNat)))
    have hlatches : s.copied.eng.lit = s.eng.lit ∧ s.copied.eng.len = s.eng.len := ⟨rfl, rfl⟩
    rw [hlatches.1, hlatches.2, copied_pass _ hw] at hrest
    have hrun := hwrite.trans hrest
    rwa [Nat.add_comm 1 (d + 1)] at hrun

/-- An overflow after one copy is an overflow with one copy more written. -/
theorem copied_finish {s : State} (out : List Byte) (hw : s.eng.w.toNat < s.eng.dc.toNat) :
    s.copied.finish (.overflow out) = s.finish (.overflow ((s.eng.lit &&& 0x7F#8) :: out)) :=
  finish_pass (s := s.latch .decRun s.eng.lit s.eng.len (s.eng.k + 1)) (out := [s.eng.lit &&& 0x7F#8]) 0
    (Nat.lt_of_le_of_lt hw (word_lt s.eng.dc)) (.overflow out)

/-- At a full destination the capacity check is an overflow with nothing more written (R154). -/
theorem checkCapacity_overflow {s : State} (p : Point) (h : s.eng.dc.toNat ≤ s.eng.w.toNat) :
    s.checkCapacity p = s.finish (.overflow []) :=
  (checkCapacity_full p h).trans (finish_failure s .destinationOverflow).symm

/-- With more copies of the RUN to write than there is room for, those that fit are written (R154). -/
theorem accesses_copies_overflow {s : State} {d : Nat} (hop : s.eng.op = true) (h : Working s)
    (hb : tagOf s.eng.lit = true) (hk : s.eng.k.toNat + (d + 1) = s.eng.len.toNat)
    (hw : s.eng.w.toNat ≤ s.eng.dc.toNat) (hroom : s.eng.dc.toNat < s.eng.w.toNat + (d + 1)) :
    Accesses 0 (s.eng.dc.toNat - s.eng.w.toNat) (s.checkCapacity .decRun)
      (s.finish (.overflow
        ((List.replicate (d + 1) (s.eng.lit &&& 0x7F#8)).take (s.eng.dc.toNat - s.eng.w.toNat)))) := by
  induction d generalizing s with
  | zero =>
    have hfull : s.eng.dc.toNat ≤ s.eng.w.toNat := by omega
    rw [checkCapacity_overflow _ hfull, Nat.sub_eq_zero_of_le hfull]
    exact accesses_zero _
  | succ d ih =>
    rcases Nat.lt_or_ge s.eng.w.toNat s.eng.dc.toNat with hlt | hfull
    · have hwrite := accesses_copy hop h hlt hb (by omega)
      have hw' := copied_w hlt
      have hk' := copied_k (s := s) (by omega)
      have hrest := ih (s := s.copied) hop (h.copied hop hlt) hb (hk'.symm ▸ (by omega : _ = s.eng.len.toNat))
        (hw'.symm ▸ (by omega : _ ≤ s.eng.dc.toNat)) (hw'.symm ▸ (by omega : s.eng.dc.toNat < _))
      obtain ⟨m, hm⟩ : ∃ m, s.eng.dc.toNat - s.eng.w.toNat = m + 1 := Nat.exists_eq_add_one.2 (by omega)
      have hm' : s.copied.eng.dc.toNat - s.copied.eng.w.toNat = m := by
        rw [hw']
        show s.eng.dc.toNat - (s.eng.w.toNat + 1) = m
        omega
      rw [hm', copied_finish _ hlt] at hrest
      have hrun := hwrite.trans hrest
      rw [Nat.add_comm 1 m] at hrun
      rw [hm]
      exact hrun
    · rw [checkCapacity_overflow _ hfull, Nat.sub_eq_zero_of_le hfull]
      exact accesses_zero _

/-! ### DECODE: a token, and the loop -/

/-- After a token the loop goes on as before, on the stream past the token. -/
theorem pass_token {s : State} {out : List Byte} {l : Nat} (h : Working s) (hop : s.eng.op = true)
    (hl : s.eng.r.toNat + l ≤ s.eng.sl.toNat) (hout : s.eng.w.toNat + out.length ≤ s.eng.dc.toNat) :
    Working (s.pass out l) ∧ sourceRest (s.pass out l) = (sourceRest s).drop l ∧
      (s.pass out l).eng.w.toNat = s.eng.w.toNat + out.length := by
  have hfit : s.eng.w.toNat + out.length ≤ s.eng.outputLen.toNat := by rwa [outputLen_decode hop]
  have hhandles := h.handles
  rw [handlesOk_decode hop] at hhandles
  refine ⟨h.pass hfit, sourceRest_pass h hfit hl fun i _ hi hin => ?_,
    advance_toNat (Nat.lt_of_le_of_lt hout (word_lt s.eng.dc))⟩
  refine decodeHandles_disjoint hhandles (sourceAddress s i) ⟨inRegion_addressOf hi, ?_⟩
  rw [outputBase_decode hop, addressOf] at hin
  rw [inRegion_iff]
  omega

/-- How a DECODE from the head of its loop at s ends: by the rest of the stream and the capacity that is left (R159). -/
def decodeRest (s : State) : Ending := decodeEnding (sourceRest s) (s.eng.dc.toNat - s.eng.w.toNat)

/-- From the head of its loop at s a DECODE ends as `decodeRest` says. It writes each output byte once, and reads each
stream byte at most once, all of them if it succeeds (R161). -/
def DecoderRuns (s : State) : Prop :=
  ∃ nr, Accesses nr (decodeRest s).written.length (s.loopTest .decFetch) (s.finish (decodeRest s)) ∧
    nr ≤ (sourceRest s).length ∧ ((decodeRest s).err = none → nr = (sourceRest s).length)

/-- Every DECODE at work that has the stream T before it runs so. -/
def DecoderRunsFrom (T : List Byte) : Prop :=
  ∀ t, Working t → t.eng.op = true → t.eng.w.toNat ≤ t.eng.dc.toNat → sourceRest t = T → DecoderRuns t

theorem decoderRuns_nil {s : State} (hX : sourceRest s = []) : DecoderRuns s := by
  rw [DecoderRuns, decodeRest, hX, decodeEnding_nil, loopTest_of_sourceRest_nil .decFetch hX]
  exact ⟨0, accesses_zero _, Nat.le_refl 0, fun _ => rfl⟩

/-- The token at the head of the loop ends the command with an error. -/
theorem decoderRuns_of_error {s : State} {X : List Byte} {e : Ending} {nr : Nat} (hX : sourceRest s = X)
    (he : decodeEnding X (s.eng.dc.toNat - s.eng.w.toNat) = e) (herr : e.err ≠ none) (hnr : nr ≤ X.length)
    (hrun : Accesses nr e.written.length (s.loopTest .decFetch) (s.finish e)) : DecoderRuns s := by
  rw [DecoderRuns, decodeRest, hX, he]
  exact ⟨nr, hrun, hnr, fun hn => absurd hn herr⟩

/-- A token that fits, and then the loop from past it. -/
theorem decoderRuns_token {s : State} {tok out T : List Byte} {p : Point} {lit len k : Byte} (h : Working s)
    (hop : s.eng.op = true) (hx : Expands tok out) (hX : sourceRest s = tok ++ T)
    (hr : s.eng.r.toNat < s.eng.sl.toNat) (hout : s.eng.w.toNat + out.length ≤ s.eng.dc.toNat)
    (htok : Accesses tok.length out.length (s.loopTest .decFetch)
      (State.loopTest .decFetch (State.pass out tok.length (s.latch p lit len k))))
    (hrest : DecoderRunsFrom T) : DecoderRuns s := by
  have hlen : (tok ++ T).length = s.eng.sl.toNat - s.eng.r.toNat := by rw [← hX, length_sourceRest]
  rw [List.length_append] at hlen
  obtain ⟨hwork, hnext, hw'⟩ := pass_token (l := tok.length) (h.latch p lit len k) hop
    (show s.eng.r.toNat + tok.length ≤ s.eng.sl.toNat by omega) hout
  replace hnext := (hnext.trans (congrArg (List.drop tok.length) hX)).trans List.drop_left
  have hcap : (State.pass out tok.length (s.latch p lit len k)).eng.dc.toNat -
      (State.pass out tok.length (s.latch p lit len k)).eng.w.toNat = s.eng.dc.toNat - s.eng.w.toNat - out.length := by
    rw [hw', Nat.sub_add_eq]
    rfl
  have hfin (e : Ending) : State.finish e (State.pass out tok.length (s.latch p lit len k)) =
      s.finish (e.after out tok.length) :=
    finish_pass tok.length (Nat.lt_of_le_of_lt hout (word_lt s.eng.dc)) e
  obtain ⟨nr, hloop, hmax, hall⟩ := hrest _ hwork hop (hw'.trans_le hout) hnext
  rw [hfin, decodeRest, hnext, hcap] at hloop
  rw [hnext] at hmax
  rw [decodeRest, hnext, hcap] at hall
  rw [DecoderRuns, decodeRest, hX, decodeEnding_append hx T (by omega : out.length ≤ s.eng.dc.toNat - s.eng.w.toNat),
    List.length_append]
  refine ⟨tok.length + nr, ?_, by omega, fun he => by rw [hall he]⟩
  rw [Ending.after, List.length_append]
  exact htok.trans hloop

section
variable {s : State} {b : Byte} {T : List Byte} (h : Working s)
include h

/-- A RUN header that is the stream's last byte (R155). -/
theorem decoderRuns_truncated (hX : sourceRest s = [b]) (hb : tagOf b = true) : DecoderRuns s := by
  have hlen := length_sourceRest s
  rw [hX, List.length_singleton] at hlen
  have hfetch := accesses_fetchHeader h hX hb
  rw [← loopTest_more .decFetch (sourceRest_head hX).1, if_neg (by omega), ← finish_failure] at hfetch
  exact decoderRuns_of_error hX (decodeEnding_truncated _ hb) (by simp [Ending.failure]) (Nat.le_refl 1) hfetch

/-- The read of a RUN's two bytes (R153, R156). -/
theorem accesses_fetchRun {n : Byte} (hX : sourceRest s = b :: n :: T) (hb : tagOf b = true) :
    Accesses 2 0 (s.loopTest .decFetch)
      (if n.toNat < Config.minRunToken then s.raise .malformedStream s.eng.r
      else State.checkCapacity .decRun (s.latch .decLength b n 0)) := by
  have hlen := length_sourceRest s
  rw [hX, List.length_cons, List.length_cons] at hlen
  have hr : s.eng.r.toNat + 1 < s.eng.sl.toNat := by omega
  have hread := getElem?_sourceRest hr
  rw [hX] at hread
  have hfetch := accesses_fetchHeader h hX hb
  rw [← loopTest_more .decFetch (sourceRest_head hX).1, if_pos hr] at hfetch
  exact hfetch.trans (accesses_fetchLength (s := s.latch .decLength b s.eng.len s.eng.k) (h.latch _ _ _ _) rfl hb hr
    (Option.some.inj hread).symm)

variable (hop : s.eng.op = true) (hrest : DecoderRunsFrom T)
include hop hrest

/-- A LIT at the head of the loop (R152, R154). -/
theorem decoderRuns_lit (hX : sourceRest s = b :: T) (hb : tagOf b = false) : DecoderRuns s := by
  have hfetch := accesses_fetchLit h hX hb
  rw [← loopTest_more .decFetch (sourceRest_head hX).1] at hfetch
  rcases Nat.lt_or_ge s.eng.w.toNat s.eng.dc.toNat with hlt | hfull
  · have hwrite := accesses_writeLit (s := s.latch .decLit b s.eng.len s.eng.k) hop (h.latch _ _ _ _) hlt rfl hb
    rw [checkCapacity_room (s := s.latch .decFetch b s.eng.len s.eng.k) _ hlt] at hfetch
    exact decoderRuns_token (tok := [b]) h hop (expands_lit hb) hX (sourceRest_head hX).1 hlt
      (hfetch.trans hwrite) hrest
  · rw [checkCapacity_overflow (s := s.latch .decFetch b s.eng.len s.eng.k) _ hfull] at hfetch
    have he : decodeEnding (b :: T) (s.eng.dc.toNat - s.eng.w.toNat) = .overflow [] := by
      rw [Nat.sub_eq_zero_of_le hfull]
      exact decodeEnding_overflow (expands_lit hb) T Nat.one_pos
    exact decoderRuns_of_error hX he (by simp [Ending.overflow]) (by simp) hfetch

/-- A RUN at the head of the loop (R153, R154, R156). -/
theorem decoderRuns_run {n : Byte} (hX : sourceRest s = b :: n :: T) (hb : tagOf b = true)
    (hw : s.eng.w.toNat ≤ s.eng.dc.toNat) : DecoderRuns s := by
  have hfetch := accesses_fetchRun h hX hb
  rcases Nat.lt_or_ge n.toNat Config.minRunToken with hn | hn
  · rw [if_pos hn, ← finish_failure] at hfetch
    exact decoderRuns_of_error hX (decodeEnding_short T _ hb hn) (by simp [Ending.failure]) (by simp) hfetch
  · rw [if_neg (Nat.not_lt.2 hn)] at hfetch
    have hx := expands_run hb hn
    obtain ⟨d, hd⟩ : ∃ d, n.toNat = d + 1 := Nat.exists_eq_add_one.2 (Nat.lt_of_lt_of_le (by decide) hn)
    have hk : (s.latch .decLength b n 0).eng.k.toNat + (d + 1) = n.toNat := (Nat.zero_add _).trans hd.symm
    rw [hd] at hx
    rcases Nat.lt_or_ge s.eng.dc.toNat (s.eng.w.toNat + (d + 1)) with hover | hroom
    · have hcopies := accesses_copies_overflow (s := s.latch .decLength b n 0) hop (h.latch _ _ _ _) hb hk hw hover
      have he := decodeEnding_overflow hx T (cap := s.eng.dc.toNat - s.eng.w.toNat)
        (by rw [List.length_replicate]; omega)
      refine decoderRuns_of_error hX he (by simp [Ending.overflow]) (nr := 2) (by simp) ?_
      rw [Ending.overflow, List.length_take, List.length_replicate, Nat.min_eq_left (by omega)]
      have hrun := hfetch.trans hcopies
      rwa [Nat.zero_add] at hrun
    · have hcopies := accesses_copies (s := s.latch .decLength b n 0) hop (h.latch _ _ _ _) hb hk hroom
      have hrun := hfetch.trans hcopies
      rw [Nat.zero_add] at hrun
      refine decoderRuns_token (tok := [b, n]) (p := .decRun) (lit := b) (len := n) (k := n) h hop hx hX
        (sourceRest_head hX).1 (by rwa [List.length_replicate]) ?_ hrest
      rw [List.length_replicate]
      exact hrun

end

theorem decoder_runs {s : State} (h : Working s) (hop : s.eng.op = true) (hw : s.eng.w.toNat ≤ s.eng.dc.toNat) :
    DecoderRuns s := by
  induction hn : (sourceRest s).length using Nat.strongRecOn generalizing s with
  | _ n ih =>
    subst hn
    cases hX : sourceRest s with
    | nil => exact decoderRuns_nil hX
    | cons b T =>
      rw [hX] at ih
      cases hb : tagOf b with
      | false =>
        refine decoderRuns_lit h hop (fun t ht hop' hw' hT => ih T.length (Nat.lt_succ_self _) ht hop' hw' ?_) hX hb
        rw [hT]
      | true =>
        cases T with
        | nil => exact decoderRuns_truncated h hX hb
        | cons n T =>
          refine decoderRuns_run h hop (fun t ht hop' hw' hT => ih T.length (by simp) ht hop' hw' ?_) hX hb hw
          rw [hT]

end Sys2Proof.Machine

/-! The pseudo-instructions (R95): a started command runs to its end, and POLL, which takes turns with the engine, runs
it to the same end and sees it (R94). -/

namespace Sys2Proof.Machine

/-! ### From START to the end -/

theorem finish_outside (s : State) (r : Eng) (e : Ending) : SameOutside s (State.finish e { s with eng := r }) :=
  ⟨rfl, rfl, rfl, rfl, rfl, rfl, rfl, rfl, rfl⟩

/-- A command that ends from both cursors 0 has ended as its ending says (R185, R186). -/
theorem endedAs_finish {s : State} {e : Ending} (he : e.Agrees) (hr : s.eng.r = 0) (hw : s.eng.w = 0)
    (hm : s.mem.wf = true) (hfit : s.eng.outputBase.toNat + e.written.length ≤ Config.memBytes) :
    endedAs e s.mem s.eng.outputBase (s.finish e) := by
  have hadr : addressOf s.eng.outputBase s.eng.w.toNat = s.eng.outputBase.toNat := by rw [hw]; rfl
  refine ⟨rfl, rfl, ?_, ?_, ?_, ?_⟩
  · by_cases hn : e.err = none
    · simp [State.finish, hn, hw, advance]
    · simp [State.finish, hn, he.err_len hn]
  · by_cases hn : e.err = none
    · simp [State.finish, hn, he.noErr_pos hn]
    · simp [State.finish, hn, hr, advance]
  · intro i hi
    simp only [State.finish, hadr]
    rw [Memory.read_writeAll _ _ hm hfit, if_pos (by omega), Nat.add_sub_cancel_left]
  · intro a ha
    simp only [State.finish, hadr]
    rw [Memory.read_writeAll _ _ hm hfit, if_neg ha]

/-- The handle check of a command with valid handles enters its loop (R120). -/
theorem step_enterLoop {s : State} (h : EngineMoves s) (hpt : s.eng.pt = .handleCheck) (hk : handlesOk s.eng = true) :
    step s = .next s.enterLoop := by
  rw [step_engine h, engineStep, hpt]
  simp only [stepHandleCheck, hk, if_true]

/-- No command writes more than its output region holds. -/
theorem endingOn_written_le (e : Eng) (m : Memory) :
    (e.endingOn (regionBytes m e.sb e.sl)).written.length ≤ e.outputLen.toNat := by
  unfold Eng.endingOn Eng.outputLen
  split
  · exact decodeEnding_written_le _ _
  · simpa [regionBytes] using encodeEnding_written_le (regionBytes m e.sb e.sl)

/-- From both cursors 0 a command's loop runs to the ending of its source. -/
theorem loop_ends {s : State} (h : Working s) (hr : s.eng.r = 0) (hw : s.eng.w = 0) :
    ∃ k, Runs k (s.loopTest (loopHead s.eng.op))
      (s.finish (s.eng.endingOn (regionBytes s.mem s.eng.sb s.eng.sl))) := by
  have hrest : sourceRest s = regionBytes s.mem s.eng.sb s.eng.sl := by
    rw [sourceRest, hr]
    rfl
  rw [← hrest, Eng.endingOn]
  cases hop : s.eng.op with
  | false =>
    obtain ⟨nr, hrun, -, -⟩ := encoder_runs h hop (by rw [hr, hw])
    exact ⟨_, hrun.runs⟩
  | true =>
    have hcap : s.eng.dc.toNat - s.eng.w.toNat = s.eng.dc.toNat := by rw [hw]; rfl
    obtain ⟨nr, hrun, -, -⟩ := decoder_runs h hop (by rw [hw]; exact Nat.zero_le _)
    rw [decodeRest, hcap] at hrun
    exact ⟨_, hrun.runs⟩

/-- A started command with valid handles on ordinary memory runs to the ending of its source (R133, R135, R159). -/
theorem command_ends {s : State} (h : Working s) (hpt : s.eng.pt = .handleCheck) :
    ∃ k t, Runs k s t ∧ SameOutside s t ∧
      endedAs (s.eng.endingOn (regionBytes s.mem s.eng.sb s.eng.sl)) s.mem s.eng.outputBase t := by
  have hzero : Working { s with eng := { s.eng with r := 0, w := 0 } } := h.work h.mem _ _ _ _ _ _
  obtain ⟨k, hrun⟩ := loop_ends hzero rfl rfl
  have hfit := endingOn_written_le s.eng s.mem
  have hrange := output_inRange h.handles
  exact ⟨k + 1, _, runs_succ (step_enterLoop h.moves hpt h.handles) hrun,
    finish_outside s { s.eng with r := 0, w := 0 } _,
    endedAs_finish (s := { s with eng := { s.eng with r := 0, w := 0 } }) (endingOn_agrees _ _) rfl rfl h.mem
      (by show s.eng.outputBase.toNat + _ ≤ _; omega)⟩

/-! ### POLL -/

/-- An idle block with no turn waiting stays as it is (R197). -/
theorem runs_idle {k : Nat} {s t : State} (hi : s.inputs = []) (hp : s.eng.phase = .idle) (h : Runs k s t) : t = s := by
  induction k with
  | zero => exact (runs_zero_iff.1 h).symm
  | succ k ih =>
    obtain ⟨s', hs, hr⟩ := runs_succ_iff.1 h
    rw [step_idle hi hp] at hs
    obtain rfl := Host.Outcome.next.inj hs
    exact ih hr

theorem step_poll {s : State} {rest : List Turn} (hi : s.inputs = .host .poll :: rest) :
    step s = .next { s with
      bus := s.status.toWord, inputs := if s.status.busy then .engine :: .host .poll :: rest else rest } :=
  step_host hi

/-- The engine does not see the host's bus. -/
theorem engineStep_bus {s t : State} (b : Word) (hp : s.eng.phase = .running) (h : engineStep s = .next t) :
    engineStep { s with bus := b } = .next { t with bus := b } := by
  have hinside : SameInside s { s with bus := b } := ⟨rfl, rfl, rfl, rfl⟩
  obtain ⟨t', ht', hend⟩ := hinside.engineStep hp h
  obtain ⟨hstatus, hlen, hpos⟩ := hend.engineStep_results h ht' rfl rfl rfl
  obtain ⟨heng, hmem, hplatform, hfresh⟩ := hend.inside
  have ho := (engineStep_frame h).outside
  have ho' := (engineStep_frame ht').outside
  rw [ht']
  congr 1
  cases t'
  simp only [State.mk.injEq]
  exact ⟨ho'.ctrl.trans ho.ctrl.symm, hstatus, ho'.srcBase.trans ho.srcBase.symm, ho'.srcLen.trans ho.srcLen.symm,
    ho'.dstBase.trans ho.dstBase.symm, ho'.dstCap.trans ho.dstCap.symm, hlen, hpos, heng, hmem, hplatform,
    ho'.inputs.trans ho.inputs.symm, ho'.bus, hfresh, ho'.racedBytes.trans ho.racedBytes.symm⟩

theorem runs_poll_idle {s : State} (b : Word) (hs : s.Inv) (hp : s.eng.phase = .idle) :
    Runs 1 { s with inputs := [.host .poll], bus := b } { s with inputs := [], bus := s.status.toWord } := by
  have hbusy : s.status.busy = false := Bool.eq_false_iff.2 fun hb => by simp [hs.flags.busy_iff.1 hb] at hp
  have hstep := step_poll (s := { s with inputs := [.host .poll], bus := b }) rfl
  simp only [hbusy, Bool.false_eq_true, if_false] at hstep
  exact runs_one hstep

/-- While the engine runs, POLL reads STATUS and gives it one step (log 1). -/
theorem runs_poll_running {s t : State} (b : Word) (hs : s.Inv) (hm : EngineMoves s) (h : step s = .next t) :
    Runs 2 { s with inputs := [.host .poll], bus := b } { t with inputs := [.host .poll], bus := s.status.toWord } := by
  have hbusy := hs.flags.busy_iff.2 hm.phase
  have hstep := step_poll (s := { s with inputs := [.host .poll], bus := b }) rfl
  simp only [hbusy, if_true] at hstep
  have hbus : EngineMoves { s with inputs := [], bus := s.status.toWord } := ⟨rfl, hm.phase, hm.unraced⟩
  have hi := hm.inputs
  rw [step_engine hm] at h
  have hturn := step_scheduled_engine (t := { t with bus := s.status.toWord })
    (s := { s with inputs := [.engine, .host .poll], bus := s.status.toWord }) rfl hm.phase (by
      rw [step_engine (s := { s with inputs := [], bus := s.status.toWord }) hbus, ← hi]
      exact engineStep_bus _ hm.phase h)
  exact runs_succ hstep (runs_one hturn)

/-- POLL runs a command to the end it has without other turns, and reads the flags it leaves there (R94; log 1). -/
theorem poll_runs {k : Nat} {s t : State} (b : Word) (hs : s.Inv) (hi : s.inputs = []) (hr : s.racedBytes = [])
    (h : Runs k s t) (ht : t.eng.phase = .idle) :
    ∃ j, Runs j { s with inputs := [.host .poll], bus := b } { t with inputs := [], bus := t.status.toWord } := by
  induction k generalizing s b with
  | zero =>
    obtain rfl := runs_zero_iff.1 h
    exact ⟨1, runs_poll_idle b hs ht⟩
  | succ k ih =>
    cases hp : s.eng.phase with
    | idle =>
      obtain rfl := runs_idle hi hp h
      exact ⟨1, runs_poll_idle b hs hp⟩
    | running =>
      obtain ⟨s', hstep, hrun⟩ := runs_succ_iff.1 h
      obtain ⟨hi', hr'⟩ := step_stays_alone hi hr hstep
      obtain ⟨j, hpoll⟩ := ih s.status.toWord (invariantKeptByEveryStep s s' hs hstep) hi' hr' hrun
      exact ⟨2 + j, runs_add (runs_poll_running b hs ⟨hi, hp, hr⟩ hstep) hpoll⟩

/-! ### The writes before it -/

/-- A write to a register other than CTRL while idle (R112). -/
theorem step_wr_idle {s : State} {g : Reg} {d : Word} {rest : List Turn} (hi : s.inputs = wr s.platform g d :: rest)
    (hg : g ≠ .ctrl) (hb : s.status.busy = false) : step s = .next (setReg g d { s with inputs := rest }) := by
  rw [step_wr hi, writeReg, if_neg hg]
  exact if_neg (ne_true_of_eq_false hb)

theorem runs_wr {k : Nat} {s t : State} {g : Reg} {d : Word} {rest : List Turn}
    (hi : s.inputs = wr s.platform g d :: rest) (hg : g ≠ .ctrl) (hb : s.status.busy = false)
    (h : Runs k (setReg g d { s with inputs := rest }) t) : Runs (k + 1) s t :=
  runs_succ (step_wr_idle hi hg hb) h

/-- A CTRL write with START = 1 while idle (R113). -/
theorem step_wr_start {s : State} {d : Word} {rest : List Turn} (hi : s.inputs = wr s.platform .ctrl d :: rest)
    (hb : s.status.busy = false) (hd : d.getLsbD 0 = true) :
    step s = .next (State.start (d.getLsbD 1) (d.getLsbD 2) (d.getLsbD 3) { s with inputs := rest }) := by
  rw [step_wr hi, writeReg, if_pos rfl, exec_command_idle (s := { s with inputs := rest }) d hb, if_pos hd]

/-- From a START with POLL waiting, a command with valid handles on ordinary memory runs to the ending of its source,
and POLL reads the flags it leaves. -/
theorem start_poll_ends {s : State} {op sv dv : Bool} (hm : s.mem.wf = true) (hi : s.inputs = [.host .poll])
    (hk : handlesOk (s.start op sv dv).eng = true) (hsrc : ordinaryRegion s.platform s.srcBase s.srcLen)
    (hout : ordinaryRegion s.platform (s.start op sv dv).eng.outputBase (s.start op sv dv).eng.outputLen) :
    ∃ k t, Runs k (s.start op sv dv) t ∧ t.inputs = [] ∧ t.bus = readReg .status t ∧
      t.ctrl = { op := op, srcValid := sv, dstValid := dv } ∧
      endedAs ((s.start op sv dv).eng.endingOn (regionBytes s.mem s.srcBase s.srcLen)) s.mem
        (s.start op sv dv).eng.outputBase t := by
  have hwork : Working (State.start op sv dv { s with inputs := [] }) := ⟨⟨rfl, rfl, rfl⟩, hk, hsrc, hout, hm⟩
  obtain ⟨k, t, hrun, ho, hend⟩ := command_ends hwork rfl
  have ⟨_, hidle, _⟩ := hend
  obtain ⟨j, hpoll⟩ := poll_runs s.bus (start_inv (s := { s with inputs := [] }) hm op sv dv) rfl rfl hrun hidle
  have hs : ({ State.start op sv dv { s with inputs := [] } with inputs := [.host .poll], bus := s.bus } : State) =
      s.start op sv dv := by
    rw [← hi]
    rfl
  rw [hs] at hpoll
  exact ⟨j, _, hpoll, rfl, rfl, ho.ctrl, hend⟩

/-- Settles O44: the writes of the parameters and of CTRL lead to a START with POLL waiting. -/
theorem pseudoInstructionsRunTheirCommands : Obligations.PseudoInstructionsRunTheirCommands := by
  intro s sb sl hs hb hrange hsrc
  refine ⟨fun hi => ?_, fun db dc hdst hout hov hi => ?_⟩
  · obtain ⟨k, t, hrun, hti, hbus, hctrl, hend⟩ := start_poll_ends (op := false) (sv := true) (dv := false)
      (s := { s with inputs := [.host .poll], srcBase := sb, srcLen := sl }) hs.mem rfl
      ((handlesOk_encode rfl).trans ((encodeHandlesOk_iff _).2 ⟨rfl, hrange⟩)) hsrc hsrc
    refine ⟨_, t, runs_wr hi (by decide) hb (runs_wr rfl (by decide) hb
      (runs_succ (step_wr_start rfl hb (by decide)) hrun)), hti, hbus, ?_, hend⟩
    rw [readReg, hctrl]
    rfl
  · obtain ⟨k, t, hrun, hti, hbus, hctrl, hend⟩ := start_poll_ends (op := true) (sv := true) (dv := true)
      (s := { s with inputs := [.host .poll], srcBase := sb, srcLen := sl, dstBase := db, dstCap := dc }) hs.mem rfl
      ((handlesOk_decode rfl).trans ((decodeHandlesOk_iff _).2 ⟨rfl, rfl, hrange, hdst, hov⟩)) hsrc hout
    refine ⟨_, t, runs_wr hi (by decide) hb (runs_wr rfl (by decide) hb (runs_wr rfl (by decide) hb
      (runs_wr rfl (by decide) hb (runs_succ (step_wr_start rfl hb (by decide)) hrun)))), hti, hbus, ?_, hend⟩
    rw [readReg, hctrl]
    rfl

end Sys2Proof.Machine

/-! The host's side of the register window (40_host_commands, section 1): which accesses are admitted, what a read
returns, and what a write does while idle and while BUSY. -/

namespace Sys2Proof.Machine

/-! ### What the registers read -/

/-- CTRL holds its three fields where the word of a CTRL_SET has them (R23, R90). -/
theorem Ctrl.toWord_eq_commandWord (c : Ctrl) : c.toWord = commandWord false c.op c.srcValid c.dstValid := rfl

/-- The bits of CTRL: three fields, and 0 for START and the reserved bits (R23). -/
theorem Ctrl.getLsbD_toWord (c : Ctrl) (i : Nat) :
    c.toWord.getLsbD i =
      (decide (i = 1) && c.op || decide (i = 2) && c.srcValid || decide (i = 3) && c.dstValid) := by
  obtain ⟨h0, h1, h2, h3⟩ := commandWord_bits false c.op c.srcValid c.dstValid
  rw [c.toWord_eq_commandWord]
  match i with
  | 0 => rw [h0]; simp
  | 1 => rw [h1]; simp
  | 2 => rw [h2]; simp
  | 3 => rw [h3]; simp
  | i + 4 => rw [← commandWord_and_nibble, getLsbD_and_nibble]; simp

/-- The bits of STATUS: BUSY, DONE, the field ERR, and 0 for the reserved bits (R24). -/
theorem Status.getLsbD_toWord (st : Status) (i : Nat) :
    st.toWord.getLsbD i =
      (decide (i = 0) && st.busy || decide (i = 1) && st.done ||
        decide (4 ≤ i) && (errField st.err).getLsbD (i - 4)) := by
  change (0#24 ++ errField st.err ++ 0#2 ++ BitVec.ofBool st.done ++ BitVec.ofBool st.busy).getLsbD i = _
  simp only [BitVec.getLsbD_append]
  match i with
  | 0 | 1 | 2 | 3 => simp
  | i + 4 => simpa using BitVec.lt_of_getLsbD

/-- STATUS.ERR is bits 7:4 (R24). -/
theorem Status.err_toWord (st : Status) : st.toWord.extractLsb' 4 4 = errField st.err := by
  apply BitVec.eq_of_getLsbD_eq
  intro i hi
  have hne : 4 + i ≠ 1 := by omega
  simp [st.getLsbD_toWord, hi, hne]

/-- While BUSY the flags and the results are those START left (R24, R29, R30, R113). -/
theorem started_of_busy {s : State} (hs : s.FlagsAgree) (hb : s.status.busy = true) :
    s.status = flagsStarted ∧ s.resultLen = 0 ∧ s.errPos = 0 := by
  have hd : s.status.done = false := by simpa [hb] using hs.not_busy_done
  have he : s.status.err = none := by simpa [hd] using mt hs.err_done
  exact ⟨by rw [flagsStarted, ← hb, ← hd, ← he], hs.notDone_len hd, hs.noErr_pos he⟩

/-- Settles O4: the read itself, the bits of CTRL and STATUS, and what START left in the registers. -/
theorem registerReadReturnsValue : Obligations.RegisterReadReturnsValue := by
  intro s g rest hi
  refine ⟨step_rd hi, s.ctrl.getLsbD_toWord, ?_, ?_, s.status.err_toWord, fun i h => ?_, rfl, rfl, rfl, rfl, rfl, rfl,
    fun hs hb => ?_⟩
  · rw [readReg, s.status.getLsbD_toWord]; simp
  · rw [readReg, s.status.getLsbD_toWord]; simp
  · rw [readReg, s.status.getLsbD_toWord]
    rcases h with rfl | rfl | h
    · simp
    · simp
    · have hne : i ≠ 0 ∧ i ≠ 1 := by omega
      simp [hne, BitVec.getLsbD_of_ge (errField s.status.err) (i - 4) (by omega)]
  · obtain ⟨hst, hlen, hpos⟩ := started_of_busy hs.flags hb
    obtain ⟨-, hsb, hsl, hdb, hdc⟩ := hs.latched (hs.flags.busy_iff.1 hb)
    exact ⟨by rw [readReg, hst]; rfl, hlen, hpos, hsb, hsl, hdb, hdc⟩

/-! ### Admission -/

/-- Settles O5, by whether the access is admitted. -/
theorem onlyAlignedWordAccessesAdmitted : Obligations.OnlyAlignedWordAccessesAdmitted := by
  intro s addr width d rest
  have hnone := admit_eq_none_iff s.platform addr width
  cases hadm : admission s.platform addr width with
  | none =>
    refine ⟨fun h => absurd h (hnone.1 hadm), fun _ => ⟨fun hi => ⟨refusalOf s.platform addr, ?_⟩,
      fun hi => ⟨refusalOf s.platform addr, ?_⟩⟩⟩
    · simp [step_host hi, hostStep, hostRead, hadm]
    · simp [step_host hi, hostStep, hostWrite, hadm]
  | some g =>
    obtain ⟨rfl, rfl⟩ := admit_eq_some hadm
    refine ⟨fun _ => ⟨g, (Nat.add_sub_cancel_left _ _).symm, step_rd, step_wr⟩, fun h => ?_⟩
    rw [hnone.2 h] at hadm
    cases hadm

/-! ### Writes while idle -/

@[simp] theorem setReg_eng (g : Reg) (d : Word) (s : State) : (setReg g d s).eng = s.eng := by
  cases g <;> rfl

/-- A write of a register other than CTRL sets the parameter it names, and nothing else (R112). -/
theorem setReg_eq (g : Reg) (d : Word) (s : State) :
    setReg g d s = { s with
      srcBase := if g = .srcBase then d else s.srcBase, srcLen := if g = .srcLen then d else s.srcLen,
      dstBase := if g = .dstBase then d else s.dstBase, dstCap := if g = .dstCap then d else s.dstCap } := by
  cases g <;> rfl

/-- A CTRL write with START = 0 while idle is a CTRL_SET (R114). -/
theorem step_wr_ctrlSet {s : State} {d : Word} {rest : List Turn} (hi : s.inputs = wr s.platform .ctrl d :: rest)
    (hb : s.status.busy = false) (hd : d.getLsbD 0 = false) :
    step s = .next { s with
      inputs := rest, ctrl := { op := d.getLsbD 1, srcValid := d.getLsbD 2, dstValid := d.getLsbD 3 } } := by
  rw [step_wr hi, writeReg, if_pos rfl, exec_command_idle (s := { s with inputs := rest }) d hb,
    if_neg (ne_true_of_eq_false hd)]

/-- Settles O6: a write of another register is `setReg`, and a CTRL write that starts nothing is a CTRL_SET. -/
theorem idleRegisterWrites : Obligations.IdleRegisterWrites := by
  intro s g d rest hi hb
  refine ⟨fun hg => ?_, fun hns => ?_⟩
  · rw [step_wr_idle hi hg hb, setReg_eq]
  · by_cases hg : g = .ctrl
    · subst hg
      exact ⟨_, step_wr_ctrlSet hi hb (by simpa using hns), rfl, rfl⟩
    · exact ⟨_, step_wr_idle hi hg hb, setReg_eng g d _, setReg_status g d _⟩

/-- Settles O7: the state `State.start` gives, written out. -/
theorem startLatchesTheParameters : Obligations.StartLatchesTheParameters :=
  fun _ _ _ hi hb hd => step_wr_start hi hb hd

/-- Settles O8: both commands are `State.start` while idle. -/
theorem encodeAndDecodeStart : Obligations.EncodeAndDecodeStart :=
  fun _ _ _ hb => ⟨whenIdle_idle _ hb, whenIdle_idle _ hb⟩

/-- A START while idle writes all of CTRL, so it does not depend on what CTRL held (R113, R114). -/
theorem start_ignores_ctrl {s : State} (op sv dv : Bool) (c : Ctrl) (hb : s.status.busy = false) :
    whenIdle { s with ctrl := c } (State.start op sv dv { s with ctrl := c }) = whenIdle s (s.start op sv dv) := by
  rw [whenIdle_idle _ hb, whenIdle_idle (s := { s with ctrl := c }) _ hb]
  rfl

/-- Settles O9: the fields are CTRL's own, and START overwrites them. -/
theorem ctrlSetStoresItsFields : Obligations.CtrlSetStoresItsFields :=
  fun _ _ _ _ hb => ⟨_, whenIdle_idle _ hb, rfl, Ctrl.toWord_eq_commandWord _, fun sv' dv' =>
    ⟨start_ignores_ctrl false sv' dv' _ hb, start_ignores_ctrl true sv' dv' _ hb⟩⟩

/-! ### Writes while BUSY -/

/-- A write of any register while BUSY changes nothing (R115). -/
theorem writeReg_busy {s : State} (g : Reg) (d : Word) (hb : s.status.busy = true) : writeReg g d s = .next s := by
  by_cases hg : g = .ctrl
  · rw [writeReg, if_pos hg, exec_command_busy d hb]
  · rw [writeReg, if_neg hg, if_pos hb]

/-- Settles O10: the write of a register and the command word are both ignored. -/
theorem writesWhileBusyIgnored : Obligations.WritesWhileBusyIgnored :=
  fun s g d rest hb => ⟨fun hi => (step_wr hi).trans (writeReg_busy (s := { s with inputs := rest }) g d hb),
    exec_command_busy d hb⟩

end Sys2Proof.Machine

/-! The handle check (40_host_commands, section 2): the first engine step of a command raises InvalidHandle, enters the
command's loop, or completes with an empty source. -/

namespace Sys2Proof.Machine

section
variable {s : State} (hs : EngineMoves s) (hpt : s.eng.pt = .handleCheck)
include hs hpt

theorem step_handleCheck : step s = stepHandleCheck s := by
  rw [step_engine hs, engineStep, hpt]

/-- A command whose handles are not valid ends with InvalidHandle and touches no memory (R117, R118). -/
theorem handleCheck_raises (hk : handlesOk s.eng = false) :
    ∃ t, step s = .next t ∧ Raised s .invalidHandle 0 t ∧ t.mem = s.mem := by
  refine ⟨s.raise .invalidHandle 0, ?_, ⟨rfl, rfl, rfl, rfl, (raise_frame s _ _).outside⟩, rfl⟩
  simp [step_handleCheck hs hpt, stepHandleCheck, hk]

/-- A command with valid handles and a source enters its loop with both cursors 0 (R120). -/
theorem handleCheck_enters (hk : handlesOk s.eng = true) (hl : 0 < s.eng.sl.toNat) :
    step s = .next { s with eng := { s.eng with r := 0, w := 0, pt := loopHead s.eng.op } } := by
  rw [step_enterLoop hs hpt hk, State.enterLoop, loopTest_more _ (by simpa using hl)]
  rfl

/-- A command with valid handles and an empty source completes with length 0 (R120). -/
theorem handleCheck_completes (hk : handlesOk s.eng = true) (hl : s.eng.sl = 0) :
    ∃ t, step s = .next t ∧ Completed s 0 t ∧ t.mem = s.mem := by
  refine ⟨_, step_enterLoop hs hpt hk, ?_⟩
  rw [State.enterLoop, loopTest_done _ (by simp [hl])]
  exact ⟨⟨rfl, rfl, rfl, rfl, ⟨rfl, rfl, rfl, rfl, rfl, rfl, rfl, rfl, rfl⟩⟩, rfl⟩

end

/-- What the handle check of ENCODE fails on (R117). -/
theorem handlesOk_encode_eq_false {e : Eng} (hop : e.op = false)
    (h : e.sv = false ∨ 2 ^ 32 < e.sb.toNat + e.sl.toNat) : handlesOk e = false := by
  rw [handlesOk_encode hop, Bool.eq_false_iff, Ne, encodeHandlesOk_iff]
  rintro ⟨hsv, hsrc⟩
  simp only [hsv, Bool.true_eq_false, false_or] at h
  omega

/-- What the handle check of DECODE fails on (R118). -/
theorem handlesOk_decode_eq_false {e : Eng} (hop : e.op = true)
    (h : e.sv = false ∨ e.dv = false ∨ 2 ^ 32 < e.sb.toNat + e.sl.toNat ∨ 2 ^ 32 < e.db.toNat + e.dc.toNat ∨
      overlap e.sb e.sl e.db e.dc = true) : handlesOk e = false := by
  rw [handlesOk_decode hop, Bool.eq_false_iff, Ne, decodeHandlesOk_iff]
  rintro ⟨hsv, hdv, hsrc, hdst, hov⟩
  simp only [hsv, hdv, hov, Bool.true_eq_false, Bool.false_eq_true, false_or, or_false] at h
  omega

/-- The overlap test of R118, as the rule writes it. -/
theorem overlap_iff (sb sl db dc : Word) :
    overlap sb sl db dc = true ↔
      0 < sl.toNat ∧ 0 < dc.toNat ∧ sb.toNat < db.toNat + dc.toNat ∧ db.toNat < sb.toNat + sl.toNat := by
  simp [overlap]

/-- An empty region that a register can name is in range: a base is below 2^32 (R116). -/
theorem inRange_zero (base : Word) : inRange base 0 = true :=
  (inRange_iff base 0).2 (Nat.le_of_lt base.isLt)

/-- Settles O22: the test on natural numbers, and its part in both handle checks. -/
theorem regionValidity : Obligations.RegionValidity := by
  refine ⟨fun base len => ⟨inRange_iff base len, ?_, fun h i hi => ?_⟩, fun s hs hpt h => ?_⟩
  · rintro rfl
    exact ⟨inRange_zero base, fun a => by simp [inRegion]⟩
  · have hle := (inRange_iff base len).1 h
    unfold addressOf
    omega
  · apply handleCheck_raises hs hpt
    cases hop : s.eng.op with
    | false => exact handlesOk_encode_eq_false hop (.inr (by simpa [hop] using h))
    | true =>
      rcases h with h | ⟨-, h⟩
      · exact handlesOk_decode_eq_false hop (.inr (.inr (.inl h)))
      · exact handlesOk_decode_eq_false hop (.inr (.inr (.inr (.inl h))))

/-- Settles O25: the loop that `loopHead` names, or the completion of an empty source. -/
theorem dispatchAfterHandleCheck : Obligations.DispatchAfterHandleCheck :=
  fun _ hs hpt hk => ⟨handleCheck_enters hs hpt hk, handleCheck_completes hs hpt hk⟩

/-- Settles O23: SRC_VALID and the source region alone decide. -/
theorem encodeHandleCheck : Obligations.EncodeHandleCheck := by
  intro s hs hpt hop
  have hok : s.eng.sv = true → s.eng.sb.toNat + s.eng.sl.toNat ≤ 2 ^ 32 → handlesOk s.eng = true :=
    fun hsv hsrc => (handlesOk_encode hop).trans ((encodeHandlesOk_iff _).2 ⟨hsv, hsrc⟩)
  refine ⟨fun h => handleCheck_raises hs hpt (handlesOk_encode_eq_false hop h), fun hsv hsrc hl => ?_,
    fun hsv hl => handleCheck_completes hs hpt (hok hsv ?_) hl⟩
  · rw [handleCheck_enters hs hpt (hok hsv hsrc) hl, hop]
    rfl
  · rw [hl]
    exact (inRange_iff _ 0).1 (inRange_zero _)

/-- Settles O24: both valid bits, both regions and the overlap decide. -/
theorem decodeHandleCheck : Obligations.DecodeHandleCheck := by
  intro s hs hpt hop
  refine ⟨fun h => handleCheck_raises hs hpt (handlesOk_decode_eq_false hop ?_), fun hsv hdv hsrc hdst hov => ?_⟩
  · rwa [overlap_iff]
  · rw [← overlap_iff, Bool.not_eq_true] at hov
    have hk : handlesOk s.eng = true :=
      (handlesOk_decode hop).trans ((decodeHandlesOk_iff _).2 ⟨hsv, hdv, hsrc, hdst, hov⟩)
    refine ⟨fun hl => ?_, handleCheck_completes hs hpt hk⟩
    rw [handleCheck_enters hs hpt hk hl, hop]
    rfl

end Sys2Proof.Machine

/-! The encoder one step at a time (41_encoder): the two reads of the scan and the writes of a token; and the scan as a
whole (R130 to R132). -/

namespace Sys2Proof.Machine

/-! ### The reads of the scan -/

section
variable {s : State} (hm : EngineMoves s)
include hm

/-- The read of a run's first byte: out of range it raises, else a run of length 1 is tested (R130, R182). -/
theorem step_encLoad {c : Byte} (hpt : s.eng.pt = .encLoad)
    (hk : addressKind s.platform (sourceAddress s s.eng.r.toNat) = .ordinary)
    (hc : c = s.mem.read (sourceAddress s s.eng.r.toNat)) :
    step s = .next (if tagOf c then s.raise .outOfRangeLiteral s.eng.r
      else State.scanTest { s with eng := { s.eng with lit := c, len := 1 } }) := by
  subst hc
  rw [step_engine hm, engineStep, hpt]
  exact engineAccess_ordinary _ hk

/-- The read of the byte after the run so far: an equal one extends the run, and any other ends the scan (R130, R131). -/
theorem step_encPeek {c : Byte} (hpt : s.eng.pt = .encPeek)
    (hk : addressKind s.platform (sourceAddress s (s.eng.r.toNat + s.eng.len.toNat)) = .ordinary)
    (hc : c = s.mem.read (sourceAddress s (s.eng.r.toNat + s.eng.len.toNat))) :
    step s = .next (if c = s.eng.lit then State.scanTest { s with eng := { s.eng with len := s.eng.len + 1 } }
      else s.endScan) := by
  subst hc
  rw [step_engine hm, engineStep, hpt]
  exact engineAccess_ordinary _ hk

end

/-- The end of a scan of at least two bytes goes on to a header (R132). -/
theorem endScan_header {s : State} (h : 2 ≤ s.eng.len.toNat) :
    s.endScan = { s with eng := { s.eng with
      r := BitVec.ofNat 32 (s.eng.r.toNat + s.eng.len.toNat), pt := .encHeader } } := by
  have hlen : s.eng.len ≠ 1 := fun h1 => by simp [h1] at h
  rw [State.endScan, if_neg hlen, advance_eq_ofNat]

/-- Settles O27, by the byte read and then by the scan's test (`scanTest_more`, `scanTest_end`). -/
theorem encoderScanStep : Obligations.EncoderScanStep := by
  intro s hs hm
  have hcur := hs.cursors hm.phase
  refine ⟨fun hpt hk c hc => ?_, fun hpt hk c hc => ?_⟩
  · have hstep := step_encLoad hm hpt hk hc
    have hone : (1 : Byte).toNat < Config.maxRun := by decide
    refine ⟨fun htag => ?_, fun htag hmore => ?_, fun htag hlast => ?_⟩
    · rw [if_pos htag] at hstep
      exact ⟨_, hstep, ⟨rfl, rfl, rfl, rfl, (raise_frame s _ _).outside⟩, rfl⟩
    · rw [if_neg (ne_true_of_eq_false htag), scanTest_more hmore hone] at hstep
      exact hstep
    · rw [if_neg (ne_true_of_eq_false htag), scanTest_end fun h => h.1.ne hlast] at hstep
      exact hstep
  · have hstep := step_encPeek hm hpt hk hc
    rw [hpt] at hcur
    obtain ⟨-, -, -, -, hlen, hcap, -⟩ := hcur
    have hlen' := byte_succ hcap
    refine ⟨fun heq hmore hroom => ?_, fun heq hend => ?_, fun hne => ?_⟩
    · rw [if_pos heq, scanTest_more (by dsimp only; omega) (hlen'.trans_lt hroom)] at hstep
      rw [hstep, ← hpt]
      rfl
    · rw [if_pos heq, scanTest_end (by simp only [Config.maxRun]; omega),
        endScan_header (by dsimp only; omega)] at hstep
      simp only [hlen'] at hstep
      exact hstep
    · rw [if_neg hne] at hstep
      exact hstep

/-! ### The writes of a token -/

section
variable {s : State} (hm : EngineMoves s)
include hm

/-- The write of a literal token (R132). -/
theorem step_encLit (hpt : s.eng.pt = .encLit)
    (hk : addressKind s.platform (sourceAddress s s.eng.w.toNat) = .ordinary) :
    step s = .next (State.loopTest .encLoad { s with
      mem := s.mem.write (sourceAddress s s.eng.w.toNat) s.eng.lit,
      eng := { s.eng with w := advance s.eng.w 1 } }) := by
  rw [step_engine hm, engineStep, hpt]
  exact engineAccess_ordinary _ hk

/-- The write of a run header (R132). -/
theorem step_encHeader (hpt : s.eng.pt = .encHeader)
    (hk : addressKind s.platform (sourceAddress s s.eng.w.toNat) = .ordinary) :
    step s = .next { s with
      mem := s.mem.write (sourceAddress s s.eng.w.toNat) (s.eng.lit ||| 0x80#8),
      eng := { s.eng with pt := .encLength } } := by
  rw [step_engine hm, engineStep, hpt]
  exact engineAccess_ordinary _ hk

/-- The write of a length byte (R132). -/
theorem step_encLength (hpt : s.eng.pt = .encLength)
    (hk : addressKind s.platform (sourceAddress s (s.eng.w.toNat + 1)) = .ordinary) :
    step s = .next (State.loopTest .encLoad { s with
      mem := s.mem.write (sourceAddress s (s.eng.w.toNat + 1)) s.eng.len,
      eng := { s.eng with w := advance s.eng.w 2 } }) := by
  rw [step_engine hm, engineStep, hpt]
  exact engineAccess_ordinary _ hk

end

/-- A write changes the byte at its address and no other (R53). -/
theorem storedByte_write {m : Memory} (a : Nat) (v : Byte) (hm : m.wf = true) : storedByte m a v (m.write a v) :=
  fun x => Memory.read_write a v x hm

/-- After the last write of a token the loop goes on at the next run, or the command completes with the length written
(R132, R185). -/
theorem token_written {s : State} {a : Nat} {v : Byte} {n : Nat} (hmem : s.mem.wf = true)
    (hstep : step s = .next (State.loopTest .encLoad { s with
      mem := s.mem.write a v, eng := { s.eng with w := advance s.eng.w n } })) :
    ∃ t, step s = .next t ∧ storedByte s.mem a v t.mem ∧
      (s.eng.r.toNat < s.eng.sl.toNat → t = { s with
        mem := t.mem, eng := { s.eng with w := BitVec.ofNat 32 (s.eng.w.toNat + n), pt := .encLoad } }) ∧
      (s.eng.r = s.eng.sl → Completed s (BitVec.ofNat 32 (s.eng.w.toNat + n)) t) := by
  have hstored := storedByte_write a v hmem
  refine ⟨_, hstep, ?_, fun hmore => ?_, fun hend => ?_⟩
  · rwa [loopTest_mem]
  · rw [loopTest_mem]
    exact loopTest_more _ hmore
  · rw [loopTest_done .encLoad (by exact (congrArg BitVec.toNat hend).ge)]
    exact ⟨rfl, rfl, rfl, rfl, ⟨rfl, rfl, rfl, rfl, rfl, rfl, rfl, rfl, rfl⟩⟩

/-- Settles O28: each write stores its byte, and the last one of a token is followed by the loop's test. -/
theorem encoderEmitsTokens : Obligations.EncoderEmitsTokens := by
  intro s hs hm
  have hcur := hs.cursors hm.phase
  refine ⟨fun hpt hk => token_written hs.mem (step_encLit hm hpt hk), fun hpt hk => ?_, fun hpt hk => ?_⟩
  · rw [hpt] at hcur
    obtain ⟨-, -, -, -, -, htag⟩ := hcur
    rw [headerByte_eq_or htag]
    exact ⟨_, step_encHeader hm hpt hk, storedByte_write _ _ hs.mem, rfl⟩
  · rw [hpt] at hcur
    obtain ⟨-, -, -, -, hlen, -⟩ := hcur
    exact ⟨hlen, token_written hs.mem (step_encLength hm hpt hk)⟩

/-! ### The scan as a whole -/

/-- The first chunk is the longest run of at most 255 equal bytes at the front (R131). -/
theorem chunkLength_longest (v : Byte) (xs : List Byte) :
    1 ≤ chunkLength (v :: xs) ∧ chunkLength (v :: xs) ≤ 255 ∧ chunkLength (v :: xs) ≤ (v :: xs).length ∧
      (∀ i, i < chunkLength (v :: xs) → (v :: xs).getD i 0 = v) ∧
      (chunkLength (v :: xs) < 255 → chunkLength (v :: xs) < (v :: xs).length →
        (v :: xs).getD (chunkLength (v :: xs)) 0 ≠ v) := by
  refine ⟨chunkLength_pos v xs, chunkLength_le_cap _, chunkLength_le_length _, fun i hi => ?_, fun hcap hlt => ?_⟩
  · rw [List.getD_eq_getElem?_getD, chunkLength_getElem? hi]
    rfl
  · rw [List.getD_eq_getElem _ _ hlt]
    exact chunkLength_stop hcap (List.getElem?_eq_getElem hlt)

/-- An ENCODE at the load of a run, in the invariant and on ordinary memory, is at work. -/
theorem working_of_encLoad {s : State} (hs : s.Inv) (hm : EngineMoves s) (hpt : s.eng.pt = .encLoad)
    (hsrc : ordinaryRegion s.platform s.eng.sb s.eng.sl) : Working s ∧ s.eng.r.toNat < s.eng.sl.toNat := by
  have hcur := hs.cursors hm.phase
  rw [hpt] at hcur
  obtain ⟨hop, hhandles, -, hr⟩ := hcur
  have hout : s.eng.outputBase = s.eng.sb := by rw [Eng.outputBase, hop]; rfl
  refine ⟨⟨hm, (handlesOk_encode hop).trans hhandles, hsrc, ?_, hs.mem⟩, hr⟩
  rwa [hout, outputLen_encode hop]

/-- From the load of a literal the scan reads its chunk, and the byte that ends it, and stands at its end (R131). -/
theorem accesses_scan {s : State} {v : Byte} {xs : List Byte} (h : Working s) (hpt : s.eng.pt = .encLoad)
    (hX : sourceRest s = v :: xs) (hv : tagOf v = false) :
    Accesses (chunkLength (v :: xs) + readsPast (v :: xs)) 0 s
      (State.endScan { s with eng := { s.eng with lit := v, len := BitVec.ofNat 8 (chunkLength (v :: xs)) } }) := by
  obtain ⟨hr, hread⟩ := sourceRest_head hX
  have hload := accesses_encLoad h hr
  rw [hread, if_neg (ne_true_of_eq_false hv), State.goto, ← hpt] at hload
  have h1 := chunkLength_pos v xs
  have hscan := accesses_scanTest (s := s.latch s.eng.pt v 1 s.eng.k) (d := chunkLength (v :: xs) - 1)
    (h.latch _ _ _ _) hX rfl (Nat.add_sub_cancel' h1)
  have hcount : chunkLength (v :: xs) + readsPast (v :: xs) =
      1 + (chunkLength (v :: xs) - 1 + readsPast (v :: xs)) := by omega
  rw [hcount]
  exact hload.trans hscan

/-- A chunk of length 1 has the byte 1 as its length. -/
theorem ofNat_chunkLength_eq_one_iff (X : List Byte) : BitVec.ofNat 8 (chunkLength X) = 1 ↔ chunkLength X = 1 := by
  have hcap := chunkLength_le_cap X
  rw [← BitVec.toNat_inj, BitVec.toNat_ofNat, Nat.mod_eq_of_lt (by omega)]
  rfl

/-- Settles O29: the scan's reads (`accesses_scan`) end past the first chunk of the rest of the source. -/
theorem scanTakesTheLongestRun : Obligations.ScanTakesTheLongestRun := by
  intro s X hs hm hpt hsrc hX htag
  obtain ⟨h, hr⟩ := working_of_encLoad hs hm hpt hsrc
  cases X with
  | nil =>
    have hlen := congrArg List.length hX
    rw [List.length_nil, Memory.length_slice] at hlen
    omega
  | cons v xs =>
    have hscan := (accesses_scan h hpt hX.symm htag).runs
    have hcap := chunkLength_le_cap (v :: xs)
    refine ⟨_, _, hscan, ?_, ?_, chunkLength_longest v xs⟩
    · exact apply_ite (chunkLength (v :: xs) + ·) _ 1 0
    · have hlen : (BitVec.ofNat 8 (chunkLength (v :: xs))).toNat = chunkLength (v :: xs) :=
        Nat.mod_eq_of_lt (by omega : _ < 2 ^ 8)
      simp only [State.endScan, ofNat_chunkLength_eq_one_iff, hlen, advance_eq_ofNat, List.headD_cons]

end Sys2Proof.Machine

/-! The encoder (41_encoder): a started ENCODE from its instruction to its end, and how many accesses a successful command
makes (R133, R134, R136, R161). -/

namespace Sys2Proof.Machine

/-! ### A started command -/

/-- A START of ENCODE with its source present, in range and of ordinary memory leaves the command at work (R113, R117). -/
theorem working_start_encode {s : State} (dv : Bool) (hm : s.mem.wf = true) (hi : s.inputs = [])
    (hrange : s.srcBase.toNat + s.srcLen.toNat ≤ 2 ^ 32) (hsrc : ordinaryRegion s.platform s.srcBase s.srcLen) :
    Working (s.start false true dv) :=
  ⟨⟨hi, rfl, rfl⟩, (handlesOk_encode rfl).trans ((encodeHandlesOk_iff _).2 ⟨rfl, hrange⟩), hsrc, hsrc, hm⟩

/-- A START of DECODE with both handles present and valid and both regions of ordinary memory leaves the command at work
(R113, R118). -/
theorem working_start_decode {s : State} (hm : s.mem.wf = true) (hi : s.inputs = [])
    (hrange : s.srcBase.toNat + s.srcLen.toNat ≤ 2 ^ 32) (hsrc : ordinaryRegion s.platform s.srcBase s.srcLen)
    (hdst : s.dstBase.toNat + s.dstCap.toNat ≤ 2 ^ 32) (hout : ordinaryRegion s.platform s.dstBase s.dstCap)
    (hov : overlap s.srcBase s.srcLen s.dstBase s.dstCap = false) : Working (s.start true true true) :=
  ⟨⟨hi, rfl, rfl⟩, (handlesOk_decode rfl).trans ((decodeHandlesOk_iff _).2 ⟨rfl, rfl, hrange, hdst, hov⟩), hsrc, hout,
    hm⟩

/-! ### ENCODE of literals -/

/-- ENCODE of literals succeeds with `Enc` (R133). -/
theorem encodeEnding_of_valid {xs : List Byte} (h : validInput xs = true) :
    encodeEnding xs = { err := none, resultLen := (Enc xs).length, errPos := 0, written := Enc xs } := if_pos h

@[simp] theorem length_regionBytes (m : Memory) (base len : Word) : (regionBytes m base len).length = len.toNat :=
  Memory.length_slice _ _ _

/-- The encoding of a region is no longer than the region (R170). -/
theorem Enc_regionBytes_length_le (m : Memory) (base len : Word) : (Enc (regionBytes m base len)).length ≤ len.toNat :=
  (Enc_length_le _).trans_eq (length_regionBytes m base len)

/-- The encoding's length is a 32-bit value. -/
theorem toNat_Enc_regionBytes_length (m : Memory) (base len : Word) :
    (BitVec.ofNat 32 (Enc (regionBytes m base len)).length).toNat = (Enc (regionBytes m base len)).length :=
  Nat.mod_eq_of_lt (Nat.lt_of_le_of_lt (Enc_regionBytes_length_le m base len) len.isLt)

/-- Settles O31: the ending of a started ENCODE is that of its source (`command_ends`), and for literals it is success
with `Enc`. -/
theorem encodeCompressesInPlace : Obligations.EncodeCompressesInPlace := by
  intro s dv hs hb hi hrange hsrc hvalid
  obtain ⟨k, t, hrun, -, hend⟩ := command_ends (working_start_encode dv hs.mem hi hrange hsrc) rfl
  have hending : (s.start false true dv).eng.endingOn (regionBytes s.mem s.srcBase s.srcLen) = _ :=
    encodeEnding_of_valid hvalid
  obtain ⟨hstatus, hidle, hlen, hpos, hwrote⟩ := hending ▸ hend
  exact ⟨_, k, t, whenIdle_idle _ hb, hrun, hstatus, hidle,
    (congrArg BitVec.toNat hlen).trans (toNat_Enc_regionBytes_length _ _ _), hpos, hwrote⟩

/-! ### How many accesses a command makes -/

/-- The accesses of a step and of the run after it. -/
theorem accessTotal_succ {f : Option Access → Nat} {k : Nat} {s t : State} (h : step s = .next t) :
    accessTotal f (k + 1) s = f (nextAccess s) + accessTotal f k t := by
  simp only [accessTotal, h]

/-- The state with both cursors at the start of their regions, as a command enters its loop (R130, R150). -/
def State.rewind (s : State) : State := { s with eng := { s.eng with r := 0, w := 0 } }

theorem enterLoop_eq (s : State) : s.enterLoop = s.rewind.loopTest (loopHead s.eng.op) := rfl

theorem sourceRest_rewind (s : State) : sourceRest s.rewind = regionBytes s.mem s.eng.sb s.eng.sl := rfl

theorem Working.rewind {s : State} (h : Working s) : Working s.rewind := h.work h.mem _ _ _ _ _ _

section
variable {s : State} (h : Working s) (hpt : s.eng.pt = .handleCheck)
include h hpt

/-- A command makes the accesses of its loop: its handle check makes none (R117, R118). -/
theorem counts_from_handleCheck {t : State} {p : Point} {nr nw : Nat} (hp : loopHead s.eng.op = p)
    (hloop : Accesses nr nw (s.rewind.loopTest p) t) :
    ∃ k, Runs k s t ∧ accessTotal readCount k s = nr ∧ accessTotal writeCount k s = nw := by
  have hstep := step_enterLoop h.moves hpt h.handles
  rw [enterLoop_eq, hp] at hstep
  have hnone : nextAccess s = none := by simp only [nextAccess, h.moves.phase, hpt]
  refine ⟨nr + nw + 1, runs_succ hstep hloop.runs, ?_, ?_⟩
  · rw [accessTotal_succ hstep, hnone, hloop.reads]
    exact Nat.zero_add nr
  · rw [accessTotal_succ hstep, hnone, hloop.writes]
    exact Nat.zero_add nw

/-- ENCODE of N literals makes N to 2N - 1 reads, and one write for each byte of the encoding (R136). -/
theorem encode_counts (hop : s.eng.op = false) (hvalid : validInput (regionBytes s.mem s.eng.sb s.eng.sl) = true) :
    ∃ k t, Runs k s t ∧ t.status.done = true ∧
      t.resultLen = BitVec.ofNat 32 (Enc (regionBytes s.mem s.eng.sb s.eng.sl)).length ∧
      s.eng.sl.toNat ≤ accessTotal readCount k s ∧ accessTotal readCount k s ≤ 2 * s.eng.sl.toNat - 1 ∧
      accessTotal writeCount k s = (Enc (regionBytes s.mem s.eng.sb s.eng.sl)).length := by
  obtain ⟨nr, hloop, hmax, hmin⟩ := encoder_runs h.rewind hop (Nat.le_refl 0)
  rw [sourceRest_rewind] at hloop hmax hmin
  rw [encodeEnding_of_valid hvalid] at hloop hmin
  rw [length_regionBytes] at hmax hmin
  obtain ⟨k, hrun, hreads, hwrites⟩ := counts_from_handleCheck h hpt (congrArg loopHead hop) hloop
  refine ⟨k, _, hrun, rfl, ?_, hreads ▸ hmin rfl, hreads ▸ hmax, hwrites⟩
  simp [State.finish, State.rewind, advance]

/-- DECODE of a stream that `Dec` takes and whose output fits makes one read for each stream byte and one write for each
output byte (R161). -/
theorem decode_counts {Y : List Byte} (hop : s.eng.op = true) (hY : Dec (regionBytes s.mem s.eng.sb s.eng.sl) = .ok Y)
    (hfit : Y.length ≤ s.eng.dc.toNat) :
    ∃ k t, Runs k s t ∧ t.status.done = true ∧ accessTotal readCount k s = s.eng.sl.toNat ∧
      accessTotal writeCount k s = Y.length := by
  obtain ⟨nr, hloop, -, hall⟩ := decoder_runs h.rewind hop (Nat.zero_le _)
  have hending : decodeRest s.rewind = _ := (decodeEnding_of_ok s.eng.dc.toNat hY).trans (if_pos hfit)
  rw [hending] at hloop hall
  rw [sourceRest_rewind, length_regionBytes] at hall
  obtain ⟨k, hrun, hreads, hwrites⟩ := counts_from_handleCheck h hpt (congrArg loopHead hop) hloop
  exact ⟨k, _, hrun, rfl, hreads.trans (hall rfl), hwrites⟩

end

/-- Settles O43: the loops' accesses (`encoder_runs`, `decoder_runs`) from a START. -/
theorem commandAccessCounts : Obligations.CommandAccessCounts := by
  intro s hs hb hi hrange hsrc
  refine ⟨fun dv hvalid _ => ?_, fun Y hdst hov hout hY hfit => ?_⟩
  · obtain ⟨k, t, hrun, hdone, hlen, hmin, hmax, hwrites⟩ :=
      encode_counts (working_start_encode dv hs.mem hi hrange hsrc) rfl rfl hvalid
    replace hlen := (congrArg BitVec.toNat hlen).trans (toNat_Enc_regionBytes_length s.mem s.srcBase s.srcLen)
    exact ⟨_, k, t, whenIdle_idle _ hb, hrun, hdone, hmin, hmax, hwrites.trans hlen.symm,
      hlen.trans_le (Enc_regionBytes_length_le _ _ _)⟩
  · obtain ⟨k, t, hrun, hdone, hreads, hwrites⟩ :=
      decode_counts (working_start_decode hs.mem hi hrange hsrc hdst hout hov) rfl rfl hY hfit
    exact ⟨_, k, t, whenIdle_idle _ hb, hrun, hdone, hreads, hwrites⟩

end Sys2Proof.Machine

/-! The decoder one step at a time (42_decoder): the reads of a token and its writes, each by the tests made after it, as
steps of the token's instruction and of the engine (R150 to R156). -/

namespace Sys2Proof.Machine

/-! ### The ends of a step -/

/-- An error completion, whatever the step did to memory and to the engine before it (R186). -/
theorem raised_of_work (s : State) (m : Memory) (r : Eng) (e : ErrorKind) (pos : Word) :
    Raised s e pos (State.raise e pos { s with mem := m, eng := r }) :=
  ⟨rfl, rfl, rfl, rfl, ⟨rfl, rfl, rfl, rfl, rfl, rfl, rfl, rfl, rfl⟩⟩

/-- A success completion, whatever the step did to memory and to the engine before it (R185). -/
theorem completed_of_work (s : State) (m : Memory) (r : Eng) (len : Word) :
    Completed s len (State.complete len { s with mem := m, eng := r }) :=
  ⟨rfl, rfl, rfl, rfl, ⟨rfl, rfl, rfl, rfl, rfl, rfl, rfl, rfl, rfl⟩⟩

/-- After an error the engine makes no access (R197). -/
theorem nextAccess_of_raised {s t : State} {e : ErrorKind} {pos : Word} (h : Raised s e pos t) :
    nextAccess t = none := by
  simp only [nextAccess, h.phase]

/-- A read of ordinary memory that ends in an error. -/
theorem access_raises {s : State} {o : Result} {a : Nat} {e : ErrorKind} {pos : Word}
    (hk : addressKind s.platform a = .ordinary) (ho : o = engineAccess a s (s.raise e pos)) :
    ∃ t, o = .next t ∧ Raised s e pos t ∧ t.mem = s.mem :=
  ⟨_, ho.trans (engineAccess_ordinary _ hk), raised_of_work s s.mem s.eng e pos, rfl⟩

/-- An access that ends in an error and has answered. -/
theorem raised_of_access {s t : State} {o : Result} {a : Nat} {e : ErrorKind} {pos : Word}
    (ho : o = engineAccess a s (s.raise e pos)) (h : o = .next t) : Raised s e pos t := by
  obtain ⟨-, rfl⟩ := engineAccess_eq_next.1 (ho.symm.trans h)
  exact raised_of_work s s.mem s.eng e pos

/-- With stream left past a token of l bytes the loop goes on at the next token (R150, R151). -/
theorem endToken_more {s : State} {l : Nat} (h : s.eng.r.toNat + l < s.eng.sl.toNat) :
    s.endToken l = { s with
      eng := { s.eng with r := BitVec.ofNat 32 (s.eng.r.toNat + l), pt := .decFetch } } := by
  have hr := advance_toNat (Nat.lt_trans h (word_lt s.eng.sl))
  exact loopTest_more (s := { s with eng := { s.eng with r := advance s.eng.r l } }) .decFetch (hr.trans_lt h)

/-- At the end of the stream the command completes with the length written (R157). -/
theorem endToken_done {s : State} {l : Nat} (h : s.eng.r.toNat + l = s.eng.sl.toNat) :
    s.endToken l = s.complete s.eng.w := by
  have hr := advance_toNat (h.trans_lt (word_lt s.eng.sl))
  exact loopTest_done (s := { s with eng := { s.eng with r := advance s.eng.r l } }) .decFetch (hr.trans h).ge

/-! ### The reads of a token -/

section
variable {s : State} {b n : Byte}

theorem fetchLit_room (hw : s.eng.w.toNat < s.eng.dc.toNat) :
    fetchLit b s = engineAccess (tokenAddress s 0) s { s with eng := { s.eng with lit := b, pt := .decLit } } :=
  congrArg (engineAccess _ s) (checkCapacity_room (s := { s with eng := { s.eng with lit := b } }) .decLit hw)

theorem fetchLit_full (hw : s.eng.dc.toNat ≤ s.eng.w.toNat) :
    fetchLit b s = engineAccess (tokenAddress s 0) s (s.raise .destinationOverflow s.eng.r) :=
  congrArg (engineAccess _ s) (checkCapacity_full (s := { s with eng := { s.eng with lit := b } }) .decLit hw)

theorem fetchHeader_more (hr : s.eng.r.toNat + 1 < s.eng.sl.toNat) :
    fetchHeader b s = engineAccess (tokenAddress s 0) s { s with eng := { s.eng with lit := b, pt := .decLength } } :=
  congrArg (engineAccess _ s) (if_pos hr)

theorem fetchHeader_last (hr : s.eng.sl.toNat ≤ s.eng.r.toNat + 1) :
    fetchHeader b s = engineAccess (tokenAddress s 0) s (s.raise .malformedStream s.eng.r) :=
  congrArg (engineAccess _ s) (if_neg (Nat.not_lt.2 hr))

theorem fetchLength_short (hn : n.toNat < 2) :
    fetchLength n s = engineAccess (tokenAddress s 1) s (s.raise .malformedStream s.eng.r) :=
  congrArg (engineAccess _ s) (if_pos hn)

theorem fetchLength_room (hn : 2 ≤ n.toNat) (hw : s.eng.w.toNat < s.eng.dc.toNat) :
    fetchLength n s =
      engineAccess (tokenAddress s 1) s { s with eng := { s.eng with len := n, k := 0, pt := .decRun } } :=
  congrArg (engineAccess _ s) ((if_neg (Nat.not_lt.2 hn)).trans
    (checkCapacity_room (s := { s with eng := { s.eng with len := n, k := 0 } }) .decRun hw))

theorem fetchLength_full (hn : 2 ≤ n.toNat) (hw : s.eng.dc.toNat ≤ s.eng.w.toNat) :
    fetchLength n s = engineAccess (tokenAddress s 1) s (s.raise .destinationOverflow s.eng.r) :=
  congrArg (engineAccess _ s) ((if_neg (Nat.not_lt.2 hn)).trans
    (checkCapacity_full (s := { s with eng := { s.eng with len := n, k := 0 } }) .decRun hw))

end

/-! ### The writes of a token -/

section
variable {s : State} {n : Byte}

theorem nextCopy_room (hk : s.eng.k.toNat + 1 < n.toNat) (hw : s.eng.w.toNat < s.eng.dc.toNat) :
    s.nextCopy n = { s with eng := { s.eng with k := s.eng.k + 1, pt := .decRun } } :=
  (if_pos hk).trans (checkCapacity_room (s := { s with eng := { s.eng with k := s.eng.k + 1 } }) .decRun hw)

theorem nextCopy_full (hk : s.eng.k.toNat + 1 < n.toNat) (hw : s.eng.dc.toNat ≤ s.eng.w.toNat) :
    s.nextCopy n = s.raise .destinationOverflow s.eng.r :=
  (if_pos hk).trans (checkCapacity_full (s := { s with eng := { s.eng with k := s.eng.k + 1 } }) .decRun hw)

theorem nextCopy_last (hk : n.toNat ≤ s.eng.k.toNat + 1) :
    s.nextCopy n = State.endToken 2 { s with eng := { s.eng with k := s.eng.k + 1 } } :=
  if_neg (Nat.not_lt.2 hk)

end

/-- A write with room for it moves the write cursor on by 1 (R8, R154). -/
theorem emit_w {s : State} (v : Byte) (hw : s.eng.w.toNat < s.eng.dc.toNat) :
    (s.emit v).eng.w.toNat = s.eng.w.toNat + 1 :=
  advance_toNat (Nat.lt_of_le_of_lt hw (word_lt s.eng.dc))

/-- With more copies to write and no room after this one, it is written and the next one overflows (R154). -/
theorem raised_nextCopy {s : State} {n : Byte} (v : Byte) (hk : s.eng.k.toNat + 1 < n.toNat)
    (hw : s.eng.w.toNat + 1 = s.eng.dc.toNat) : Raised s .destinationOverflow s.eng.r ((s.emit v).nextCopy n) := by
  have hfull := hw.ge.trans_eq (emit_w v (Nat.lt_of_succ_le hw.le)).symm
  rw [nextCopy_full (s := s.emit v) hk hfull]
  exact raised_of_work s _ _ _ _

section
variable {s t : State} {v k : Byte} {l : Nat}
  (ht : t = State.endToken l { s.emit v with eng := { (s.emit v).eng with k := k } })
include ht

/-- After the last write of a token of l bytes, with stream left past it, the loop goes on at the next token (R151). -/
theorem token_written_more (h : s.eng.r.toNat + l < s.eng.sl.toNat) :
    t = { s with
      mem := t.mem,
      eng := { s.eng with
        w := BitVec.ofNat 32 (s.eng.w.toNat + 1), k := k, r := BitVec.ofNat 32 (s.eng.r.toNat + l),
        pt := .decFetch } } := by
  rw [ht, endToken_mem]
  exact endToken_more (s := { s.emit v with eng := { (s.emit v).eng with k := k } }) h

/-- After the last write of the stream's last token the command completes with the length written (R157). -/
theorem token_written_done (h : s.eng.r.toNat + l = s.eng.sl.toNat) :
    Completed s (BitVec.ofNat 32 (s.eng.w.toNat + 1)) t := by
  rw [ht, endToken_done (s := { s.emit v with eng := { (s.emit v).eng with k := k } }) h]
  exact completed_of_work s _ _ _

end

/-! ### The steps of LIT and RUN -/

section
variable {s : State} (hp : s.eng.phase = .running) (v : Literal) (n : Byte)
include hp

theorem exec_lit_decFetch (hpt : s.eng.pt = .decFetch) : exec (.lit v) s = fetchLit (literalByte v) s := by
  simp only [exec, execLit, hp, hpt]

theorem exec_lit_decLit (hpt : s.eng.pt = .decLit) : exec (.lit v) s = writeLit (literalByte v) s := by
  simp only [exec, execLit, hp, hpt]

theorem exec_run_decFetch (hpt : s.eng.pt = .decFetch) : exec (.run v n) s = fetchHeader (headerByte v) s := by
  simp only [exec, execRun, hp, hpt]

theorem exec_run_decLength (hpt : s.eng.pt = .decLength) : exec (.run v n) s = fetchLength n s := by
  simp only [exec, execRun, hp, hpt]

theorem exec_run_decRun (hpt : s.eng.pt = .decRun) : exec (.run v n) s = writeCopy (literalByte v) n s := by
  simp only [exec, execRun, hp, hpt]

end

/-- Settles O33, by the capacity test after the read and the loop's test after the write. -/
theorem litWritesItsValue : Obligations.LitWritesItsValue := by
  intro s v hs hp
  refine ⟨fun hpt hk => ?_, fun hpt hk => ?_⟩
  · rw [exec_lit_decFetch hp v hpt]
    refine ⟨fun hw => ?_, fun hw => access_raises hk (fetchLit_full hw)⟩
    rw [fetchLit_room hw]
    exact engineAccess_ordinary _ hk
  · refine ⟨_, (exec_lit_decLit hp v hpt).trans (engineAccess_ordinary _ hk), ?_,
      token_written_more (k := s.eng.k) rfl, token_written_done (k := s.eng.k) rfl⟩
    rw [endToken_mem]
    exact storedByte_write _ _ hs.mem

/-- Settles O34: the tests after each read, and after a write the repeat counter's, the capacity's and the loop's. -/
theorem runWritesItsCopies : Obligations.RunWritesItsCopies := by
  intro s v n hs hp
  refine ⟨fun hpt hk => ?_, fun hpt hk => ?_, fun hpt _ hk => ?_⟩
  · rw [exec_run_decFetch hp v n hpt]
    refine ⟨fun hr => ?_, fun hr => access_raises hk (fetchHeader_last hr)⟩
    rw [fetchHeader_more hr]
    exact engineAccess_ordinary _ hk
  · rw [exec_run_decLength hp v n hpt]
    refine ⟨fun hn => access_raises hk (fetchLength_short hn), fun hn hw => ?_,
      fun hn hw => access_raises hk (fetchLength_full hn hw)⟩
    rw [fetchLength_room hn hw]
    exact engineAccess_ordinary _ hk
  · have hlast (hend : s.eng.k.toNat + 1 = n.toNat) := nextCopy_last (s := s.emit (literalByte v)) hend.ge
    refine ⟨_, (exec_run_decRun hp v n hpt).trans (engineAccess_ordinary _ hk), ?_, fun hmore hw => ?_,
      fun hmore hw => raised_nextCopy _ hmore hw, fun hend => token_written_more (hlast hend),
      fun hend => token_written_done (hlast hend)⟩
    · rw [nextCopy_mem]
      exact storedByte_write _ _ hs.mem
    · have hroom := (emit_w (literalByte v) (Nat.lt_of_succ_lt hw)).trans_lt hw
      rw [nextCopy_mem, nextCopy_room (s := s.emit (literalByte v)) hmore hroom, ← hpt]
      rfl

/-! ### The errors of a step of the engine -/

/-- Settles O36: the read of a header with no length byte after it raises. -/
theorem truncatedRunIsMalformed : Obligations.TruncatedRunIsMalformed := by
  intro s hs hm hpt hk htag hend
  have hstep : step s = _ :=
    (step_engine hm).trans ((engineStep_decFetch_header hm.phase hpt htag).trans (fetchHeader_last hend.ge))
  obtain ⟨t, ht, hraised, hmem⟩ := access_raises hk hstep
  refine ⟨?_, t, ht, hraised, hmem, nextAccess_of_raised hraised⟩
  simp only [nextAccess, hm.phase, hpt]
  rfl

/-- At its length byte a RUN's step reads it (R153). -/
theorem step_decLength {s : State} (hs : s.Inv) (hm : EngineMoves s) (hpt : s.eng.pt = .decLength) :
    step s = fetchLength (s.mem.read (tokenAddress s 1)) s := by
  have hcur := hs.cursors hm.phase
  rw [hpt] at hcur
  obtain ⟨-, -, -, -, htag⟩ := hcur
  exact (step_engine hm).trans (engineStep_decLength hm.phase hpt htag)

/-- Settles O37: 0 and 1 are the lengths below 2, at which the read of the length byte raises. -/
theorem runLengthBelowTwoIsMalformed : Obligations.RunLengthBelowTwoIsMalformed := by
  intro s hs hm hpt hk hn
  have hshort : (s.mem.read (tokenAddress s 1)).toNat < 2 := by
    rcases hn with hn | hn <;> exact (congrArg BitVec.toNat hn).trans_lt (by decide)
  obtain ⟨t, ht, hraised, hmem⟩ := access_raises hk ((step_decLength hs hm hpt).trans (fetchLength_short hshort))
  exact ⟨t, ht, hraised, hmem, nextAccess_of_raised hraised⟩

/-! ### The writes stay in the destination -/

section
variable {s t : State} (hs : s.Inv) (hm : EngineMoves s)
include hs hm

/-- At its writes a RUN's step is one copy (R153). -/
theorem step_decRun (hpt : s.eng.pt = .decRun) : step s = writeCopy (s.eng.lit &&& 0x7F#8) s.eng.len s := by
  have hcur := hs.cursors hm.phase
  rw [hpt] at hcur
  obtain ⟨-, -, -, -, htag, -⟩ := hcur
  exact (step_engine hm).trans (engineStep_decRun hm.phase hpt htag)

variable (hop : s.eng.op = true)
include hop

/-- A write of a DECODE is at the write cursor, which is below the capacity, and its handles are valid (R118, R154). -/
theorem decode_write {a : Nat} (ha : nextAccess s = some (.write a)) :
    a = writeAddress s ∧ s.eng.w.toNat < s.eng.dc.toNat ∧ decodeHandlesOk s.eng = true := by
  have hcur := hs.cursors hm.phase
  cases hpt : s.eng.pt <;> rw [hpt] at hcur <;> simp [nextAccess, hm.phase, hpt] at ha
  case encLit | encHeader | encLength =>
    obtain ⟨hencode, -⟩ := hcur
    rw [hop] at hencode
    cases hencode
  case decLit | decRun =>
    obtain ⟨-, hhandles, -, hw, -⟩ := hcur
    exact ⟨ha.symm, hw, hhandles⟩

/-- A step of a DECODE changes no byte of its source, and none outside its destination (R68, R160). -/
theorem decode_step_keeps (h : step s = .next t) {a : Nat}
    (ha : inRegion s.eng.sb s.eng.sl a = true ∨ inRegion s.eng.db s.eng.dc a = false) :
    t.mem.read a = s.mem.read a := by
  refine (engineStepMakesItsOneAccess s t hs hm h).2 a fun hwrite => ?_
  obtain ⟨rfl, hw, hhandles⟩ := decode_write hs hm hop hwrite
  have hdst : inRegion s.eng.db s.eng.dc (writeAddress s) = true := inRegion_addressOf hw
  rcases ha with hsrc | hout
  · exact decodeHandles_disjoint hhandles _ ⟨hsrc, hdst⟩
  · exact ne_true_of_eq_false hout hdst

/-- A step of a DECODE ends it, or goes on with the same regions. -/
theorem decode_step_cases (h : step s = .next t) : t.eng.phase = .idle ∨
    t.Inv ∧ EngineMoves t ∧ t.eng.op = true ∧ t.eng.sb = s.eng.sb ∧ t.eng.sl = s.eng.sl ∧ t.eng.db = s.eng.db ∧
      t.eng.dc = s.eng.dc := by
  obtain ⟨hi, hr⟩ := step_stays_alone hm.inputs hm.unraced h
  obtain ⟨-, hgo | hend⟩ := engineStep_frame ((step_engine hm).symm.trans h)
  · exact .inr ⟨invariantKeptByEveryStep s t hs h, ⟨hi, hgo.phase.trans hm.phase, hr⟩, hgo.op.trans hop,
      hgo.sb, hgo.sl, hgo.db, hgo.dc⟩
  · exact .inl (congrArg Eng.phase hend.eng)

end

/-- Settles O38: the capacity test after each of the three accesses that a write may follow. -/
theorem capacityCheckedBeforeEveryWrite : Obligations.CapacityCheckedBeforeEveryWrite := by
  intro s t hs hm hop h
  refine ⟨fun a ha => ?_, fun a ha => decode_step_keeps hs hm hop h (.inr ha), fun hpt htag hw => ?_,
    fun hpt hn hw => ?_, fun hpt hk hw => ?_⟩
  · obtain ⟨rfl, hw, -⟩ := decode_write hs hm hop ha
    exact ⟨rfl, hw, inRegion_addressOf hw⟩
  · exact raised_of_access ((step_engine hm).trans ((engineStep_decFetch_lit hm.phase hpt htag).trans
      (fetchLit_full (congrArg BitVec.toNat hw).ge))) h
  · exact raised_of_access ((step_decLength hs hm hpt).trans (fetchLength_full hn (congrArg BitVec.toNat hw).ge)) h
  · rw [step_decRun hs hm hpt] at h
    obtain ⟨-, rfl⟩ := engineAccess_eq_next.1 h
    exact raised_nextCopy _ hk hw

/-- Settles O40, by induction on the steps: each keeps the bytes, and after the command's end nothing moves. -/
theorem decodeKeepsItsSource : Obligations.DecodeKeepsItsSource := by
  intro s t k hs hm hop hrun a ha
  induction k generalizing s with
  | zero =>
    obtain rfl := runs_zero_iff.1 hrun
    rfl
  | succ k ih =>
    obtain ⟨s', hstep, hrest⟩ := runs_succ_iff.1 hrun
    have hkeep := decode_step_keeps hs hm hop hstep ha
    rcases decode_step_cases hs hm hop hstep with hidle | ⟨hs', hm', hop', hsb, hsl, hdb, hdc⟩
    · obtain ⟨hi, -⟩ := step_stays_alone hm.inputs hm.unraced hstep
      rw [runs_idle hi hidle hrest, hkeep]
    · rw [← hsb, ← hsl, ← hdb, ← hdc] at ha
      rw [ih s' hs' hm' hop' hrest ha, hkeep]

end Sys2Proof.Machine

/-! The decoder (42_decoder): a whole token, and a started DECODE from its instruction to its end (R150 to R159). -/

namespace Sys2Proof.Machine

/-- Settles O41: the ending of a started DECODE is that of its source (`command_ends`), which for a DECODE is
`decodeEnding`. -/
theorem decodeEndsAsDec : Obligations.DecodeEndsAsDec := by
  intro s hs hb hi hrange hdst hov hsrc hout
  obtain ⟨k, t, hrun, -, hend⟩ := command_ends (working_start_decode hs.mem hi hrange hsrc hdst hout hov) rfl
  exact ⟨_, k, t, whenIdle_idle _ hb, hrun, hend⟩

/-! ### A whole token -/

/-- A DECODE at a token's first byte, in the invariant and on ordinary memory, is at work. -/
theorem working_of_decFetch {s : State} (hs : s.Inv) (hm : EngineMoves s) (hpt : s.eng.pt = .decFetch)
    (hsrc : ordinaryRegion s.platform s.eng.sb s.eng.sl) (hdst : ordinaryRegion s.platform s.eng.db s.eng.dc) :
    Working s ∧ s.eng.op = true := by
  have hcur := hs.cursors hm.phase
  rw [hpt] at hcur
  obtain ⟨hop, hhandles, -⟩ := hcur
  have hout : s.eng.outputBase = s.eng.db := by rw [Eng.outputBase, hop]; rfl
  refine ⟨⟨hm, (handlesOk_decode hop).trans hhandles, hsrc, ?_, hs.mem⟩, hop⟩
  rwa [hout, outputLen_decode hop]

section
variable {s : State} {T : List Byte} (h : Working s) (hop : s.eng.op = true)
include h hop

/-- A LIT with room for its byte: one read and one write (R152). -/
theorem accesses_lit {b : Byte} (hX : sourceRest s = b :: T) (hb : tagOf b = false)
    (hw : s.eng.w.toNat + 1 ≤ s.eng.dc.toNat) :
    Accesses 1 1 (s.goto .decFetch)
      (State.loopTest .decFetch (State.pass [b] 1 (s.latch .decLit b s.eng.len s.eng.k))) := by
  have hfetch := accesses_fetchLit h hX hb
  rw [checkCapacity_room (s := s.latch .decFetch b s.eng.len s.eng.k) _ hw] at hfetch
  exact hfetch.trans
    (accesses_writeLit (s := s.latch .decLit b s.eng.len s.eng.k) hop (h.latch _ _ _ _) hw rfl hb)

/-- A RUN of length n with room for its copies: two reads and n writes (R153). -/
theorem accesses_run {b n : Byte} (hX : sourceRest s = b :: n :: T) (hb : tagOf b = true)
    (hn : Config.minRunToken ≤ n.toNat) (hw : s.eng.w.toNat + n.toNat ≤ s.eng.dc.toNat) :
    Accesses 2 n.toNat (s.goto .decFetch)
      (State.loopTest .decFetch
        (State.pass (List.replicate n.toNat (b &&& 0x7F#8)) 2 (s.latch .decRun b n n))) := by
  have hfetch := accesses_fetchRun h hX hb
  rw [loopTest_more .decFetch (sourceRest_head hX).1, if_neg (Nat.not_lt.2 hn)] at hfetch
  obtain ⟨d, hd⟩ : ∃ d, n.toNat = d + 1 := Nat.exists_eq_add_one.2 (Nat.lt_of_lt_of_le Nat.two_pos hn)
  have hcopies := accesses_copies (s := s.latch .decLength b n 0) hop (h.latch _ _ _ _) hb
    ((Nat.zero_add _).trans hd.symm) (hd ▸ hw)
  have hrun := hfetch.trans hcopies
  rw [Nat.zero_add, ← hd] at hrun
  exact hrun

/-- A token that is decoded and has room expands in one step for each of its bytes and of its copies (R152, R153). -/
theorem token_runs {i : Instr} {rest : List Byte} {v : Literal} {bytes copies : Nat}
    (hd : decodeToken (sourceRest s) = .ok i rest)
    (hi : i = .lit v ∧ bytes = 1 ∧ copies = 1 ∨ ∃ n, i = .run v n ∧ bytes = 2 ∧ copies = n.toNat ∧ 2 ≤ n.toNat)
    (hw : s.eng.w.toNat + copies ≤ s.eng.dc.toNat) :
    ∃ p lit len k, Runs (bytes + copies) (s.goto .decFetch) (State.loopTest .decFetch
      (State.pass (List.replicate copies (literalByte v)) bytes (s.latch p lit len k))) := by
  obtain ⟨-, -, hread, -⟩ := decodeOfEncodeIsTheInstruction
  obtain ⟨tok, htok, hX⟩ := hread i _ rest hd
  rcases hi with ⟨rfl, rfl, rfl⟩ | ⟨n, rfl, rfl, rfl, hn⟩ <;> obtain rfl := Code.token.inj htok
  · exact ⟨_, _, _, _, (accesses_lit h hop hX (tagOf_literalByte v) hw).runs⟩
  · have hrun := accesses_run h hop hX (tagOf_headerByte v) hn hw
    rw [← literalByte_eq_and, literalOf_headerByte] at hrun
    exact ⟨_, _, _, _, hrun.runs⟩

end

/-- Bytes of one value stand where they were written, and no other byte has changed. -/
theorem Memory.read_writeAll_replicate {m : Memory} {base n : Nat} (v : Byte) (x : Nat) (hm : m.wf = true)
    (h : base + n ≤ Config.memBytes) :
    (m.writeAll base (List.replicate n v)).read x = if base ≤ x ∧ x < base + n then v else m.read x := by
  rw [Memory.read_writeAll _ _ hm (by rwa [List.length_replicate]), List.length_replicate]
  split
  · exact List.getD_replicate _ (by omega)
  · rfl

/-- Settles O35: the token's run (`token_runs`) leaves its copies in the destination and the loop's test to make. -/
theorem wholeTokenExpands : Obligations.WholeTokenExpands := by
  intro s i rest hs hm hpt hsrc hdst hd v bytes copies hi hw
  obtain ⟨h, hop⟩ := working_of_decFetch hs hm hpt hsrc hdst
  obtain ⟨p, lit, len, k, hrun⟩ := token_runs h hop hd hi hw
  have hgoto : s.goto .decFetch = s := by rw [State.goto, ← hpt]
  rw [hgoto] at hrun
  have hcopies : (List.replicate copies (literalByte v)).length = copies := List.length_replicate
  have hcursor : (s.pass (List.replicate copies (literalByte v)) bytes).eng.w = advance s.eng.w copies :=
    congrArg (advance s.eng.w) hcopies
  refine ⟨_, hrun, fun a => ?_, fun hmore => ?_, fun hend => ?_⟩
  · have hfit := output_fits h (out := List.replicate copies (literalByte v)) (by rwa [hcopies, outputLen_decode hop])
    rw [hcopies, outputBase_decode hop] at hfit
    rw [loopTest_mem, pass_decode (s := s.latch p lit len k) hop]
    exact Memory.read_writeAll_replicate _ a hs.mem hfit
  · have hr : (advance s.eng.r bytes).toNat = s.eng.r.toNat + bytes :=
      advance_toNat (Nat.lt_trans hmore (word_lt s.eng.sl))
    have hw' := (congrArg BitVec.toNat hcursor).trans (advance_toNat (Nat.lt_of_le_of_lt hw (word_lt s.eng.dc)))
    rw [loopTest_more .decFetch (hr.trans_lt hmore)]
    exact ⟨rfl, rfl, hm.phase, hr, hw', ⟨rfl, rfl, rfl, rfl, rfl, rfl, rfl, rfl, rfl⟩⟩
  · have hr : (advance s.eng.r bytes).toNat = s.eng.r.toNat + bytes :=
      advance_toNat (hend.trans_lt (word_lt s.eng.sl))
    rw [loopTest_done .decFetch (hr.trans hend).ge, ← advance_eq_ofNat, ← hcursor]
    exact completed_of_work s _ _ _

end Sys2Proof.Machine

/-! The codec's forms (43_codec_properties): what the first byte out of range tells of an input, `Enc` chunk by chunk, and
`Dec` of an encoding (R133, R135, R170, R172, R178). -/

namespace Sys2Proof.Machine

/-! ### The first byte out of range -/

/-- An input with a byte out of range is literals, the first such byte, and the rest (R135). -/
theorem exists_first_outOfRange {xs : List Byte} (h : validInput xs = false) :
    ∃ front c rest, xs = front ++ c :: rest ∧ validInput front = true ∧ tagOf c = true ∧
      firstOutOfRange xs = front.length := by
  induction xs with
  | nil => cases h
  | cons c xs ih =>
    cases hc : tagOf c with
    | true => exact ⟨[], c, xs, rfl, rfl, hc, by simp [firstOutOfRange, hc]⟩
    | false =>
      have hxs : validInput xs = false := by simpa [validInput, hc] using h
      obtain ⟨front, d, rest, rfl, hfront, hd, hfirst⟩ := ih hxs
      exact ⟨c :: front, d, rest, rfl, validInput_cons.2 ⟨hc, hfront⟩, hd, by simp [firstOutOfRange, hc, hfirst]⟩

/-- ENCODE of a byte out of range fails at the first one (R135). -/
theorem encodeEnding_of_invalid {xs : List Byte} (h : validInput xs = false) :
    encodeEnding xs =
      { err := some .outOfRangeLiteral, resultLen := 0, errPos := firstOutOfRange xs,
        written := Enc (xs.take (firstOutOfRange xs)) } :=
  if_neg (ne_true_of_eq_false h)

/-- No ENCODE leaves a result longer than its source (R170). -/
theorem encodeEnding_resultLen_le (xs : List Byte) : (encodeEnding xs).resultLen ≤ xs.length := by
  cases h : validInput xs with
  | true =>
    rw [encodeEnding_of_valid h]
    exact Enc_length_le xs
  | false =>
    rw [encodeEnding_of_invalid h]
    exact Nat.zero_le _

/-! ### `Enc` chunk by chunk -/

/-- What holds of the empty input, and of an input whenever it holds of what follows its first chunk, holds of every
input (R131). -/
theorem chunk_induction {p : List Byte → Prop} (nil : p [])
    (cons : ∀ v xs, p ((v :: xs).drop (chunkLength (v :: xs))) → p (v :: xs)) (xs : List Byte) : p xs := by
  induction hn : xs.length using Nat.strongRecOn generalizing xs with
  | _ n ih =>
    cases xs with
    | nil => exact nil
    | cons v xs =>
      refine cons v xs (ih _ ?_ _ rfl)
      have hpos := chunkLength_pos v xs
      have hlen := chunkLength_le_length (v :: xs)
      rw [List.length_drop]
      omega

/-- Decoding the encoding of literals gives them back (R172). -/
theorem Dec_Enc {xs : List Byte} (h : validInput xs = true) : Dec (Enc xs) = .ok xs := by
  induction xs using chunk_induction with
  | nil => exact Dec_nil
  | cons v xs ih =>
    obtain ⟨hv, -⟩ := validInput_cons.1 h
    rw [Enc_cons, Dec_chunkToken hv (chunkLength_pos v xs) (chunkLength_le_cap _), ih (validInput_drop _ h),
      DecResult.after, ← chunk_append]

theorem length_chunkToken (v : Byte) (L : Nat) : (chunkToken v L).length = if L = 1 then 1 else 2 := by
  unfold chunkToken
  split <;> rfl

/-- An encoding is as long as its input exactly when every chunk is of one byte or two (R170). -/
theorem Enc_length_eq_iff (xs : List Byte) : (Enc xs).length = xs.length ↔ ∀ L ∈ chunkLengths xs, L < 3 := by
  induction xs using chunk_induction with
  | nil => simp
  | cons v xs ih =>
    have hpos := chunkLength_pos v xs
    have hlen := chunkLength_le_length (v :: xs)
    have hrest := Enc_length_le ((v :: xs).drop (chunkLength (v :: xs)))
    rw [chunkLengths_cons, List.forall_mem_cons, ← ih, Enc_cons, List.length_append, length_chunkToken]
    rw [List.length_drop] at hrest ⊢
    split <;> omega

/-! ### `Enc` of inputs laid end to end -/

/-- The bytes past the end of a run that the next input does not go on with do not count. -/
theorem leading_append {v : Byte} {xs ys : List Byte} (h : ∀ c, (v :: xs).getLast? = some c → ys.head? ≠ some c) :
    leading v (xs ++ ys) = leading v xs := by
  induction xs with
  | nil =>
    have hv : ys.head? ≠ some v := h v rfl
    cases ys with
    | nil => rfl
    | cons y ys => simpa [leading] using hv
  | cons x xs ih =>
    rw [List.cons_append, leading, leading]
    by_cases hx : x = v
    · subst hx
      rw [if_pos rfl, if_pos rfl, ih (by simpa using h)]
    · rw [if_neg hx, if_neg hx]

/-- Where no physical run crosses from one input to the next, each is encoded as if alone (R131, R175). -/
theorem Enc_append {xs ys : List Byte} (h : ∀ c, xs.getLast? = some c → ys.head? ≠ some c) :
    Enc (xs ++ ys) = Enc xs ++ Enc ys := by
  induction xs using chunk_induction with
  | nil => rfl
  | cons v xs ih =>
    have hlen := chunkLength_le_length (v :: xs)
    have hchunk : chunkLength (v :: (xs ++ ys)) = chunkLength (v :: xs) := by
      rw [chunkLength, chunkLength, leading_append h]
    have hdrop : (v :: (xs ++ ys)).drop (chunkLength (v :: xs)) = (v :: xs).drop (chunkLength (v :: xs)) ++ ys :=
      List.drop_append_of_le_length hlen
    rw [List.cons_append, Enc_cons, hchunk, hdrop, ih, ← List.append_assoc, ← Enc_cons]
    intro c hc
    rw [List.getLast?_drop] at hc
    split at hc
    · cases hc
    · exact h c hc

/-- The first chunk of copies of one byte is all of them, or as many as a RUN holds (R131). -/
theorem chunkLength_replicate (v : Byte) (P : Nat) : chunkLength (List.replicate P v) = min 255 P := by
  cases P with
  | zero => rfl
  | succ P =>
    have h := leading_replicate v P []
    rw [List.append_nil] at h
    rw [List.replicate_succ, chunkLength, h]
    rfl

/-- Copies of one byte are encoded by the token of their first chunk and what is left of them. -/
theorem Enc_replicate {v : Byte} {P : Nat} (h : 1 ≤ P) :
    Enc (List.replicate P v) = chunkToken v (min 255 P) ++ Enc (List.replicate (P - min 255 P) v) := by
  obtain ⟨P, rfl⟩ := Nat.exists_eq_add_one.2 h
  rw [← List.drop_replicate, ← chunkLength_replicate v, List.replicate_succ, Enc_cons]

/-- As many full RUNs as go into a physical run, and the rest of it (R175). -/
theorem Enc_replicate_full (v : Byte) (q r : Nat) :
    Enc (List.replicate (255 * q + r) v) =
      (List.replicate q [v ||| 0x80#8, 0xFF#8]).flatten ++ Enc (List.replicate r v) := by
  induction q with
  | zero => simp
  | succ q ih =>
    have hcap : min 255 (255 * (q + 1) + r) = 255 := by omega
    have hrest : 255 * (q + 1) + r - 255 = 255 * q + r := by omega
    rw [Enc_replicate (by omega), hcap, hrest, ih, List.replicate_succ, List.flatten_cons, List.append_assoc]
    rfl

/-- A physical run below the cap is nothing, a LIT or a RUN (R175). -/
theorem Enc_replicate_short (v : Byte) {r : Nat} (h : r < 255) :
    Enc (List.replicate r v) =
      if r = 0 then [] else if r = 1 then [v] else [v ||| 0x80#8, BitVec.ofNat 8 r] := by
  rcases Nat.eq_zero_or_pos r with rfl | hpos
  · rfl
  · rw [Enc_replicate hpos, Nat.min_eq_right (Nat.le_of_lt h), Nat.sub_self, if_neg (Nat.ne_of_gt hpos)]
    exact List.append_nil _

/-- Settles O49: no run crosses the two boundaries (`Enc_append`), and the run between them is its full RUNs and the
rest. -/
theorem longRunsSplitAtTheCap : Obligations.LongRunsSplitAtTheCap := by
  intro X Y v P _ hP hX hY
  have hbefore : ∀ c, X.getLast? = some c → (List.replicate P v).head? ≠ some c := by
    rintro c hc hv
    rw [List.head?_replicate] at hv
    split at hv
    · cases hv
    · cases hv
      exact hX hc
  have hafter : ∀ c, (X ++ List.replicate P v).getLast? = some c → Y.head? ≠ some c := by
    intro c hc
    rcases hP with hpos | rfl
    · rw [List.getLast?_append, List.getLast?_replicate, if_neg (Nat.ne_of_gt hpos), Option.some_or] at hc
      cases hc
      exact hY
    · simp
  rw [Enc_append hafter, Enc_append hbefore, ← Enc_replicate_short v (Nat.mod_lt P (by decide)),
    ← Enc_replicate_full, Nat.div_add_mod]

/-! ### The tokens of an encoding -/

/-- The token of a chunk, as an instruction (R132). -/
def chunkInstr (v : Byte) (L : Nat) : Instr := if L = 1 then .lit (literalOf v) else .run (literalOf v) (BitVec.ofNat 8 L)

theorem encode_chunkInstr {v : Byte} (h : tagOf v = false) (L : Nat) :
    encode (chunkInstr v L) = .token (chunkToken v L) := by
  unfold chunkInstr chunkToken
  split
  · rw [encode, literalByte_literalOf h]
  · rw [encode, headerByte_eq_or h]

theorem chunkToken_eq_cons (v : Byte) (L : Nat) : ∃ b bs, chunkToken v L = b :: bs := by
  unfold chunkToken
  split <;> exact ⟨_, _, rfl⟩

theorem tokenValue_chunkInstr (v : Byte) (L : Nat) : tokenValue (chunkInstr v L) = some (literalOf v) := by
  unfold chunkInstr
  split <;> rfl

theorem chunkInstr_wf (v : Byte) {L : Nat} (h : 1 ≤ L) (h' : L ≤ 255) : (chunkInstr v L).wf = true := by
  unfold chunkInstr
  split
  · rfl
  · have hL : (BitVec.ofNat 8 L).toNat = L := Nat.mod_eq_of_lt (by omega)
    simp only [Instr.wf, hL, Config.minRunToken, decide_eq_true_eq]
    omega

/-- Two neighbour tokens of one value: the first is a RUN of length 255 (R176). -/
def CanonicalPair (i j : Instr) : Prop := tokenValue i = tokenValue j → ∃ v, i = .run v 255#8

/-- The tokens of the encoding of xs: its bytes are theirs, they are well formed, the first has the value of the first
byte, and any two neighbours are canonical. -/
structure TokensOfEnc (xs : List Byte) (is : List Instr) : Prop where
  bytes : tokenBytesOf is = Enc xs
  wf : ∀ i ∈ is, i.wf = true
  token : ∀ i ∈ is, ∃ b bs, encode i = .token (b :: bs)
  first : ∀ i ∈ is.head?, ∃ c, xs.head? = some c ∧ tokenValue i = some (literalOf c)
  canonical : is.IsChain CanonicalPair

/-- Bytes with tag 0 are their values (R84). -/
theorem literalOf_inj {b c : Byte} (hb : tagOf b = false) (hc : tagOf c = false) (h : literalOf b = literalOf c) :
    b = c := by
  rw [← literalByte_literalOf hb, h, literalByte_literalOf hc]

/-- The token of a chunk and the first one of the rest are canonical: below the cap the chunk ends at another byte
(R131, R176). -/
theorem canonicalPair_chunk {v : Byte} {xs : List Byte} {j : Instr} (h : validInput (v :: xs) = true)
    (hj : ∃ c, ((v :: xs).drop (chunkLength (v :: xs))).head? = some c ∧ tokenValue j = some (literalOf c)) :
    CanonicalPair (chunkInstr v (chunkLength (v :: xs))) j := by
  obtain ⟨c, hc, hjv⟩ := hj
  obtain ⟨hv, -⟩ := validInput_cons.1 h
  rw [List.head?_drop] at hc
  have hctag : tagOf c = false := by
    simpa using List.all_eq_true.1 h c (List.mem_of_getElem? hc)
  intro hsame
  rw [tokenValue_chunkInstr, hjv] at hsame
  obtain rfl := literalOf_inj hv hctag (Option.some.inj hsame)
  rcases (chunkLength_le_cap (v :: xs)).lt_or_eq with hlt | hfull
  · exact absurd rfl (chunkLength_stop hlt hc)
  · exact ⟨literalOf v, by rw [hfull]; rfl⟩

theorem exists_tokensOfEnc {xs : List Byte} (h : validInput xs = true) : ∃ is, TokensOfEnc xs is := by
  induction xs using chunk_induction with
  | nil => exact ⟨[], rfl, by simp, by simp, by simp, .nil⟩
  | cons v xs ih =>
    obtain ⟨hv, -⟩ := validInput_cons.1 h
    obtain ⟨is, hbytes, hwf, htoken, hfirst, hcanonical⟩ := ih (validInput_drop _ h)
    have hencode := encode_chunkInstr hv (chunkLength (v :: xs))
    obtain ⟨b, bs, hcons⟩ := chunkToken_eq_cons v (chunkLength (v :: xs))
    refine ⟨chunkInstr v (chunkLength (v :: xs)) :: is, ?_, ?_, ?_, ?_, ?_⟩
    · rw [tokenBytesOf_cons hencode, hbytes, ← Enc_cons]
    · exact List.forall_mem_cons.2 ⟨chunkInstr_wf v (chunkLength_pos v xs) (chunkLength_le_cap _), hwf⟩
    · exact List.forall_mem_cons.2 ⟨⟨b, bs, hencode.trans (congrArg _ hcons)⟩, htoken⟩
    · rintro i ⟨⟩
      exact ⟨v, rfl, tokenValue_chunkInstr v _⟩
    · exact List.isChain_cons.2 ⟨fun j hj => canonicalPair_chunk h (hfirst j hj), hcanonical⟩

/-- Settles O50: the tokens of the chunks are read back from the encoding, and neighbours are canonical. -/
theorem encodingIsCanonical : Obligations.EncodingIsCanonical := by
  intro X hX
  obtain ⟨is, hbytes, hwf, htoken, -, hcanonical⟩ := exists_tokensOfEnc hX
  refine ⟨is, ?_, hwf, fun k i j hi hj => ?_⟩
  · rw [← hbytes]
    exact tokensOf_tokenBytesOf htoken le_rfl
  · obtain ⟨hk, rfl⟩ := List.getElem?_eq_some_iff.1 hi
    obtain ⟨hk', rfl⟩ := List.getElem?_eq_some_iff.1 hj
    exact hcanonical.getElem k hk'

/-! ### How far a stream expands -/

/-- A stream that starts with a token decodes to what the token expands to and what the rest decodes to. -/
theorem Expands.dec_eq_ok {tok out T ys : List Byte} (hx : Expands tok out) (h : Dec (tok ++ T) = .ok ys) :
    ∃ zs, Dec T = .ok zs ∧ ys = out ++ zs := by
  rw [hx.dec] at h
  cases hT : Dec T with
  | ok zs =>
    rw [hT, DecResult.after, DecResult.ok.injEq] at h
    exact ⟨zs, rfl, h.symm⟩
  | err e p => simp [hT, DecResult.after] at h

/-- Every token of a stream that decodes is a LIT, or a RUN of at least 2 copies: at least as many bytes as the token, at
most 255 for two (R178). -/
theorem Dec_length {T ys : List Byte} (h : Dec T = .ok ys) :
    T.length ≤ ys.length ∧ ys.length ≤ 255 * (T.length / 2) + T.length % 2 := by
  induction T using Dec.induct generalizing ys with
  | case1 =>
    obtain rfl := DecResult.ok.inj (Dec_nil.symm.trans h)
    exact ⟨le_rfl, le_rfl⟩
  | case2 b hb => simp [Dec_truncated hb] at h
  | case3 b hb =>
    obtain rfl : [b] = ys := DecResult.ok.inj ((Dec_lit (Bool.eq_false_iff.2 hb) []).symm.trans h)
    exact ⟨le_rfl, by simp⟩
  | case4 b n T hb hn => simp [Dec_short hb hn] at h
  | case5 b n T hb hn ih =>
    have hn2 : 2 ≤ n.toNat := Nat.not_lt.1 hn
    have hn256 := n.isLt
    obtain ⟨zs, hT, rfl⟩ := (expands_run hb hn2).dec_eq_ok h
    have hzs := ih hT
    simp only [List.length_cons, List.length_append, List.length_replicate]
    omega
  | case6 b n T hb ih =>
    obtain ⟨zs, hT, rfl⟩ := (expands_lit (Bool.eq_false_iff.2 hb)).dec_eq_ok h
    have hzs := ih hT
    simp only [List.length_cons, List.length_append, List.length_nil] at hzs ⊢
    omega

/-- The only error of a stream is a malformed token (R155, R156, R159). -/
theorem Dec_err_kind {T : List Byte} {e : ErrorKind} {p : Nat} (h : Dec T = .err e p) : e = .malformedStream := by
  induction T using Dec.induct generalizing p with
  | case1 => simp at h
  | case2 b hb =>
    rw [Dec_truncated hb] at h
    exact (DecResult.err.inj h).1.symm
  | case3 b hb => simp [Dec, hb] at h
  | case4 b n T hb hn =>
    rw [Dec_short hb hn] at h
    exact (DecResult.err.inj h).1.symm
  | case5 b n T hb hn ih =>
    obtain ⟨q, hT, -⟩ := (expands_run hb (Nat.not_lt.1 hn)).dec_eq_err h
    exact ih hT
  | case6 b n T hb ih =>
    obtain ⟨q, hT, -⟩ := (expands_lit (Bool.eq_false_iff.2 hb)).dec_eq_err h
    exact ih hT

/-! ### How a DECODE ends, by the capacity -/

theorem boundedEnding_fits {T ys : List Byte} {cap : Nat} (fits : Ending) (h : ys.length ≤ cap) :
    boundedEnding T cap ys fits = fits := if_pos h

/-- Output that does not fit ends in DestinationOverflow (R159). -/
theorem boundedEnding_full {T ys : List Byte} {cap : Nat} (fits : Ending) (h : cap < ys.length) :
    boundedEnding T cap ys fits =
      { err := some .destinationOverflow, resultLen := 0, errPos := tokenHolding cap T, written := ys.take cap } :=
  if_neg (Nat.not_le.2 h)

/-- A DECODE is a bounded ending: of success with what its stream decodes to, or of MalformedStream after what stands
before the malformed token (R159). -/
theorem decodeEnding_eq_bounded (T : List Byte) : ∃ ys fits, ys.length ≤ 255 * (T.length / 2) + T.length % 2 ∧
    (∀ cap, decodeEnding T cap = boundedEnding T cap ys fits) ∧ fits.written = ys ∧
    (fits.err = none ∧ Dec T = .ok ys ∧ fits.resultLen = ys.length ∨
      fits.err = some .malformedStream ∧ fits.resultLen = 0) := by
  cases hT : Dec T with
  | ok ys => exact ⟨ys, _, (Dec_length hT).2, fun cap => decodeEnding_of_ok cap hT, rfl, .inl ⟨rfl, rfl, rfl⟩⟩
  | err e t =>
    obtain ⟨ys, hys⟩ := Dec_take_of_err hT
    obtain rfl := Dec_err_kind hT
    have hbound := (Dec_length hys).2
    rw [List.length_take] at hbound
    exact ⟨ys, _, by omega, fun cap => decodeEnding_of_err cap hT hys, rfl, .inr ⟨rfl, rfl⟩⟩

/-- No DECODE leaves a result longer than what it wrote. -/
theorem decodeEnding_resultLen_le (T : List Byte) (cap : Nat) :
    (decodeEnding T cap).resultLen ≤ (decodeEnding T cap).written.length := by
  obtain ⟨ys, fits, -, hend, hwritten, hlen⟩ := decodeEnding_eq_bounded T
  rw [hend]
  rcases Nat.lt_or_ge cap ys.length with hfull | hfit
  · rw [boundedEnding_full _ hfull]
    exact Nat.zero_le _
  · rw [boundedEnding_fits _ hfit, hwritten]
    rcases hlen with ⟨-, -, hlen⟩ | ⟨-, hlen⟩ <;> omega

/-- A DECODE that succeeds leaves the length of what its stream decodes to, and it fits (R159). -/
theorem decodeEnding_success {T : List Byte} {cap : Nat} (h : (decodeEnding T cap).err = none) :
    ∃ ys, Dec T = .ok ys ∧ ys.length ≤ cap ∧ (decodeEnding T cap).resultLen = ys.length := by
  obtain ⟨ys, fits, -, hend, -, hlen⟩ := decodeEnding_eq_bounded T
  rw [hend] at h ⊢
  rcases Nat.lt_or_ge cap ys.length with hfull | hfit
  · simp [boundedEnding_full _ hfull] at h
  · rw [boundedEnding_fits _ hfit] at h ⊢
    rcases hlen with ⟨-, hdec, hlen⟩ | ⟨herr, -⟩
    · exact ⟨ys, hdec, hfit, hlen⟩
    · simp [herr] at h

/-- With room for 255 bytes for every two of the stream, and 1 for a last odd one, no DECODE overflows (R178). -/
theorem decodeEnding_no_overflow {T : List Byte} {cap : Nat} (h : 255 * (T.length / 2) + T.length % 2 ≤ cap) :
    (decodeEnding T cap).err ≠ some .destinationOverflow := by
  obtain ⟨ys, fits, hbound, hend, -, hlen⟩ := decodeEnding_eq_bounded T
  rw [hend, boundedEnding_fits _ (hbound.trans h)]
  rcases hlen with ⟨herr, -⟩ | ⟨herr, -⟩ <;> rw [herr] <;> decide

end Sys2Proof.Machine

/-! The codec on the machine (43_codec_properties): what a started ENCODE or DECODE leaves, from any two states and one
after the other, and where ENCODE reads and writes (R170 to R174, R177, R178). -/

namespace Sys2Proof.Machine

/-! ### Runs and regions -/

/-- Every run keeps the invariant. -/
theorem runs_inv {k : Nat} {s t : State} (hs : s.Inv) (h : Runs k s t) : t.Inv := by
  induction k generalizing s with
  | zero => exact runs_zero_iff.1 h ▸ hs
  | succ k ih =>
    obtain ⟨s', hstep, hrest⟩ := runs_succ_iff.1 h
    exact ih (invariantKeptByEveryStep s s' hs hstep) hrest

/-- A region no longer than one of ordinary memory, at the same base, is of ordinary memory. -/
theorem ordinaryRegion_shorter {p : Platform} {base len len' : Word} (h : ordinaryRegion p base len)
    (hlen : len'.toNat ≤ len.toNat) : ordinaryRegion p base len' := fun a ha hin =>
  h a ha ((inRegion_iff _ _ _).2 (by have := (inRegion_iff _ _ _).1 hin; omega))

/-- What a command wrote, and then what stood there before. -/
theorem wroteOnly_slice {m m' : Memory} {base : Word} {ys : List Byte} {n : Nat} (h : wroteOnly m m' base ys)
    (hn : ys.length ≤ n) : m'.slice base.toNat n = ys ++ (m.slice base.toNat n).drop ys.length := by
  obtain ⟨hin, hout⟩ := h
  apply List.ext_getElem?
  intro i
  rcases Nat.lt_or_ge i ys.length with hi | hi
  · rw [Memory.getElem?_slice _ _ _ _ (by omega), hin i hi, List.getElem?_append_left hi,
      List.getD_eq_getElem _ _ hi, List.getElem?_eq_getElem hi]
  · rw [List.getElem?_append_right hi, List.getElem?_drop, Nat.add_sub_cancel' hi]
    rcases Nat.lt_or_ge i n with hin' | hin'
    · rw [Memory.getElem?_slice _ _ _ _ hin', Memory.getElem?_slice _ _ _ _ hin', hout _ (by omega)]
    · rw [List.getElem?_eq_none (by simpa using hin'), List.getElem?_eq_none (by simpa using hin')]

/-- The bytes a command wrote are read back. -/
theorem wroteOnly_slice_written {m m' : Memory} {base : Word} {ys : List Byte} (h : wroteOnly m m' base ys) :
    m'.slice base.toNat ys.length = ys := by
  rw [wroteOnly_slice h le_rfl, List.drop_eq_nil_of_le (Memory.length_slice _ _ _).le, List.append_nil]

/-- Equal regions stay equal when the same bytes are written at their starts. -/
theorem regionBytes_congr_of_wroteOnly {m m' u u' : Memory} {base base' len : Word} {ys : List Byte}
    (h : wroteOnly m u base ys) (h' : wroteOnly m' u' base' ys) (hlen : ys.length ≤ len.toNat)
    (hm : regionBytes m base len = regionBytes m' base' len) : regionBytes u' base' len = regionBytes u base len := by
  rw [regionBytes, regionBytes] at hm ⊢
  rw [wroteOnly_slice h hlen, wroteOnly_slice h' hlen, hm]

/-! ### A started ENCODE -/

section
variable {s : State} (dv : Bool) (hs : s.Inv) (hi : s.inputs = [])
  (hrange : s.srcBase.toNat + s.srcLen.toNat ≤ 2 ^ 32) (hsrc : ordinaryRegion s.platform s.srcBase s.srcLen)
include hs hi hrange hsrc

/-- A started ENCODE runs to the ending of its source (R133, R135). -/
theorem encode_ends : ∃ k t, Runs k (s.start false true dv) t ∧ SameOutside (s.start false true dv) t ∧
    endedAs (encodeEnding (regionBytes s.mem s.srcBase s.srcLen)) s.mem s.srcBase t :=
  command_ends (working_start_encode dv hs.mem hi hrange hsrc) rfl

/-- A started ENCODE of literals runs to success with their encoding in place (R133). -/
theorem encode_of_valid (hX : validInput (regionBytes s.mem s.srcBase s.srcLen) = true) :
    ∃ k t, Runs k (s.start false true dv) t ∧ SameOutside (s.start false true dv) t ∧
      t.status = { busy := false, done := true, err := none } ∧ t.eng.phase = .idle ∧
      t.resultLen = BitVec.ofNat 32 (Enc (regionBytes s.mem s.srcBase s.srcLen)).length ∧
      regionBytes t.mem s.srcBase t.resultLen = Enc (regionBytes s.mem s.srcBase s.srcLen) := by
  obtain ⟨k, t, hrun, hout, hend⟩ := encode_ends dv hs hi hrange hsrc
  rw [encodeEnding_of_valid hX] at hend
  obtain ⟨hstatus, hidle, hlen, -, hwrote⟩ := hend
  refine ⟨k, t, hrun, hout, hstatus, hidle, hlen, ?_⟩
  rw [hlen, regionBytes, toNat_Enc_regionBytes_length]
  exact wroteOnly_slice_written hwrote

end

/-- Settles O32: of a source with a byte out of range the ending is OutOfRangeLiteral at the first such byte
(`encodeEnding_of_invalid`). -/
theorem encodeRejectsOutOfRange : Obligations.EncodeRejectsOutOfRange := by
  rintro s dv X hs hb hi hrange hsrc rfl hX
  obtain ⟨k, t, hrun, -, hend⟩ := encode_ends dv hs hi hrange hsrc
  rw [encodeEnding_of_invalid hX] at hend
  obtain ⟨hstatus, -, hlen, hpos, hwrote⟩ := hend
  obtain ⟨front, c, rest, hsplit, hfront, hc, hfirst⟩ := exists_first_outOfRange hX
  have hlength := length_regionBytes s.mem s.srcBase s.srcLen
  rw [hfirst] at hpos hwrote
  rw [hsplit] at hwrote hlength ⊢
  rw [List.length_append, List.length_cons] at hlength
  have herrPos : t.errPos.toNat = front.length := by
    have hlt := word_lt s.srcLen
    rw [hpos]
    exact Nat.mod_eq_of_lt (by dsimp only; omega)
  refine ⟨_, k, t, whenIdle_idle _ hb, hrun, hstatus, ?_, hlen, ?_⟩
  · rw [readReg, Status.err_toWord, hstatus]
    rfl
  · rw [herrPos]
    exact ⟨by simp, by simpa using hc, by simpa using hfront, hwrote⟩

/-- Settles O48: by the lengths of the chunks' tokens, and by the result of any ending of ENCODE. -/
theorem encodingNeverExpands : Obligations.EncodingNeverExpands := by
  refine ⟨fun X _ => ⟨Enc_length_le X, Enc_length_eq_iff X⟩, fun s dv hs hb hi hrange hsrc => ?_⟩
  obtain ⟨k, t, hrun, -, hstatus, -, hlen, -⟩ := encode_ends dv hs hi hrange hsrc
  refine ⟨_, k, t, whenIdle_idle _ hb, hrun, by rw [hstatus], ?_⟩
  calc t.resultLen.toNat
      ≤ (encodeEnding (regionBytes s.mem s.srcBase s.srcLen)).resultLen := by rw [hlen]; exact Nat.mod_le _ _
    _ ≤ (regionBytes s.mem s.srcBase s.srcLen).length := encodeEnding_resultLen_le _
    _ = s.srcLen.toNat := length_regionBytes _ _ _

/-! ### Two states -/

/-- Two commands that end alike leave the same flags, length and error position. -/
theorem endedAs_congr {e : Ending} {m m' : Memory} {base base' : Word} {t t' : State} (h : endedAs e m base t)
    (h' : endedAs e m' base' t') : t'.status = t.status ∧ t'.resultLen = t.resultLen ∧ t'.errPos = t.errPos := by
  obtain ⟨hstatus, -, hlen, hpos, -⟩ := h
  obtain ⟨hstatus', -, hlen', hpos', -⟩ := h'
  exact ⟨hstatus'.trans hstatus.symm, hlen'.trans hlen.symm, hpos'.trans hpos.symm⟩

/-- Settles O45: the ending of a command is told by its source bytes and its capacity, and what it wrote by its
ending. -/
theorem commandsAreDeterministic : Obligations.CommandsAreDeterministic := by
  intro s s' hs hs' hb hb' hi hi' hsrc hsrc' hrange hrange' hlen hX
  refine ⟨fun dv dv' => ?_, fun hdst hdst' hcap hcap' hov hov' hdc => ?_⟩
  · obtain ⟨k, t, hrun, -, hend⟩ := encode_ends dv hs hi hrange hsrc
    obtain ⟨k', t', hrun', -, hend'⟩ := encode_ends dv' hs' hi' hrange' hsrc'
    rw [← hX] at hend'
    obtain ⟨hstatus, hresult, hpos⟩ := endedAs_congr hend hend'
    obtain ⟨hdone, -, -, -, hwrote⟩ := hend
    obtain ⟨-, -, -, -, hwrote'⟩ := hend'
    refine ⟨_, _, k, k', t, t', whenIdle_idle _ hb, whenIdle_idle _ hb', hrun, hrun', by rw [hdone], hstatus, hresult,
      hpos, ?_⟩
    rw [← hlen] at hX ⊢
    exact regionBytes_congr_of_wroteOnly hwrote hwrote'
      ((encodeEnding_written_le _).trans_eq (length_regionBytes _ _ _)) hX
  · obtain ⟨s₁, k, t, hstart, hrun, hend⟩ := decodeEndsAsDec s hs hb hi hrange hcap hov hsrc hdst
    obtain ⟨s₁', k', t', hstart', hrun', hend'⟩ := decodeEndsAsDec s' hs' hb' hi' hrange' hcap' hov' hsrc' hdst'
    rw [← hX, ← hdc] at hend'
    obtain ⟨hstatus, hresult, hpos⟩ := endedAs_congr hend hend'
    obtain ⟨hdone, -, hres, -, hwrote⟩ := hend
    obtain ⟨-, -, -, -, hwrote'⟩ := hend'
    have ⟨_, hkept⟩ := hwrote
    have ⟨_, hkept'⟩ := hwrote'
    have hfit := decodeEnding_written_le (regionBytes s.mem s.srcBase s.srcLen) s.dstCap.toNat
    refine ⟨s₁, s₁', k, k', t, t', _, hstart, hstart', hrun, hrun', by rw [hdone], hstatus, hresult, hpos, ?_, hfit, ?_,
      fun i hn _ => ⟨hkept _ (by omega), hkept' _ (by omega)⟩, fun hdest => ?_⟩
    · rw [hres]
      exact (Nat.mod_le _ _).trans (decodeEnding_resultLen_le _ _)
    · rw [wroteOnly_slice_written hwrote, wroteOnly_slice_written hwrote']
    · rw [← hdc] at hdest ⊢
      exact regionBytes_congr_of_wroteOnly hwrote hwrote' hfit hdest

/-! ### DECODE of an encoding -/

/-- The state after a DECODE of the encoding of X: X is in the destination, or it did not fit (R172). -/
def GivesBack (X : List Byte) (base cap : Word) (t : State) : Prop :=
  t.status.done = true ∧
    (X.length ≤ cap.toNat →
      t.status.err = none ∧ t.resultLen.toNat = X.length ∧ t.mem.slice base.toNat X.length = X) ∧
    (cap.toNat < X.length → t.status.err = some .destinationOverflow ∧ t.resultLen = 0)

/-- The ending of a DECODE of an encoding, by the capacity (R172). -/
theorem givesBack_of_endedAs {X : List Byte} {m : Memory} {base cap : Word} {t : State} (hX : validInput X = true)
    (h : endedAs (decodeEnding (Enc X) cap.toNat) m base t) : GivesBack X base cap t := by
  rw [decodeEnding_of_ok _ (Dec_Enc hX)] at h
  have ⟨hdone, _⟩ := h
  refine ⟨by rw [hdone], fun hfit => ?_, fun hfull => ?_⟩
  · rw [boundedEnding_fits _ hfit] at h
    obtain ⟨hstatus, -, hlen, -, hwrote⟩ := h
    refine ⟨by rw [hstatus], ?_, wroteOnly_slice_written hwrote⟩
    rw [hlen]
    exact Nat.mod_eq_of_lt (Nat.lt_of_le_of_lt hfit (word_lt cap))
  · rw [boundedEnding_full _ hfull] at h
    obtain ⟨hstatus, -, hlen, -⟩ := h
    exact ⟨by rw [hstatus], hlen⟩

/-- A started DECODE of an encoding gives the input back, or it did not fit (R172). -/
theorem decode_gives_back {s : State} {X : List Byte} (hX : validInput X = true) (hs : s.Inv)
    (hb : s.status.busy = false) (hi : s.inputs = []) (hrange : s.srcBase.toNat + s.srcLen.toNat ≤ 2 ^ 32)
    (hcap : s.dstBase.toNat + s.dstCap.toNat ≤ 2 ^ 32) (hov : overlap s.srcBase s.srcLen s.dstBase s.dstCap = false)
    (hsrc : ordinaryRegion s.platform s.srcBase s.srcLen) (hdst : ordinaryRegion s.platform s.dstBase s.dstCap)
    (hE : regionBytes s.mem s.srcBase s.srcLen = Enc X) :
    ∃ s₁ k t, exec (.decode true true) s = .next s₁ ∧ Runs k s₁ t ∧ GivesBack X s.dstBase s.dstCap t := by
  obtain ⟨s₁, k, t, hstart, hrun, hend⟩ := decodeEndsAsDec s hs hb hi hrange hcap hov hsrc hdst
  rw [hE] at hend
  exact ⟨s₁, k, t, hstart, hrun, givesBack_of_endedAs hX hend⟩

/-- Settles O47: a DECODE of an encoding gives the input back (`decode_gives_back`), and an ENCODE leaves the encoding for
the DECODE after it. -/
theorem roundTrip : Obligations.RoundTrip := by
  refine ⟨fun X hX => Dec_Enc hX, fun s X hX hs hb hi hrange hcap hov hsrc hdst hE =>
    decode_gives_back hX hs hb hi hrange hcap hov hsrc hdst hE, ?_⟩
  rintro s X db dc hs hb hi hrange hcap rfl hX hov hsrc hdst
  obtain ⟨k, t, hrun, hout, hstatus, hidle, hlen, hE⟩ := encode_of_valid false hs hi hrange hsrc hX
  have hle : t.resultLen.toNat ≤ s.srcLen.toNat := by
    rw [hlen, toNat_Enc_regionBytes_length]
    exact Enc_regionBytes_length_le _ _ _
  have hbase : t.srcBase = s.srcBase := hout.srcBase
  have hplatform : t.platform = s.platform := hout.platform
  have ht := runs_inv (start_inv hs.mem false true false) hrun
  refine ⟨_, k, t, whenIdle_idle _ hb, hrun, by rw [hstatus], by rw [hstatus], hlen, ?_⟩
  rw [← hlen] at hov
  refine decode_gives_back hX (inv_idle_registers ht hidle t.ctrl t.srcBase t.resultLen db dc) ?_ ?_ ?_ hcap ?_ ?_ ?_ ?_
    <;> dsimp only
  · rw [hstatus]
  · exact hout.inputs.trans hi
  · rw [hbase]
    omega
  · rwa [hbase]
  · rw [hbase, hplatform]
    exact ordinaryRegion_shorter hsrc hle
  · rwa [hplatform]
  · rwa [hbase]

/-- Settles O51: an encoding decodes to its input, and with capacity for the input that is success. -/
theorem encodingIsWellFormed : Obligations.EncodingIsWellFormed := by
  refine ⟨fun X hX e p h => ?_, fun s X hX hfit hs hb hi hrange hcap hov hsrc hdst hE => ?_⟩
  · rw [Dec_Enc hX] at h
    cases h
  · obtain ⟨s₁, k, t, hstart, hrun, hend⟩ := decodeEndsAsDec s hs hb hi hrange hcap hov hsrc hdst
    rw [hE, decodeEnding_of_ok _ (Dec_Enc hX), boundedEnding_fits _ hfit] at hend
    obtain ⟨hstatus, -⟩ := hend
    exact ⟨s₁, k, t, hstart, hrun, hstatus⟩

/-- Settles O52: by the lengths of the tokens (`Dec_length`), and by the ending of the stream. -/
theorem decoderExpansionBound : Obligations.DecoderExpansionBound := by
  refine ⟨fun T Y h => Dec_length h, fun s hs hb hi hrange hcap hov hsrc hdst => ?_⟩
  obtain ⟨s₁, k, t, hstart, hrun, hstatus, -, hlen, -⟩ := decodeEndsAsDec s hs hb hi hrange hcap hov hsrc hdst
  have hT := length_regionBytes s.mem s.srcBase s.srcLen
  refine ⟨s₁, k, t, hstart, hrun, by rw [hstatus], fun hok => ?_, fun hroom => ?_⟩
  · rw [hstatus] at hok
    obtain ⟨ys, hdec, hfit, hres⟩ := decodeEnding_success hok
    have hys : t.resultLen.toNat = ys.length := by
      rw [hlen, hres]
      exact Nat.mod_eq_of_lt (Nat.lt_of_le_of_lt hfit (word_lt s.dstCap))
    rw [hys, ← hT]
    exact Dec_length hdec
  · rw [← hT] at hroom
    rw [hstatus]
    exact decodeEnding_no_overflow hroom

/-! ### ENCODE in place -/

/-- The end of a scan inside the source moves the read cursor on (R131). -/
theorem endScan_r_le {s : State} (h : s.eng.r.toNat + s.eng.len.toNat ≤ s.eng.sl.toNat) :
    s.eng.r.toNat ≤ s.endScan.eng.r.toNat := by
  have hr : s.endScan.eng.r.toNat = s.eng.r.toNat + s.eng.len.toNat :=
    advance_toNat (Nat.lt_of_le_of_lt h (word_lt s.eng.sl))
  omega

/-- The scan's test keeps the read cursor or moves it on (R131). -/
theorem scanTest_r_le {s : State} (h : s.eng.r.toNat + s.eng.len.toNat ≤ s.eng.sl.toNat) :
    s.eng.r.toNat ≤ s.scanTest.eng.r.toNat := by
  rcases scanTest_cases s with ⟨-, -, he⟩ | ⟨-, he⟩ <;> rw [he]
  · exact le_rfl
  · exact endScan_r_le h

/-- Where the loop goes on, its test has kept the read cursor (R130). -/
theorem loopTest_r {s : State} {p : Point} (h : (s.loopTest p).eng.phase = .running) :
    (s.loopTest p).eng.r = s.eng.r := by
  rcases loopTest_cases s p with ⟨-, he⟩ | ⟨-, he⟩ <;> rw [he] at h ⊢
  · rfl
  · cases h

section
variable {s : State} (hc : s.eng.CursorsAt s.eng.pt) (hop : s.eng.op = false) (hpt : s.eng.pt ≠ .handleCheck)
include hc hop hpt

/-- The points of an ENCODE past its handle check (R130 to R132). -/
theorem encode_points : s.eng.pt = .encLoad ∨ s.eng.pt = .encPeek ∨ s.eng.pt = .encLit ∨ s.eng.pt = .encHeader ∨
    s.eng.pt = .encLength := by
  cases hpt' : s.eng.pt <;> rw [hpt'] at hc
  case handleCheck => exact absurd hpt' hpt
  case decFetch | decLit | decLength | decRun =>
    obtain ⟨hdecode, -⟩ := hc
    rw [hop] at hdecode
    cases hdecode
  all_goals simp

/-- ENCODE writes below its read cursor and reads from there on, and the write cursor has not passed it (R171). -/
theorem encode_access_order (hp : s.eng.phase = .running) :
    (∀ a, nextAccess s = some (.write a) → a < s.eng.sb.toNat + s.eng.r.toNat) ∧
      (∀ a, nextAccess s = some (.read a) → s.eng.sb.toNat + s.eng.r.toNat ≤ a) ∧ s.eng.w.toNat ≤ s.eng.r.toNat := by
  rcases encode_points hc hop hpt with h | h | h | h | h <;> rw [h] at hc <;> obtain ⟨-, -, hw, -⟩ := hc
  all_goals
    simp only [nextAccess, hp, h, Option.some.injEq, Access.read.injEq, Access.write.injEq, sourceAddress, addressOf,
      forall_eq', reduceCtorEq, false_implies, implies_true, true_and]
    omega

/-- ENCODE's read cursor never moves back (R171). -/
theorem encode_r_le {t : State} (h : engineStep s = .next t) (ht : t.eng.phase = .running) :
    s.eng.r.toNat ≤ t.eng.r.toNat := by
  rcases encode_points hc hop hpt with hpt | hpt | hpt | hpt | hpt <;> rw [hpt] at hc <;>
    rw [engineStep, hpt] at h <;> obtain ⟨-, rfl⟩ := engineAccess_eq_next.1 h
  · obtain ⟨-, -, -, hr⟩ := hc
    dsimp only at ht ⊢
    split at ht
    · cases ht
    · rename_i htag
      rw [if_neg htag]
      exact scanTest_r_le (s := { s with eng := { s.eng with lit := _, len := 1 } }) hr
  · obtain ⟨-, -, -, hr, -, hlen, -⟩ := hc
    have hlen' := byte_succ hlen
    split
    · exact scanTest_r_le (s := { s with eng := { s.eng with len := s.eng.len + 1 } }) (by dsimp only; omega)
    · exact endScan_r_le (Nat.le_of_lt hr)
  · rw [loopTest_r ht]
  · exact le_rfl
  · rw [loopTest_r ht]

end

/-- Settles O30, by the cursors at the point of the access (`encode_access_order`) and by the read cursor after the step
(`encode_r_le`). -/
theorem inPlaceSafety : Obligations.InPlaceSafety := by
  intro s t hs hm hop h
  have hc := hs.cursors hm.phase
  rw [step_engine hm] at h
  by_cases hpt : s.eng.pt = .handleCheck
  · simp [nextAccess, hm.phase, hpt]
  · obtain ⟨hwrite, hread, hcursors⟩ := encode_access_order hc hop hpt hm.phase
    exact ⟨hwrite, hread, fun _ => hcursors, fun _ ht => encode_r_le hc hop hpt h ht⟩

end Sys2Proof.Machine

/-! The end of a command (60_exceptions): the two completions and the words STATUS then shows, the order of the errors
within a RUN, and the result that stays in an idle block until the next START or reset. -/

namespace Sys2Proof.Machine

/-! ### Completion -/

theorem nextAccess_idle {s : State} (hp : s.eng.phase = .idle) : nextAccess s = none := by
  simp only [nextAccess, hp]

/-- An engine step that ends its command is one of the two completions (R185, R186). -/
theorem completed_or_raised {s t : State} (ho : SameOutside s t) (he : Ends s t) :
    Completed s t.resultLen t ∨ ∃ e, Raised s e t.errPos t := by
  have hp : t.eng.phase = .idle := by rw [he.eng, Eng.unspecified_phase]
  rcases he.how with ⟨hst, hpos⟩ | ⟨e, hst, hlen⟩
  · exact .inl ⟨hst, rfl, hpos, hp, ho⟩
  · exact .inr ⟨e, hst, hlen, rfl, hp, ho⟩

/-- Each error kind has its own code, and STATUS with it its own word (R93, R180). -/
theorem errorKind_code_word (e : ErrorKind) :
    e = .invalidHandle ∧ e.code = 1 ∧ (flagsError e).toWord = 0x12 ∨
      e = .outOfRangeLiteral ∧ e.code = 2 ∧ (flagsError e).toWord = 0x22 ∨
      e = .malformedStream ∧ e.code = 3 ∧ (flagsError e).toWord = 0x32 ∨
      e = .destinationOverflow ∧ e.code = 4 ∧ (flagsError e).toWord = 0x42 := by
  cases e with
  | invalidHandle => exact .inl ⟨rfl, rfl, rfl⟩
  | outOfRangeLiteral => exact .inr (.inl ⟨rfl, rfl, rfl⟩)
  | malformedStream => exact .inr (.inr (.inl ⟨rfl, rfl, rfl⟩))
  | destinationOverflow => exact .inr (.inr (.inr ⟨rfl, rfl, rfl⟩))

/-- Settles O26: a command that goes on keeps BUSY, so the step is one that ends it. -/
theorem completionIsSuccessOrError : Obligations.CompletionIsSuccessOrError := by
  intro s t hs hm h hb
  rw [step_engine hm] at h
  obtain ⟨ho, hgo | he⟩ := engineStep_frame h
  · rw [hgo.status, hs.flags.busy_iff.2 hm.phase] at hb
    cases hb
  · rcases completed_or_raised ho he with hc | ⟨e, hr⟩
    · exact ⟨.inl ⟨_, hc, congrArg Status.toWord hc.status⟩, nextAccess_idle hc.phase⟩
    · have hword : readReg .status t = (flagsError e).toWord := congrArg Status.toWord hr.status
      refine ⟨.inr ⟨e, _, hr, ?_⟩, nextAccess_idle hr.phase⟩
      rw [hword]
      exact errorKind_code_word e

/-! ### The order of the errors -/

/-- Settles O39: neither the test for a truncated RUN nor that for a short one reads the capacity, and the capacity test
comes after them. -/
theorem malformedBeatsOverflow : Obligations.MalformedBeatsOverflow := by
  intro s hs hm hfull
  refine ⟨fun hpt hk htag hend => ?_, fun hpt hk => ⟨fun hn => ?_, fun hn => ?_⟩⟩
  · obtain ⟨-, t, ht, hraised, -, -⟩ := truncatedRunIsMalformed s hs hm hpt hk htag hend
    exact ⟨t, ht, hraised⟩
  · obtain ⟨t, ht, hraised, -⟩ := access_raises hk ((step_decLength hs hm hpt).trans (fetchLength_short hn))
    exact ⟨t, ht, hraised⟩
  · have hw : s.eng.dc.toNat ≤ s.eng.w.toNat := by rw [hfull]
    obtain ⟨t, ht, hraised, -⟩ := access_raises hk ((step_decLength hs hm hpt).trans (fetchLength_full hn hw))
    exact ⟨t, ht, hraised⟩

/-! ### The result stays -/

/-- The three parts of a result hold the same in both states (R189). -/
structure SameResult (s t : State) : Prop where
  status : t.status = s.status
  resultLen : t.resultLen = s.resultLen
  errPos : t.errPos = s.errPos

theorem setReg_keeps_result (g : Reg) (d : Word) (s : State) : SameResult s (setReg g d s) := by
  rw [setReg_eq]
  exact ⟨rfl, rfl, rfl⟩

/-- A host operation keeps the result, or is a CTRL write with START = 1 or a reset (R112, R113, R200). -/
theorem hostStep_result {op : HostOp} {s t : State} (h : hostStep op s = .next t) :
    SameResult s t ∨
      (∃ d, op = .write (s.platform.regBase + Reg.ctrl.offset) Config.hostWidth d ∧ d.getLsbD 0 = true) ∨
      op = .reset := by
  cases op with
  | read addr width =>
    obtain ⟨g, -, rfl⟩ := hostRead_eq_next h
    exact .inl ⟨rfl, rfl, rfl⟩
  | write addr width d =>
    obtain ⟨g, ha, hw⟩ := hostWrite_eq_next h
    rcases writeReg_cases hw with ⟨-, rfl⟩ | ⟨-, -, rfl⟩ | ⟨-, rfl, hd, -⟩ | ⟨-, -, -, rfl⟩
    · exact .inl ⟨rfl, rfl, rfl⟩
    · exact .inl (setReg_keeps_result g d s)
    · obtain ⟨rfl, rfl⟩ := admit_eq_some ha
      exact .inr (.inl ⟨d, rfl, hd⟩)
    · exact .inl ⟨rfl, rfl, rfl⟩
  | poll =>
    obtain rfl := Host.Outcome.next.inj h
    exact .inl ⟨rfl, rfl, rfl⟩
  | memRead a =>
    rw [hostMemRead_eq_next h]
    exact .inl ⟨rfl, rfl, rfl⟩
  | memWrite a v =>
    rcases hostMemWrite_eq_next h with ⟨-, rfl⟩ | ⟨-, rfl⟩ <;> exact .inl ⟨rfl, rfl, rfl⟩
  | reset => exact .inr (.inr rfl)

/-- A step of an idle block that is no START and no reset keeps the result (R189). -/
theorem idle_step_keeps_result {s t : State} (hp : s.eng.phase = .idle) (h : step s = .next t)
    (hstart : ¬ ∃ d rest, s.inputs = wr s.platform .ctrl d :: rest ∧ d.getLsbD 0 = true)
    (hreset : ¬ ∃ rest, s.inputs = .host .reset :: rest) : SameResult s t := by
  rcases step_cases h with ⟨-, hrun, -⟩ | ⟨-, rfl⟩ | ⟨op, rest, hi, hh⟩
  · rw [hp] at hrun
    cases hrun
  · exact ⟨rfl, rfl, rfl⟩
  · rcases hostStep_result hh with hsame | ⟨d, rfl, hd⟩ | rfl
    · exact ⟨hsame.status, hsame.resultLen, hsame.errPos⟩
    · exact absurd ⟨d, rest, hi, hd⟩ hstart
    · exact absurd ⟨rest, hi⟩ hreset

/-- Settles O13: while BUSY = 0 the engine is idle, so only the host can change a result. -/
theorem resultsStayUntilNextStart : Obligations.ResultsStayUntilNextStart := by
  intro s t hf hb h
  refine ⟨fun hstart hreset => ?_, ?_⟩
  · obtain ⟨hst, hlen, hpos⟩ := idle_step_keeps_result (phase_idle_of_not_busy hf hb) h hstart hreset
    exact ⟨hst, hlen, hpos⟩
  · rintro ⟨d, rest, hi, hd⟩
    obtain rfl := Host.Outcome.next.inj ((step_wr_start hi hb hd).symm.trans h)
    exact ⟨rfl, rfl, rfl, rfl⟩

/-! ### The idle engine -/

/-- A turn given to an idle engine passes (R32; log 1). -/
theorem scheduledEngineTurn_idle {s : State} (hp : s.eng.phase = .idle) : scheduledEngineTurn s = .next s := by
  rw [scheduledEngineTurn, engineTurn_idle hp]

theorem exec_lit_idle {s : State} (v : Literal) (hp : s.eng.phase = .idle) :
    exec (.lit v) s = .refused .notAtToken := by
  simp only [exec, execLit, hp]

theorem exec_run_idle {s : State} (v : Literal) (n : Byte) (hp : s.eng.phase = .idle) :
    exec (.run v n) s = .refused .notAtToken := by
  simp only [exec, execRun, hp]

/-- Settles O20: the access, the two kinds of engine turn, and the two tokens, each at phase IDLE. -/
theorem idleEngineDoesNothing : Obligations.IdleEngineDoesNothing :=
  fun s hp => ⟨nextAccess_idle hp, fun hi => step_idle hi hp,
    fun rest hi => (step_scheduled hi).trans (scheduledEngineTurn_idle (s := { s with inputs := rest }) hp),
    fun v n => ⟨exec_lit_idle v hp, exec_run_idle v n hp⟩⟩

end Sys2Proof.Machine

/-! The bound on a command's steps (R211): its handle check and one step for each access of its loop. -/

namespace Sys2Proof.Machine

/-- The most steps the latched command takes from its START to its end (R211). -/
def Eng.stepBound (e : Eng) : Nat :=
  if e.op then 1 + e.sl.toNat + e.dc.toNat else max 1 (3 * e.sl.toNat)

theorem stepBound_pos (e : Eng) : 1 ≤ e.stepBound := by
  unfold Eng.stepBound
  split <;> omega

section
variable {s : State} (h : Working s)
include h

/-- The loop of ENCODE makes at most 2N - 1 reads and N writes on N source bytes, whatever its ending (R136). -/
theorem encode_loop_within (hop : s.eng.op = false) :
    ∃ k, Runs k s.enterLoop (s.rewind.finish (encodeEnding (sourceRest s.rewind))) ∧ k + 1 ≤ s.eng.stepBound := by
  obtain ⟨nr, hloop, hreads, -⟩ := encoder_runs h.rewind hop (Nat.le_refl 0)
  have hwrites := encodeEnding_written_le (sourceRest s.rewind)
  rw [sourceRest_rewind, length_regionBytes] at hreads hwrites
  rw [enterLoop_eq, hop, Eng.stepBound, hop]
  exact ⟨_, hloop.runs, by rw [sourceRest_rewind, if_neg Bool.false_ne_true]; omega⟩

/-- The loop of DECODE makes at most one read for each stream byte and one write for each destination byte, whatever its
ending (R161). -/
theorem decode_loop_within (hop : s.eng.op = true) :
    ∃ k, Runs k s.enterLoop (s.rewind.finish (decodeRest s.rewind)) ∧ k + 1 ≤ s.eng.stepBound := by
  obtain ⟨nr, hloop, hreads, -⟩ := decoder_runs h.rewind hop (Nat.zero_le _)
  have hwrites : (decodeRest s.rewind).written.length ≤ s.eng.dc.toNat := decodeEnding_written_le _ _
  rw [sourceRest_rewind, length_regionBytes] at hreads
  rw [enterLoop_eq, hop, Eng.stepBound, hop]
  exact ⟨_, hloop.runs, by rw [if_pos rfl]; omega⟩

/-- A command that has entered its loop ends in what its handle check has left of the bound. -/
theorem loop_within : ∃ k t, Runs k s.enterLoop t ∧ k + 1 ≤ s.eng.stepBound ∧ t.status.busy = false ∧
    t.status.done = true := by
  cases hop : s.eng.op with
  | false =>
    obtain ⟨k, hrun, hk⟩ := encode_loop_within h hop
    exact ⟨k, _, hrun, hk, rfl, rfl⟩
  | true =>
    obtain ⟨k, hrun, hk⟩ := decode_loop_within h hop
    exact ⟨k, _, hrun, hk, rfl, rfl⟩

end

/-- A started command with its regions in ordinary memory ends within the bound: in its handle check if its handles are
not valid (R117, R118), else by its loop. -/
theorem command_within {s : State} (hm : EngineMoves s) (hpt : s.eng.pt = .handleCheck) (hwf : s.mem.wf = true)
    (hsrc : ordinaryRegion s.platform s.eng.sb s.eng.sl)
    (hout : ordinaryRegion s.platform s.eng.outputBase s.eng.outputLen) :
    ∃ k t, Runs k s t ∧ k ≤ s.eng.stepBound ∧ t.status.busy = false ∧ t.status.done = true := by
  cases hk : handlesOk s.eng with
  | false =>
    obtain ⟨t, hstep, hraised, -⟩ := handleCheck_raises hm hpt hk
    exact ⟨1, t, runs_one hstep, stepBound_pos _, congrArg Status.busy hraised.status,
      congrArg Status.done hraised.status⟩
  | true =>
    obtain ⟨k, t, hrun, hbound, hend⟩ := loop_within ⟨hm, hk, hsrc, hout, hwf⟩
    exact ⟨k + 1, t, runs_succ (step_enterLoop hm hpt hk) hrun, hbound, hend⟩

/-- Settles O42: a START leaves each command at its handle check, from where it ends within the bound. -/
theorem commandsEndWithinTheStepBound : Obligations.CommandsEndWithinTheStepBound := by
  intro s sv dv hs hb hi hsrc
  refine ⟨?_, fun hdst => ?_⟩
  · obtain ⟨k, t, hend⟩ := command_within (s := s.start false sv dv) ⟨hi, rfl, rfl⟩ rfl hs.mem hsrc hsrc
    exact ⟨_, k, t, whenIdle_idle _ hb, hend⟩
  · obtain ⟨k, t, hend⟩ := command_within (s := s.start true sv dv) ⟨hi, rfl, rfl⟩ rfl hs.mem hsrc hdst
    exact ⟨_, k, t, whenIdle_idle _ hb, hend⟩

end Sys2Proof.Machine

/-! Reset (R200 to R202): the registers it clears, the command it abandons, and the bytes that it frees with it. -/

namespace Sys2Proof.Machine

/-! ### The registers -/

theorem Ctrl.toWord_cleared : Ctrl.toWord ⟨false, false, false⟩ = 0 := rfl

theorem toWord_flagsReset : flagsReset.toWord = 0 := rfl

theorem readReg_resetEvent (g : Reg) (s : State) : readReg g s.resetEvent = 0 := by
  cases g with
  | ctrl => exact Ctrl.toWord_cleared
  | status => exact toWord_flagsReset
  | _ => rfl

/-- Settles O1: the state after reset has the registers that the reset input leaves. -/
theorem resetRegistersReadZero : Obligations.ResetRegistersReadZero := by
  refine ⟨fun g => ?_, rfl, nextAccess_idle rfl⟩
  rw [← readReg_resetEvent g State.reset]
  cases g <;> rfl

/-- Settles O59: the state after reset is idle, with no flag set and no result. -/
theorem invariantAfterReset : Obligations.InvariantAfterReset :=
  inv_of_idle rfl (by constructor <;> simp [State.reset, Eng.reset]) rfl rfl

/-! ### The abandoned command -/

theorem step_reset {s : State} {rest : List Turn} (hi : s.inputs = .host .reset :: rest) :
    step s = .next (State.resetEvent { s with inputs := rest }) :=
  step_host hi

theorem abandoned_running {s : State} (hp : s.eng.phase = .running) (hk : handlesOk s.eng = true) :
    s.abandoned = (s.eng.outputBase.toNat, s.eng.outputLen.toNat) :=
  if_pos ⟨hp, hk⟩

theorem abandoned_idle {s : State} (hp : s.eng.phase = .idle) : s.abandoned = (0, 0) := by
  simp [State.abandoned, hp]

theorem abandoned_invalid {s : State} (hk : handlesOk s.eng = false) : s.abandoned = (0, 0) := by
  simp [State.abandoned, hk]

/-- An idle engine has no command to abandon, and reset leaves its memory alone (R202). -/
theorem resetEvent_mem_idle {s : State} (hp : s.eng.phase = .idle) : s.resetEvent.mem = s.mem := by
  rw [State.resetEvent_mem, abandoned_idle hp]
  rfl

/-- Settles O2: every state's reset clears the registers, and an idle engine abandons nothing. -/
theorem resetInputClearsRegisters : Obligations.ResetInputClearsRegisters := fun s rest hi =>
  ⟨_, step_reset hi, fun g => readReg_resetEvent g _, rfl, rfl, rfl, rfl,
    fun hp => resetEvent_mem_idle (s := { s with inputs := rest }) hp⟩

/-- Where the handle check would fail, reset frees no byte (log 10). -/
theorem resetEvent_mem_invalid {s : State} (hk : handlesOk s.eng = false) : s.resetEvent.mem = s.mem := by
  rw [State.resetEvent_mem, abandoned_invalid hk]
  rfl

section
variable {s : State} {a : Nat} (hm : s.mem.wf = true) (hp : s.eng.phase = .running)
include hm hp

/-- A byte that the abandoned command could write holds a free value (R201). -/
theorem resetEvent_read_output (hk : handlesOk s.eng = true)
    (ha : inRegion s.eng.outputBase s.eng.outputLen a = true) :
    ∃ i, s.resetEvent.mem.read a = Config.freeByte i ∧ s.fresh ≤ i ∧ i < s.resetEvent.fresh := by
  rw [State.resetEvent_mem, State.resetEvent_fresh, abandoned_running hp hk,
    Memory.read_scramble _ _ hm (output_inRange hk)]
  rw [inRegion_iff] at ha
  exact ⟨_, if_pos ha, by omega, by omega⟩

/-- Reset keeps every byte that the abandoned command could not write (R201). -/
theorem resetEvent_read_other (ha : inRegion s.eng.outputBase s.eng.outputLen a = false) :
    s.resetEvent.mem.read a = s.mem.read a := by
  cases hk : handlesOk s.eng with
  | false => rw [resetEvent_mem_invalid hk]
  | true =>
    rw [State.resetEvent_mem, abandoned_running hp hk, Memory.read_scramble _ _ hm (output_inRange hk)]
    exact if_neg fun hin => ne_true_of_eq_false ha ((inRegion_iff _ _ _).2 hin)

/-- Reset keeps the source of an abandoned DECODE, which valid handles hold apart from its destination (R118, R201). -/
theorem resetEvent_read_source (hop : s.eng.op = true) (ha : inRegion s.eng.sb s.eng.sl a = true) :
    s.resetEvent.mem.read a = s.mem.read a := by
  cases hk : handlesOk s.eng with
  | false => rw [resetEvent_mem_invalid hk]
  | true =>
    have hapart := decodeHandles_disjoint ((handlesOk_decode hop).symm.trans hk) a
    refine resetEvent_read_other hm hp (Bool.eq_false_iff.2 fun hout => hapart ⟨ha, ?_⟩)
    simpa only [Eng.outputBase, Eng.outputLen, hop, if_true] using hout

end

/-- Settles O3: reset clears the flags and idles the engine, and the three rules above say what each byte holds. -/
theorem resetAbandonsRunningCommand : Obligations.ResetAbandonsRunningCommand := by
  intro s rest hs hp hi
  have hm : ({ s with inputs := rest } : State).mem.wf = true := hs.mem
  exact ⟨_, step_reset hi, rfl, rfl, rfl, rfl, nextAccess_idle rfl, fun hk a ha => resetEvent_read_output hm hp hk ha,
    fun a ha => resetEvent_read_other hm hp ha, fun hop a ha => resetEvent_read_source hm hp hop ha⟩

end Sys2Proof.Machine

/-! A race (R205): what another agent's access to a running command's regions does to the byte, to the engine's reads of
it, and to the command's end (log 9). -/

namespace Sys2Proof.Machine

/-! ### The other agent's access -/

section
variable {s : State} {a : Word} {v : Byte} {rest : List Turn}

section
variable (hk : addressKind s.platform a.toNat = .ordinary) (hr : raced a s = true)
include hk hr

theorem step_memWrite_raced (hi : s.inputs = .host (.memWrite a v) :: rest) :
    step s = .next (State.noteRace a.toNat { s with inputs := rest }) :=
  (step_host hi).trans ((foreignAccess_ordinary _ hk).trans (if_pos hr))

theorem step_memRead_raced (hi : s.inputs = .host (.memRead a) :: rest) :
    step s = .next { s with
      inputs := rest, bus := (Config.freeByte s.fresh).zeroExtend 32, fresh := s.fresh + 1 } :=
  (step_host hi).trans ((foreignAccess_ordinary _ hk).trans (if_pos hr))

end

/-- A turn that accesses the engine memory space answers as the platform does at its address (R51, log 12). -/
theorem step_foreignAccess (hi : s.inputs = .host (.memWrite a v) :: rest ∨ s.inputs = .host (.memRead a) :: rest) :
    ∃ o, step s = foreignAccess a { s with inputs := rest } o :=
  hi.elim (fun hi => ⟨_, step_host hi⟩) fun hi => ⟨_, step_host hi⟩

end

theorem foreignAccess_unbacked {a : Word} {s : State} (o : Result)
    (h : addressKind s.platform a.toNat = .unbacked) : foreignAccess a s o = .refused .hostUnbacked := by
  rw [foreignAccess, h]

theorem foreignAccess_device {a : Word} {s : State} (o : Result)
    (h : addressKind s.platform a.toNat = .device) : foreignAccess a s o = .refused .deviceRegion := by
  rw [foreignAccess, h]

theorem raced_iff (a : Word) (s : State) : raced a s = true ↔ s.status.busy = true ∧
    (inRegion s.eng.sb s.eng.sl a.toNat = true ∨ s.eng.op = true ∧ inRegion s.eng.db s.eng.dc a.toNat = true) := by
  simp only [raced, commandRegion, Bool.and_eq_true, Bool.or_eq_true]

/-! ### The engine's step in a race -/

/-- A step that its command survives is the one without a race, from the state whose raced byte it reads was redrawn. -/
theorem step_of_unraced {s t : State} (hi : s.inputs = []) (hp : s.eng.phase = .running)
    (ht : t.eng.phase = .running) (h : step { s.redraw with racedBytes := [] } = .next t) :
    step s = .next { t with racedBytes := s.racedBytes } := by
  have hp' : s.redraw.eng.phase = .running := by rwa [redraw_eng]
  have hm : EngineMoves { s.redraw with racedBytes := [] } := ⟨(redraw_outside s).inputs.trans hi, hp', rfl⟩
  have hengine := engineStep_racedBytes s.redraw.racedBytes hm.phase ((step_engine hm).symm.trans h)
  rw [step_turn hi, engineTurn_running hp, ← (redraw_outside s).racedBytes]
  exact (congrArg (settleRace s) hengine).trans (settleRace_running ht)

/-! ### The end of a raced command -/

/-- A raced command's step that ends it is the engine's, with the new end after it. -/
theorem raced_step_ends {s t : State} (hi : s.inputs = []) (hp : s.eng.phase = .running) (hr : s.racedBytes ≠ [])
    (h : step s = .next t) (ht : t.eng.phase = .idle) :
    ∃ u, engineStep s.redraw = .next u ∧ t = u.raceEnd s.eng := by
  obtain ⟨u, hu, ⟨rfl, hgoes⟩ | ⟨rfl, -, -⟩⟩ := engineTurn_eq_next hp ((step_turn hi).symm.trans h)
  · rcases hgoes with hnone | hrun
    · exact absurd hnone hr
    · rw [ht] at hrun
      cases hrun
  · exact ⟨u, hu, rfl⟩

/-- A redrawn byte is a raced one; every other byte stays. -/
theorem redraw_read_other {s : State} {a : Nat} (hm : s.mem.wf = true) (ha : a ∉ s.racedBytes) :
    s.redraw.mem.read a = s.mem.read a := by
  rcases redraw_cases s with h | ⟨b, hb, -, h⟩ <;> rw [h]
  exact Memory.read_write_other _ hm fun hab => ha (hab ▸ hb)

/-- An engine step writes inside the region its command could write (R68). -/
theorem engineStep_read_other {s t : State} {a : Nat} (hs : s.Inv) (hp : s.eng.phase = .running)
    (h : engineStep s = .next t) (ha : inRegion s.eng.outputBase s.eng.outputLen a = false) :
    t.mem.read a = s.mem.read a := by
  rcases engineStep_mem hp (hs.cursors hp) h with ⟨-, ⟨b, v, hb, hmem⟩ | ⟨-, hmem⟩⟩ <;> rw [hmem]
  have hin := nextAccess_write_inRegion hp (hs.cursors hp) hb
  exact Memory.read_write_other v hs.mem fun hab => by rw [hab, hin] at ha; cases ha

/-- The free values that an engine step uses are used up (log 8). -/
theorem engineStep_fresh {s t : State} (h : engineStep s = .next t) : s.fresh ≤ t.fresh := by
  rcases (engineStep_frame h).inside with hgo | hend
  · exact hgo.fresh.ge
  · rw [hend.fresh]
    exact Nat.le_add_right _ _

theorem redraw_engineStep_fresh {s u : State} (hu : engineStep s.redraw = .next u) : s.fresh ≤ u.fresh :=
  (redraw_fresh s).trans (engineStep_fresh hu)

/-- Memory after a raced command: a free value in each raced byte and in each byte that the command could write, and
every other byte as before its last step. -/
theorem raced_end_read {s u : State} (hs : s.Inv) (hp : s.eng.phase = .running)
    (hu : engineStep s.redraw = .next u) (hk : handlesOk s.eng = true) (a : Nat) :
    if a ∈ s.racedBytes ∨ inRegion s.eng.outputBase s.eng.outputLen a = true then
      ∃ i, (u.raceEnd s.eng).mem.read a = Config.freeByte i ∧ s.fresh ≤ i ∧ i < (u.raceEnd s.eng).fresh
    else (u.raceEnd s.eng).mem.read a = s.mem.read a := by
  have hs' := redraw_inv hs
  have hp' : s.redraw.eng.phase = .running := by rwa [redraw_eng]
  have hraced : u.racedBytes = s.racedBytes :=
    (engineStep_frame hu).outside.racedBytes.trans (redraw_outside s).racedBytes
  have hread := raceEnd_read (engineStep_wf hp' (hs'.cursors hp') hs'.mem hu)
    (fun b hb => (hs.races b (hraced ▸ hb)).2.1) hk a
  rw [hraced] at hread
  split
  case isTrue hin =>
    rw [if_pos hin] at hread
    obtain ⟨i, hi, hle, hlt⟩ := hread
    exact ⟨i, hi, (redraw_engineStep_fresh hu).trans hle, hlt⟩
  case isFalse hout =>
    rw [if_neg hout] at hread
    obtain ⟨hnot, hregion⟩ := not_or.1 hout
    rw [hread, engineStep_read_other hs' hp' hu (by rw [redraw_eng]; exact Bool.eq_false_iff.2 hregion),
      redraw_read_other hs.mem hnot]

/-- The flags and results after a raced command are those of its ending on a source of free bytes (R205). -/
theorem raceEnd_ending {e : Eng} (u : State) (hk : handlesOk e = true) :
    ∃ X : List Byte, X.length = e.sl.toNat ∧
      (∀ i, i < X.length → ∃ j, X.getD i 0 = Config.freeByte j ∧ u.fresh ≤ j ∧ j < (u.raceEnd e).fresh) ∧
      (u.raceEnd e).status = { busy := false, done := true, err := (e.endingOn X).err } ∧
      (u.raceEnd e).resultLen = BitVec.ofNat 32 (e.endingOn X).resultLen ∧
      (u.raceEnd e).errPos = BitVec.ofNat 32 (e.endingOn X).errPos := by
  refine ⟨freeBytes u.fresh e.sl.toNat, length_freeBytes _ _, fun i hi => ?_, ?_⟩
  · rw [length_freeBytes] at hi
    refine ⟨u.fresh + i, getD_freeBytes _ hi, Nat.le_add_right _ _, ?_⟩
    simp only [State.raceEnd, hk, if_true]
    omega
  · simp only [State.raceEnd, hk, if_true, and_self]

/-- A raced command whose handle check fails keeps the end of that check (R68). -/
theorem raceEnd_invalid {e : Eng} (u : State) (hk : handlesOk e = false) :
    u.raceEnd e = { u with racedBytes := [] } := by
  simp only [State.raceEnd, hk, Bool.false_eq_true, if_false]

/-- A handle check that fails raises InvalidHandle at 0, raced or not, and leaves no byte raced (R68, R117, R118). -/
theorem step_invalid {s : State} (hi : s.inputs = []) (hp : s.eng.phase = .running) (hpt : s.eng.pt = .handleCheck)
    (hk : handlesOk s.eng = false) : step s = .next { s.raise .invalidHandle 0 with racedBytes := [] } := by
  have hredraw : s.redraw = s := redraw_eq_self fun a _ => by simp [nextAccess, hp, hpt]
  have hcheck : engineStep s = .next (s.raise .invalidHandle 0) := by
    simp only [engineStep, hpt, stepHandleCheck, hk, Bool.false_eq_true, if_false]
  rw [step_turn hi, engineTurn_running hp, hredraw, hcheck]
  by_cases hr : s.racedBytes = []
  · rw [settleRace_unraced _ hr, ← hr]
    rfl
  · rw [settleRace_ended hr rfl, raceEnd_invalid _ hk]

/-- Settles O15, effect by effect. -/
theorem foreignAccessToBusyRegion : Obligations.ForeignAccessToBusyRegion := by
  refine ⟨fun s a v rest => ⟨fun hk hb hreg => ?_, fun hi => ?_⟩,
    fun s t hs hi hp ht => ⟨fun a ha hread h => ?_, fun hnone h => ?_⟩,
    fun s t hs hi hr hk h ht => ?_, fun s hi hp hpt hk => ?_⟩
  · have hraced := (raced_iff a s).2 ⟨hb, hreg⟩
    exact ⟨step_memWrite_raced hk hraced, step_memRead_raced hk hraced⟩
  · obtain ⟨o, ho⟩ := step_foreignAccess hi
    exact ⟨fun hk => ho.trans (foreignAccess_unbacked o hk), fun hk => ho.trans (foreignAccess_device o hk)⟩
  · exact step_of_unraced hi hp ht (by rw [redraw_raced ha hread]; exact h)
  · exact step_of_unraced hi hp ht (by rw [redraw_eq_self hnone]; exact h)
  · obtain ⟨b, hb⟩ := List.exists_mem_of_ne_nil _ hr
    obtain ⟨hp, -⟩ := hs.races b hb
    obtain ⟨u, hu, rfl⟩ := raced_step_ends hi hp hr h ht
    obtain ⟨X, hlen, hfree, hresult⟩ := raceEnd_ending u hk
    refine ⟨(raceEnd_frame s.eng u).racedBytes, raced_end_read hs hp hu hk, X, _, hlen, fun i hi => ?_, rfl,
      hresult⟩
    obtain ⟨j, hj, hle, hlt⟩ := hfree i hi
    exact ⟨j, hj, (redraw_engineStep_fresh hu).trans hle, hlt⟩
  · exact ⟨_, step_invalid hi hp hpt hk, rfl, rfl, rfl, rfl, rfl, rfl⟩

end Sys2Proof.Machine
